-- ==== Sys2Proof/Word.lean ====
section
/-! DEFINITION. The word types of the gstrtpvc2 VLC/RTP core (00_scope.md R5, R7). No value of this
hardware is signed (46_arithmetic_and_control.md R290). -/

namespace Sys2Proof

/-- One byte; bit 7 is the most significant and the first in stream order (20_memory.md R40, R41). -/
abbrev Byte := BitVec 8

/-- A 16-bit field of the wire, and the width of `pkt.ext_seq` and `pkt.mtu` (10_state.md R17). -/
abbrev Half := BitVec 16

/-- A 32-bit value: `ACC_W` and `OFF_W` of 00_scope.md R5. -/
abbrev Word := BitVec 32

/-- `u16(v)` of 00_scope.md R7. -/
def u16 (n : Nat) : Half := BitVec.ofNat 16 n

/-- `u32(v)` of 00_scope.md R7. -/
def u32 (n : Nat) : Word := BitVec.ofNat 32 n

end Sys2Proof
end

