-- ==== Sys2Proof/Config.lean ====
section
/-! DEFINITION. What an implementation fixes (00_scope.md R5; 93_implementation_defined.md part 2) and
the values the spec leaves open (log 10). -/

namespace Sys2Proof

/-- `ENC_REJECT_POLICY` of 00_scope.md R5: what PKT does with a head unit rejected while SYNC. -/
inductive RejectPolicy where
  | resync
  | stall
  deriving DecidableEq, Repr

namespace Config

/-- The policy the spec takes (44_packetizer.md R173; D20). DESIGN CHOICE among the two values the spec
names, log 18. -/
def encRejectPolicy : RejectPolicy := .resync

/-- `QM_SUB` as the source prints it (42_transform_parameters.md R132; D12, log 18). -/
def qmSub : Nat := 1

/-- `HDR_LEN`: bytes of a parse-unit header (00_scope.md R5). -/
def hdrLen : Nat := 13

/-- `PIC_HDR_LEN`: bytes of an HQ-picture header with its picture number (00_scope.md R5). -/
def picHdrLen : Nat := 17

/-- `FRAG_OVERHEAD`: bytes added to the slice bytes in the packing test (00_scope.md R5). -/
def fragOverhead : Nat := 16

/-- `WIRE_PREFIX_LEN` (00_scope.md R5). -/
def wirePrefixLen : Nat := 4

/-- `N_PRESET` (00_scope.md R5). -/
def nPreset : Nat := 23

/-- The value of `pkt.mtu` at power-on (44_packetizer.md R191; D31). -/
def mtuReset : Nat := 1500

/-- The least legal `pkt.mtu` (44_packetizer.md R191; D31). -/
def mtuMin : Nat := 16

/-- Free value (log 10): what `pkt.cache_w` holds once its cache is dropped (10_state.md R17). -/
opaque freeCacheW : Nat → Word

/-- Free value (log 10): what `pkt.cache_h` holds once its cache is dropped (10_state.md R17). -/
opaque freeCacheH : Nat → Word

/-- Free value (log 10): what `pkt.cache_il` holds once its cache is dropped (10_state.md R17). -/
opaque freeCacheIl : Nat → Bool

/-- Free value (log 10): what `pkt.pts` holds after PKT.RESET (44_packetizer.md R190). -/
opaque freePts : Nat → Nat

/-- Free value (log 10): what `pkt.dts` holds after PKT.RESET (44_packetizer.md R190). -/
opaque freeDts : Nat → Nat

end Config
end Sys2Proof
end

