-- ==== Sys2Proof/Syntax.lean ====
section
/-! DEFINITION. The instructions: one constructor per row of spec/opcode_table.json, in the table's
order, and the forms in which an instruction reaches the block (log 1, log 3). -/

namespace Sys2Proof

/-- The operand wires beside a command code (log 1). The spec gives each operation its operands and no
layout for them (00_scope.md R6; 30_encoding.md R80). A command reads the slots it needs and ignores
the others. -/
structure Operands where
  /-- `span`, `data`, `buf`, `payload`, or the first operand of SH.EQUAL. -/
  bytes : List Byte
  /-- The second operand of SH.EQUAL. -/
  bytes2 : List Byte
  /-- `size` of PU.EXTRACT and PU.FIND, `pts` of PKT.PUSH. -/
  n1 : Nat
  /-- `offset`, `fromOffset`, `dts`. -/
  n2 : Nat
  /-- `m` of PKT.SETMTU, 16 bits (44_packetizer.md R191). -/
  half : Half
  /-- `marker` of DPK.FRAG. -/
  marker : Bool
  /-- `disc` of DPK.FRAG. -/
  disc : Bool
  deriving DecidableEq, Repr

/-- All operand wires at 0. -/
def Operands.zero : Operands := ⟨[], [], 0, 0, 0#16, false, false⟩

/-- Bytes 0 to 2 of a wire payload (30_encoding.md R70): carried, and never read by DPK. -/
structure WireHead where
  extSeq : Half
  interlace : Byte
  deriving DecidableEq, Repr

/-- Bytes 0 to 9 of `HQ_FRAG_HDR` (30_encoding.md R73): the fields before `slice_count`. -/
structure HqHead where
  pictureNumber : Word
  slicePrefixBytes : Half
  sliceSizeScalar : Half
  fragmentLength : Half
  deriving DecidableEq, Repr

/-- The instructions of the block. -/
inductive Instr where
  -- unit BR
  | brInit (span : List Byte)
  | brReadBit
  | brReadBool
  | brReadUint
  | brLength
  | brOverrun
  -- units SHP and TPP
  | shParse (data : List Byte)
  | shEqual (a b : List Byte)
  | tpParse (data : List Byte)
  -- unit PUS
  | puExtract (buf : List Byte) (size offset : Nat)
  | puFind (buf : List Byte) (size fromOffset : Nat)
  -- unit PKT
  | pktPush (data : List Byte) (pts dts : Nat)
  | pktReset
  | pktSetMtu (m : Half)
  -- unit DPK
  | dpkFrag (payload : List Byte) (marker disc : Bool)
  | dpkReset
  -- the native stream: `next_parse_offset` and `prev_parse_offset` as the header has them
  | unitSequenceHeader (npo ppo : Word)
  | unitEndOfSequence (npo ppo : Word)
  | unitAuxiliary (npo ppo : Word)
  | unitPadding (npo ppo : Word)
  | unitHqPicture (npo ppo : Word)
  | unitUnknown (code : Byte) (npo ppo : Word)
  -- the wire: `p` is the payload after its 4-byte prefix; `rest` is what follows `slice_count`
  | fragSequenceHeader (head : WireHead) (p : List Byte)
  | fragEndOfSequence (head : WireHead) (p : List Byte)
  | fragHqParams (head : WireHead) (hq : HqHead) (rest : List Byte) (marker : Bool)
  | fragHqSlices (head : WireHead) (hq : HqHead) (sliceCount : Half) (rest : List Byte) (marker : Bool)
  | fragUnknown (head : WireHead) (tag : Byte) (p : List Byte)
  -- the VLC codes: `b` the bit, `x` the `k` data bits, most significant first
  | vlcBool (b : Bool)
  | vlcUint (x : List Bool)
  deriving DecidableEq, Repr

/-- An instruction as the block meets it: a command code with its operand wires, the head of the native
stream, a wire payload with its marker bit, or the bits at the reader's cursor. -/
inductive Words where
  | command (code : Byte) (ops : Operands)
  | unit (bytes : List Byte)
  | fragment (payload : List Byte) (marker : Bool)
  | boolCode (bits : List Bool)
  | uintCode (bits : List Bool)
  deriving DecidableEq, Repr

/-- What a caller can ask for (log 1, log 3). `command` is an operation of 00_scope.md R6. The others ask
for one turn of a loop that an operation runs: one turn of PKT.PUSH's loop (44_packetizer.md R170), one
dispatch of DPK.FRAG (45_depacketizer.md R203), one VLC code at the cursor (30_encoding.md R61, R62). -/
inductive Request where
  | command (code : Byte) (ops : Operands)
  | unit
  | fragment (payload : List Byte) (marker : Bool)
  | boolCode
  | uintCode
  deriving DecidableEq, Repr

end Sys2Proof
end

