-- ==== Sys2Proof/WellFormed.lean ====
section
/-! DEFINITION. Which terms of `Instr` stand for an instruction of the spec. -/

namespace Sys2Proof

/-- The parse codes the table names (30_encoding.md R66). -/
def knownParseCodes : List Byte := [0x00#8, 0x10#8, 0x20#8, 0x30#8, 0xE8#8]

/-- The wire tags the table names (30_encoding.md R72). -/
def knownTags : List Byte := [0x00#8, 0x10#8, 0xEC#8]

/-- Well-formedness. UNIT.UNKNOWN and FRAG.UNKNOWN are the rows "otherwise" (30_encoding.md R82),
FRAG.HQ_SLICES has `slice_count > 0` (R74), and PU.EXTRACT and PU.FIND need `size ≤ len(buf)`
(43_parse_unit_scanner.md R140). -/
def Instr.wellFormed : Instr → Bool
  | .brInit _ => true
  | .brReadBit => true
  | .brReadBool => true
  | .brReadUint => true
  | .brLength => true
  | .brOverrun => true
  | .shParse _ => true
  | .shEqual _ _ => true
  | .tpParse _ => true
  | .puExtract buf size _ => decide (size ≤ buf.length)
  | .puFind buf size _ => decide (size ≤ buf.length)
  | .pktPush _ _ _ => true
  | .pktReset => true
  | .pktSetMtu _ => true
  | .dpkFrag _ _ _ => true
  | .dpkReset => true
  | .unitSequenceHeader _ _ => true
  | .unitEndOfSequence _ _ => true
  | .unitAuxiliary _ _ => true
  | .unitPadding _ _ => true
  | .unitHqPicture _ _ => true
  | .unitUnknown code _ _ => !knownParseCodes.contains code
  | .fragSequenceHeader _ _ => true
  | .fragEndOfSequence _ _ => true
  | .fragHqParams _ _ _ _ => true
  | .fragHqSlices _ _ sliceCount _ _ => sliceCount != 0#16
  | .fragUnknown _ tag _ => !knownTags.contains tag
  | .vlcBool _ => true
  | .vlcUint _ => true

end Sys2Proof
end

