-- ==== Sys2Proof/Decode.lean ====
section
/-! DEFINITION. Byte order, the decoder (total, rejecting by name) and the encoder (30_encoding.md). -/

namespace Sys2Proof

/-! ### Byte order (00_scope.md R7; 20_memory.md R40, R42) -/

/-- Byte `i` of a sequence. Every rule compares with the length before it reads (20_memory.md R45); the
0 beyond the end is never used by one (log 25). -/
def byteAt (l : List Byte) (i : Nat) : Byte := l.getD i 0#8

/-- `be16(B, i)`. -/
def be16 (l : List Byte) (i : Nat) : Half := byteAt l i ++ byteAt l (i + 1)

/-- `be32(B, i)`. -/
def be32 (l : List Byte) (i : Nat) : Word := be16 l i ++ be16 l (i + 2)

/-- `put16(v)`. -/
def put16 (v : Half) : List Byte := [v.extractLsb' 8 8, v.extractLsb' 0 8]

/-- `put32(v)`. -/
def put32 (v : Word) : List Byte :=
  [v.extractLsb' 24 8, v.extractLsb' 16 8, v.extractLsb' 8 8, v.extractLsb' 0 8]

/-- `MAGIC`, the four bytes `42 42 43 44` (00_scope.md R7). -/
def magic : List Byte := [0x42#8, 0x42#8, 0x43#8, 0x44#8]

/-- Whether a sequence begins with `MAGIC`. -/
def hasMagic (l : List Byte) : Bool := l.take 4 == magic

/-- `PI(code, npo, ppo)`, the 13 bytes of a parse-unit header (30_encoding.md R65, R81). -/
def parseInfo (code : Byte) (npo ppo : Word) : List Byte :=
  magic ++ [code] ++ put32 npo ++ put32 ppo

/-! ### Commands (30_encoding.md R80) -/

/-- The command of a code, with its operands taken from the operand wires. -/
def decodeCommand (code : Byte) (o : Operands) : Option Instr :=
  match code.toNat with
  | 0x10 => some (.brInit o.bytes)
  | 0x11 => some .brReadBit
  | 0x12 => some .brReadBool
  | 0x13 => some .brReadUint
  | 0x14 => some .brLength
  | 0x15 => some .brOverrun
  | 0x20 => some (.shParse o.bytes)
  | 0x21 => some (.shEqual o.bytes o.bytes2)
  | 0x30 => some (.tpParse o.bytes)
  | 0x40 => some (.puExtract o.bytes o.n1 o.n2)
  | 0x41 => some (.puFind o.bytes o.n1 o.n2)
  | 0x50 => some (.pktPush o.bytes o.n1 o.n2)
  | 0x51 => some .pktReset
  | 0x52 => some (.pktSetMtu o.half)
  | 0x60 => some (.dpkFrag o.bytes o.marker o.disc)
  | 0x61 => some .dpkReset
  | _ => none

/-! ### The native stream (30_encoding.md R65, R66) -/

/-- What a `parse_code` selects (30_encoding.md R66; 44_packetizer.md R172). -/
inductive UnitKind where
  | sequenceHeader
  | endOfSequence
  | auxiliary
  | padding
  | hqPicture
  | unknown
  deriving DecidableEq, Repr

/-- The kind of a parse code; everything the table does not name is unknown, `0xEC` included. -/
def unitKind (code : Byte) : UnitKind :=
  match code.toNat with
  | 0x00 => .sequenceHeader
  | 0x10 => .endOfSequence
  | 0x20 => .auxiliary
  | 0x30 => .padding
  | 0xE8 => .hqPicture
  | _ => .unknown

/-- The instruction of a header's three fields. -/
def unitInstr (code : Byte) (npo ppo : Word) : Instr :=
  match unitKind code with
  | .sequenceHeader => .unitSequenceHeader npo ppo
  | .endOfSequence => .unitEndOfSequence npo ppo
  | .auxiliary => .unitAuxiliary npo ppo
  | .padding => .unitPadding npo ppo
  | .hqPicture => .unitHqPicture npo ppo
  | .unknown => .unitUnknown code npo ppo

/-! ### The wire (30_encoding.md R70 to R74; 45_depacketizer.md R202, R203, R205) -/

/-- A wire payload taken apart. `short` has no tag (45_depacketizer.md R201); `shortHq` has tag `0xEC`
and fewer than 12 bytes after the prefix, so no `slice_count` (R205, log 27). -/
inductive FragForm where
  | short
  | shortHq
  | sequenceHeader (head : WireHead) (p : List Byte)
  | endOfSequence (head : WireHead) (p : List Byte)
  | hqParams (head : WireHead) (hq : HqHead) (rest : List Byte)
  | hqSlices (head : WireHead) (hq : HqHead) (sliceCount : Half) (rest : List Byte)
  | unknown (head : WireHead) (tag : Byte) (p : List Byte)
  deriving DecidableEq, Repr

/-- The first ten bytes of `HQ_FRAG_HDR` (30_encoding.md R73). -/
def hqHead (p : List Byte) : HqHead := ⟨be32 p 0, be16 p 4, be16 p 6, be16 p 8⟩

/-- The HQ fragment of the bytes after the prefix: length check, then `slice_count` selects. -/
def parseHq (head : WireHead) (p : List Byte) : FragForm :=
  if p.length < 12 then .shortHq
  else if be16 p 10 = 0#16 then .hqParams head (hqHead p) (p.drop 12)
  else .hqSlices head (hqHead p) (be16 p 10) (p.drop 12)

/-- Take a wire payload apart: tag byte, then the body. -/
def parseFrag (payload : List Byte) : FragForm :=
  if payload.length < 4 then .short
  else
    let head : WireHead := ⟨be16 payload 0, byteAt payload 2⟩
    let p := payload.drop 4
    match (byteAt payload 3).toNat with
    | 0x00 => .sequenceHeader head p
    | 0x10 => .endOfSequence head p
    | 0xEC => parseHq head p
    | _ => .unknown head (byteAt payload 3) p

/-! ### The VLC codes (30_encoding.md R61, R62, R64) -/

/-- The bit a `VLC.BOOL` reads: the first of the bits left, or the sentinel 1 (40_bitreader_vlc.md R92). -/
def boolCodeBit : List Bool → Bool
  | [] => true
  | b :: _ => b

/-- The data bits of the `VLC.UINT` code that the bits left begin with: bits at even distance decide, and
missing bits read as the sentinel 1 (30_encoding.md R64; 40_bitreader_vlc.md R98, log 16). -/
def uintCodeBits : List Bool → List Bool
  | [] => []
  | true :: _ => []
  | [false] => [true]
  | false :: b :: rest => b :: uintCodeBits rest

/-- The bits of the `VLC.UINT` code with data bits `x`: a 0 before each, then the closing 1
(30_encoding.md R62). -/
def uintCode : List Bool → List Bool
  | [] => [true]
  | b :: x => false :: b :: uintCode x

/-! ### The decoder and the encoder -/

/-- Why the decoder reads no instruction. -/
inductive Reject where
  /-- The command code is not in the table (30_encoding.md R77). -/
  | unknownCommand
  /-- Fewer than 13 bytes at a header position (43_parse_unit_scanner.md R142). -/
  | shortHeader
  /-- The first four bytes are not the magic (43_parse_unit_scanner.md R143). -/
  | badMagic
  /-- A wire payload of fewer than 4 bytes (45_depacketizer.md R201). -/
  | shortPayload
  /-- An HQ fragment with fewer than 12 bytes after its prefix (45_depacketizer.md R205). -/
  | shortHqFragment
  deriving DecidableEq, Repr

/-- The result of decoding. -/
inductive Decoded where
  | ok (i : Instr)
  | rejected (r : Reject)
  deriving DecidableEq, Repr

/-- Decode a parse-unit header: length, magic, fields (43_parse_unit_scanner.md R142 to R144). -/
def decodeUnit (bytes : List Byte) : Decoded :=
  if bytes.length < 13 then .rejected .shortHeader
  else if hasMagic bytes then .ok (unitInstr (byteAt bytes 4) (be32 bytes 5) (be32 bytes 9))
  else .rejected .badMagic

/-- Decode a wire payload with its marker bit. -/
def decodeFragment (payload : List Byte) (marker : Bool) : Decoded :=
  match parseFrag payload with
  | .short => .rejected .shortPayload
  | .shortHq => .rejected .shortHqFragment
  | .sequenceHeader head p => .ok (.fragSequenceHeader head p)
  | .endOfSequence head p => .ok (.fragEndOfSequence head p)
  | .hqParams head hq rest => .ok (.fragHqParams head hq rest marker)
  | .hqSlices head hq n rest => .ok (.fragHqSlices head hq n rest marker)
  | .unknown head tag p => .ok (.fragUnknown head tag p)

/-- The decoder: total on any words. -/
def decode : Words → Decoded
  | .command code o =>
    match decodeCommand code o with
    | some i => .ok i
    | none => .rejected .unknownCommand
  | .unit bytes => decodeUnit bytes
  | .fragment payload marker => decodeFragment payload marker
  | .boolCode bits => .ok (.vlcBool (boolCodeBit bits))
  | .uintCode bits => .ok (.vlcUint (uintCodeBits bits))

/-- `WP(seq, il, tag)` (30_encoding.md R81). -/
def wirePrefix (head : WireHead) (tag : Byte) : List Byte :=
  put16 head.extSeq ++ [head.interlace, tag]

/-- Bytes 0 to 11 of `HQ_FRAG_HDR` (30_encoding.md R73). -/
def hqHeader (hq : HqHead) (sliceCount : Half) : List Byte :=
  put32 hq.pictureNumber ++ put16 hq.slicePrefixBytes ++ put16 hq.sliceSizeScalar ++
    put16 hq.fragmentLength ++ put16 sliceCount

/-- The encoder: the words of an instruction, from the encodings of 30_encoding.md. -/
def encode : Instr → Words
  | .brInit span => .command 0x10#8 { Operands.zero with bytes := span }
  | .brReadBit => .command 0x11#8 Operands.zero
  | .brReadBool => .command 0x12#8 Operands.zero
  | .brReadUint => .command 0x13#8 Operands.zero
  | .brLength => .command 0x14#8 Operands.zero
  | .brOverrun => .command 0x15#8 Operands.zero
  | .shParse data => .command 0x20#8 { Operands.zero with bytes := data }
  | .shEqual a b => .command 0x21#8 { Operands.zero with bytes := a, bytes2 := b }
  | .tpParse data => .command 0x30#8 { Operands.zero with bytes := data }
  | .puExtract buf size offset =>
    .command 0x40#8 { Operands.zero with bytes := buf, n1 := size, n2 := offset }
  | .puFind buf size fromOffset =>
    .command 0x41#8 { Operands.zero with bytes := buf, n1 := size, n2 := fromOffset }
  | .pktPush data pts dts => .command 0x50#8 { Operands.zero with bytes := data, n1 := pts, n2 := dts }
  | .pktReset => .command 0x51#8 Operands.zero
  | .pktSetMtu m => .command 0x52#8 { Operands.zero with half := m }
  | .dpkFrag payload marker disc =>
    .command 0x60#8 { Operands.zero with bytes := payload, marker := marker, disc := disc }
  | .dpkReset => .command 0x61#8 Operands.zero
  | .unitSequenceHeader npo ppo => .unit (parseInfo 0x00#8 npo ppo)
  | .unitEndOfSequence npo ppo => .unit (parseInfo 0x10#8 npo ppo)
  | .unitAuxiliary npo ppo => .unit (parseInfo 0x20#8 npo ppo)
  | .unitPadding npo ppo => .unit (parseInfo 0x30#8 npo ppo)
  | .unitHqPicture npo ppo => .unit (parseInfo 0xE8#8 npo ppo)
  | .unitUnknown code npo ppo => .unit (parseInfo code npo ppo)
  | .fragSequenceHeader head p => .fragment (wirePrefix head 0x00#8 ++ p) false
  | .fragEndOfSequence head p => .fragment (wirePrefix head 0x10#8 ++ p) false
  | .fragHqParams head hq rest marker =>
    .fragment (wirePrefix head 0xEC#8 ++ hqHeader hq 0#16 ++ rest) marker
  | .fragHqSlices head hq sliceCount rest marker =>
    .fragment (wirePrefix head 0xEC#8 ++ hqHeader hq sliceCount ++ rest) marker
  | .fragUnknown head tag p => .fragment (wirePrefix head tag ++ p) false
  | .vlcBool b => .boolCode [b]
  | .vlcUint x => .uintCode (uintCode x)

/-! ### Words numbered as the opcode table numbers them (log 4) -/

/-- A number as `n` bytes, most significant first: the table reads a row's match as one number in stream
order (30_encoding.md R82). -/
def bigEndian : Nat → Nat → List Byte
  | 0, _ => []
  | n + 1, w => BitVec.ofNat 8 (w / 256 ^ n) :: bigEndian n w

/-- The words of a table row's bits, every bit above `nbits` zero. Up to 8 bits a command code, or the tag
of a wire prefix where the code is no command's; up to 32 bits a wire prefix; more, the 40 bits of magic
and parse code. -/
def tableWords (nbits w : Nat) : Words :=
  if nbits ≤ 8 then
    if (decodeCommand (BitVec.ofNat 8 w) Operands.zero).isNone && knownTags.contains (BitVec.ofNat 8 w) then
      .fragment (bigEndian 4 (w % 256) ++ List.replicate 12 0#8) false
    else .command (BitVec.ofNat 8 w) Operands.zero
  else if nbits ≤ 32 then .fragment (bigEndian 4 w ++ List.replicate 12 0#8) false
  else .unit (bigEndian 5 w ++ List.replicate 8 0#8)

/-- The instruction the decoder reads from a table row's bits. -/
def decodeTableWord (nbits w : Nat) : Option Instr :=
  match decode (tableWords nbits w) with
  | .ok i => some i
  | .rejected _ => none

end Sys2Proof
end

