-- ==== Sys2Proof/Machine/State.lean ====
section
/-! DEFINITION. The state of the block as plain data: every register and byte space of 10_state.md R30,
the requests not yet taken and the outputs of the latest one (log 1, log 12), the reasons a step can
stop, and the state after reset. -/

namespace Sys2Proof.Machine

/-- A bit reader (10_state.md R11): the caller's BR, and the private ones of SHP and TPP (R13). -/
structure Reader where
  /-- `br.span`, the space SPAN. -/
  span : List Byte
  /-- `br.len`, a register of its own (10_state.md R30). -/
  len : Nat
  /-- `br.pos`, in bits. -/
  pos : Nat
  /-- `br.ovr`, the sticky overrun flag. -/
  ovr : Bool
  deriving DecidableEq, Repr

/-- `pkt.state` (44_packetizer.md R161). -/
inductive Sync where
  | unsync
  | sync
  deriving DecidableEq, Repr

/-- The packetizer (10_state.md R17) with its event register (R23). -/
structure Pkt where
  /-- `pkt.state`. -/
  state : Sync
  /-- `pkt.buf`, the space BUF. -/
  buf : List Byte
  /-- `pkt.cache_valid`. -/
  cacheValid : Bool
  /-- `pkt.cache`, the space CACHE. -/
  cache : List Byte
  /-- `pkt.cache_w`. -/
  cacheW : Word
  /-- `pkt.cache_h`. -/
  cacheH : Word
  /-- `pkt.cache_il`. -/
  cacheIl : Bool
  /-- `pkt.ext_seq`. -/
  extSeq : Half
  /-- `pkt.mtu`. -/
  mtu : Half
  /-- `pkt.pts`, an opaque token (log 11). -/
  pts : Nat
  /-- `pkt.dts`, an opaque token (log 11). -/
  dts : Nat
  /-- `PKT_EVENT`. -/
  event : Half
  deriving DecidableEq, Repr

/-- The depacketizer (10_state.md R20) with its event register (R23). -/
structure Dpk where
  /-- `dpk.waiting`. -/
  waiting : Bool
  /-- `dpk.in_picture`. -/
  inPicture : Bool
  /-- `dpk.cur_pn`. -/
  curPn : Word
  /-- `dpk.acc`, the space ACC. -/
  acc : List Byte
  /-- `dpk.acc_bytes`, a register of its own (10_state.md R30). -/
  accBytes : Word
  /-- `dpk.last_off`. -/
  lastOff : Word
  /-- `DPK_EVENT`. -/
  event : Half
  deriving DecidableEq, Repr

/-! ### Events (60_exceptions.md R231, R232) -/

/-- The causes of `MalformedHeader`. -/
inductive Malformed where
  | badMagic
  | badLink
  | vlcOverrun
  | badVersion
  | badProfile
  | badBaseFormat
  | shortUnit
  | fieldRange
  | noSlices
  | sliceBounds
  | mtuTooSmall
  | shortFragment
  deriving DecidableEq, Repr

/-- The causes of `SequenceMismatch`. -/
inductive Mismatch where
  | lengthExceeds
  | pictureNumber
  | notInPicture
  deriving DecidableEq, Repr

/-- The causes of `Discontinuity`. -/
inductive Gap where
  | transportFlag
  | resetOp
  deriving DecidableEq, Repr

/-- An event: a code and its cause. `needMore` is `AmbiguousBoundary(NEED_MORE)`. -/
inductive Event where
  | malformedHeader (cause : Malformed)
  | needMore
  | sequenceMismatch (cause : Mismatch)
  | discontinuity (cause : Gap)
  deriving DecidableEq, Repr

/-! ### Responses (00_scope.md R6) -/

/-- The record of SH.PARSE (41_sequence_header.md R110). -/
structure SeqInfo where
  pictureWidth : Word
  pictureHeight : Word
  interlaced : Bool
  deriving DecidableEq, Repr

/-- The record of TP.PARSE (42_transform_parameters.md R130). -/
structure TransformInfo where
  waveletIndex : Word
  dwtDepth : Word
  slicesX : Word
  slicesY : Word
  slicePrefixBytes : Word
  sliceSizeScalar : Word
  /-- A count of bytes (42_transform_parameters.md R133). -/
  codedSize : Nat
  deriving DecidableEq, Repr

/-- The record of a `FOUND` (43_parse_unit_scanner.md R153). -/
structure ParseUnit where
  offset : Nat
  parseCode : Byte
  nextParseOffset : Word
  prevParseOffset : Word
  deriving DecidableEq, Repr

/-- The response of PU.EXTRACT (43_parse_unit_scanner.md R141). -/
inductive Extracted where
  | found (u : ParseUnit)
  | reject (cause : Malformed)
  | more
  deriving DecidableEq, Repr

/-- One wire payload handed to the transport (44_packetizer.md R189). -/
structure Fragment where
  payload : List Byte
  marker : Bool
  pts : Nat
  dts : Nat
  deriving DecidableEq, Repr

/-- The response of an operation. `nothing` is R6's "none". -/
inductive Response where
  | nothing
  | bit (b : Bool)
  | bool (b : Bool)
  | uint (v : Word)
  | byteCount (n : Nat)
  | seqInfo (r : Option SeqInfo)
  | transformInfo (r : Option TransformInfo)
  | extracted (r : Extracted)
  | foundAt (r : Option Nat)
  | fragments (l : List Fragment)
  | parseUnit (r : Option (List Byte))
  deriving DecidableEq, Repr

/-! ### The state -/

/-- The whole state. The last five fields are the model's own (log 1, log 10, log 12). -/
structure State where
  br : Reader
  pkt : Pkt
  dpk : Dpk
  /-- Requests issued and not yet taken, oldest first (20_memory.md R53). -/
  inbox : List Request
  /-- The response of the latest operation. -/
  resp : Response
  /-- The fragments emitted during the latest request, in order. -/
  tx : List Fragment
  /-- The events raised during the latest request, in order (60_exceptions.md R233). -/
  diag : List Event
  /-- How many times a free value was drawn (log 10). -/
  freeCount : Nat
  deriving DecidableEq, Repr

/-- Why the block would stop with a fault: there is no reason, since "no condition is fatal" and no
operation ever fails (60_exceptions.md R230, R242). The type is empty, so no step can fault. -/
inductive Fault where
  deriving DecidableEq, Repr

/-- Why the model gives a request no meaning. -/
inductive Refusal where
  /-- Raised by `exec` for an instruction that has no meaning in the model. Safe: the model stops where
  the block goes on. -/
  | notModelled (mnemonic : String)
  /-- Raised by PU.EXTRACT and PU.FIND with `size > len(buf)`, which is outside the spec
  (43_parse_unit_scanner.md R140; 93_implementation_defined.md U6; log 17). Safe: nothing is claimed of
  what the block does there. -/
  | sizeBeyondBuffer
  deriving DecidableEq, Repr

/-- The state after power-on reset (10_state.md R30; 70_reset_and_hazards.md R260). The fields the spec
leaves unspecified hold the values of log 7, log 8 and log 9. -/
def State.reset : State where
  br := { span := [], len := 0, pos := 0, ovr := false }
  pkt :=
    { state := .unsync, buf := [], cacheValid := false, cache := [], cacheW := 0#32, cacheH := 0#32,
      cacheIl := false, extSeq := 0#16, mtu := u16 Config.mtuReset, pts := 0, dts := 0, event := 0#16 }
  dpk :=
    { waiting := true, inPicture := false, curPn := 0#32, acc := [], accBytes := 0#32, lastOff := 0#32,
      event := 0#16 }
  inbox := []
  resp := .nothing
  tx := []
  diag := []
  freeCount := 0

end Sys2Proof.Machine
end

