-- ==== Sys2Proof/Machine/Flags.lean ====
section
/-! DEFINITION. The flags and the words made of them: event codes and causes (60_exceptions.md R231 to
R233) and the status views (10_state.md R15, R23). -/

namespace Sys2Proof.Machine

/-- The event codes of 60_exceptions.md R231. -/
def eventCode : Event → Byte
  | .malformedHeader _ => 1#8
  | .needMore => 2#8
  | .sequenceMismatch _ => 3#8
  | .discontinuity _ => 4#8

/-- The cause codes of 60_exceptions.md R232. -/
def eventCause : Event → Byte
  | .malformedHeader .badMagic => 1#8
  | .malformedHeader .badLink => 2#8
  | .malformedHeader .vlcOverrun => 3#8
  | .malformedHeader .badVersion => 4#8
  | .malformedHeader .badProfile => 5#8
  | .malformedHeader .badBaseFormat => 6#8
  | .malformedHeader .shortUnit => 7#8
  | .malformedHeader .fieldRange => 8#8
  | .malformedHeader .noSlices => 9#8
  | .malformedHeader .sliceBounds => 10#8
  | .malformedHeader .mtuTooSmall => 11#8
  | .malformedHeader .shortFragment => 12#8
  | .needMore => 1#8
  | .sequenceMismatch .lengthExceeds => 1#8
  | .sequenceMismatch .pictureNumber => 2#8
  | .sequenceMismatch .notInPicture => 3#8
  | .discontinuity .transportFlag => 1#8
  | .discontinuity .resetOp => 2#8

/-- What an event register holds: bits 7:0 the code, bits 15:8 the cause (10_state.md R23). -/
def eventWord (e : Event) : Half := eventCause e ++ eventCode e

/-- `pkt.state` as a bit: 0 UNSYNC, 1 SYNC (10_state.md R15). -/
def syncBit : Sync → Bool
  | .unsync => false
  | .sync => true

/-- `pkt.cache_il` as the rules read it: 0 while nothing is cached (10_state.md R17, R23). -/
def cachedInterlaced (p : Pkt) : Bool := p.cacheValid && p.cacheIl

/-- `BR_STATUS`: bit 0 is `br.ovr` (10_state.md R23). The bits above read 0: DESIGN CHOICE, log 32. -/
def brStatus (r : Reader) : Nat := r.ovr.toNat

/-- `PKT_STATUS`: bit 0 the state, bit 1 `cache_valid`, bit 2 `cache_il` (10_state.md R23). The bits above read
0: DESIGN CHOICE, log 32. -/
def pktStatus (p : Pkt) : Nat :=
  (syncBit p.state).toNat + 2 * p.cacheValid.toNat + 4 * (cachedInterlaced p).toNat

/-- `DPK_STATUS`: bit 0 `waiting`, bit 1 `in_picture` (10_state.md R23). The bits above read 0: DESIGN CHOICE,
log 32. -/
def dpkStatus (d : Dpk) : Nat := d.waiting.toNat + 2 * d.inPicture.toNat

/-- A register of the status map by its number (10_state.md R23). Reading one is no operation and has no
effect (46_arithmetic_and_control.md R295). -/
def statusView (number : Byte) (s : State) : Option Nat :=
  match number.toNat with
  | 0x10 => some s.br.pos
  | 0x11 => some s.br.len
  | 0x12 => some (brStatus s.br)
  | 0x50 => some s.pkt.mtu.toNat
  | 0x51 => some (pktStatus s.pkt)
  | 0x52 => some s.pkt.extSeq.toNat
  | 0x53 => some s.pkt.buf.length
  | 0x54 => some s.pkt.event.toNat
  | 0x60 => some (dpkStatus s.dpk)
  | 0x61 => some s.dpk.curPn.toNat
  | 0x62 => some s.dpk.accBytes.toNat
  | 0x63 => some s.dpk.lastOff.toNat
  | 0x64 => some s.dpk.event.toNat
  | _ => none

end Sys2Proof.Machine
end

