-- ==== Sys2Proof/Machine/Operands.lean ====
section
/-! DEFINITION. How operands are read: bytes of a space, bits of the span, bytes of the unit at the
buffer head (30_encoding.md R76; 46_arithmetic_and_control.md R294). -/

namespace Sys2Proof.Machine

/-- `B[i .. j)` of 00_scope.md R7. -/
def slice (l : List Byte) (i j : Nat) : List Byte := (l.take j).drop i

/-- The four byte spaces (10_state.md R26). -/
inductive Space where
  | span
  | buf
  | cache
  | acc
  deriving DecidableEq, Repr

/-- The bytes of a space. -/
def spaceBytes (sp : Space) (s : State) : List Byte :=
  match sp with
  | .span => s.br.span
  | .buf => s.pkt.buf
  | .cache => s.pkt.cache
  | .acc => s.dpk.acc

/-- One byte of a space; no address at or beyond the length reads as anything (20_memory.md R45, R50). -/
def memByte (sp : Space) (addr : Nat) (s : State) : Option Byte := (spaceBytes sp s)[addr]?

/-- A space as address and byte pairs (log 6). -/
def memory (sp : Space) (s : State) : List Host.Cell :=
  (spaceBytes sp s).zipIdx.map fun c => (c.2, c.1)

/-- The canonical form of a list of cells: addresses strictly rising. An unlisted address reads as nothing,
so no entry can repeat it (log 6). -/
def Memory.wf (m : List Host.Cell) : Bool := decide (m.Pairwise fun a b => a.1 < b.1)

/-- `MemRead(space, addr, n)`: defined only when `addr + n ≤ len(space)` (20_memory.md R45). -/
def memRead (sp : Space) (addr n : Nat) (s : State) : Option (List Byte) :=
  if addr + n ≤ (spaceBytes sp s).length then some (slice (spaceBytes sp s) addr (addr + n)) else none

/-- `SpanBit(p)`: bit `7 - p mod 8` of byte `p div 8` (20_memory.md R41). -/
def spanBit (span : List Byte) (p : Nat) : Bool := (byteAt span (p / 8)).getLsbD (7 - p % 8)

/-- The bits of a byte in stream order, the most significant first (20_memory.md R40). -/
def byteBits (b : Byte) : List Bool := (List.range 8).map fun i => b.getLsbD (7 - i)

/-- The bits of a span in stream order. -/
def spanBits (span : List Byte) : List Bool := span.flatMap byteBits

/-- The bits a reader has left, from its cursor to the end of its span. -/
def bitsLeft (r : Reader) : List Bool := ((spanBits r.span).take (8 * r.len)).drop r.pos

end Sys2Proof.Machine
end

