-- ==== Sys2Proof/Machine/Ops.lean ====
section
/-! DEFINITION. The named operations over the state that the meanings share: raising an event (this
hardware's one kind of exception, 60_exceptions.md R230), the queue and accumulator primitives
(20_memory.md R44 to R46), emission, and the resets. -/

namespace Sys2Proof.Machine

/-! ### Field updates -/

/-- Replace the caller's reader. -/
def State.withBr (s : State) (r : Reader) : State := { s with br := r }

/-- Replace the packetizer's registers. -/
def State.withPkt (s : State) (p : Pkt) : State := { s with pkt := p }

/-- Replace the depacketizer's registers. -/
def State.withDpk (s : State) (d : Dpk) : State := { s with dpk := d }

/-- Answer the operation (00_scope.md R6). -/
def State.reply (s : State) (r : Response) : State := { s with resp := r }

/-- Append an event to the diagnostic output (60_exceptions.md R230). -/
def State.note (s : State) (e : Event) : State := { s with diag := s.diag ++ [e] }

/-- Take the oldest request: the outputs of the one before are dropped (log 12). -/
def State.accept (s : State) (rest : List Request) : State :=
  { s with inbox := rest, resp := .nothing, tx := [], diag := [] }

/-! ### Raising an event (60_exceptions.md R230, R233): it saves nothing and transfers no control -/

/-- `raise e` in PKT: the diagnostic output and `PKT_EVENT`. -/
def raisePkt (e : Event) (s : State) : State :=
  (s.note e).withPkt { s.pkt with event := eventWord e }

/-- `raise e` in DPK: the diagnostic output and `DPK_EVENT`. -/
def raiseDpk (e : Event) (s : State) : State :=
  (s.note e).withDpk { s.dpk with event := eventWord e }

/-! ### PKT -/

/-- `Append(BUF, data)` with the timestamps of the push (44_packetizer.md R170; 20_memory.md R44). -/
def appendBuf (data : List Byte) (pts dts : Nat) (s : State) : State :=
  s.withPkt { s.pkt with buf := s.pkt.buf ++ data, pts := pts, dts := dts }

/-- `Consume(BUF, n)` (20_memory.md R46). -/
def consume (n : Nat) (s : State) : State := s.withPkt { s.pkt with buf := s.pkt.buf.drop n }

/-- Write `pkt.state`. -/
def setSync (m : Sync) (s : State) : State := s.withPkt { s.pkt with state := m }

/-- Replace the cache: raw bytes and decoded fields together (44_packetizer.md R178). -/
def replaceCache (raw : List Byte) (i : SeqInfo) (s : State) : State :=
  s.withPkt
    { s.pkt with
      cacheValid := true, cache := raw, cacheW := i.pictureWidth, cacheH := i.pictureHeight,
      cacheIl := i.interlaced }

/-- `Clear(CACHE)` and `pkt.cache_valid <- 0`; the decoded fields are unspecified from then on
(10_state.md R17), so each takes a free value (log 10). -/
def dropCache (s : State) : State :=
  { s with
    pkt :=
      { s.pkt with
        cacheValid := false, cache := [], cacheW := Config.freeCacheW s.freeCount,
        cacheH := Config.freeCacheH s.freeCount, cacheIl := Config.freeCacheIl s.freeCount }
    freeCount := s.freeCount + 1 }

/-- `Emit(il, tag, body, marker)` (44_packetizer.md R189): the counter before the increment goes out, the
increment wraps at 16 bits. -/
def emit (il tag : Byte) (body : List Byte) (marker : Bool) (s : State) : State :=
  { s with
    pkt := { s.pkt with extSeq := s.pkt.extSeq + 1#16 }
    tx := s.tx ++ [⟨wirePrefix ⟨s.pkt.extSeq, il⟩ tag ++ body, marker, s.pkt.pts, s.pkt.dts⟩] }

/-- The state change of PKT.RESET (44_packetizer.md R190): `pkt.mtu` stays, `pkt.pts` and `pkt.dts`
become unspecified (log 10). -/
def clearPkt (s : State) : State :=
  let t := dropCache s
  t.withPkt
    { t.pkt with
      buf := [], state := .unsync, extSeq := 0#16, pts := Config.freePts s.freeCount,
      dts := Config.freeDts s.freeCount }

/-! ### DPK -/

/-- `AppendData(data)` (45_depacketizer.md R208); the count wraps at 32 bits. -/
def appendData (data : List Byte) (s : State) : State :=
  s.withDpk { s.dpk with acc := s.dpk.acc ++ data, accBytes := s.dpk.accBytes + u32 data.length }

/-- `Abort()` (45_depacketizer.md R210). -/
def abort (s : State) : State :=
  s.withDpk { s.dpk with acc := [], accBytes := 0#32, inPicture := false }

/-- `Discontinuity(cause)` (45_depacketizer.md R215): the state first, then the event. -/
def discontinuity (cause : Gap) (s : State) : State :=
  raiseDpk (.discontinuity cause)
    (s.withDpk
      { s.dpk with acc := [], accBytes := 0#32, waiting := true, inPicture := false, lastOff := 0#32 })

/-- The start of a picture (45_depacketizer.md R207): accumulator cleared, flags and number set. -/
def startPicture (pn : Word) (s : State) : State :=
  s.withDpk { s.dpk with acc := [], accBytes := 0#32, inPicture := true, curPn := pn, waiting := false }

/-- `EmitPicture()` (45_depacketizer.md R213): answers the picture unit, threads the offset chain and
closes the picture. -/
def emitPicture (s : State) : State :=
  let npo := s.dpk.accBytes + u32 Config.picHdrLen
  (s.withDpk { s.dpk with lastOff := npo, acc := [], accBytes := 0#32, inPicture := false }).reply
    (.parseUnit (some (parseInfo 0xE8#8 npo s.dpk.lastOff ++ put32 s.dpk.curPn ++ s.dpk.acc)))

/-- A fragment that yields no unit (45_depacketizer.md R214). -/
def noUnit (s : State) : State := s.reply (.parseUnit none)

/-- Drop a fragment and abort the picture (45_depacketizer.md R206, R209; 60_exceptions.md R236). -/
def mismatch (cause : Mismatch) (s : State) : State :=
  noUnit (abort (raiseDpk (.sequenceMismatch cause) s))

end Sys2Proof.Machine
end

