-- ==== Sys2Proof/Machine/Depacketizer.lean ====
section
/-! DEFINITION. Unit DPK: the RTP depacketizer (45_depacketizer.md). -/

namespace Sys2Proof.Machine

/-- `FragSequenceHeader(P, L)` (45_depacketizer.md R204). -/
def fragSequenceHeader (p : List Byte) (s : State) : State :=
  let npo := u32 (p.length + Config.hdrLen)
  (s.withDpk { s.dpk with lastOff := npo, waiting := false }).reply
    (.parseUnit (some (parseInfo 0x00#8 npo s.dpk.lastOff ++ p)))

/-- `FragEndOfSequence()` (45_depacketizer.md R211). -/
def fragEndOfSequence (s : State) : State :=
  (s.withDpk { s.dpk with lastOff := 0#32, waiting := false }).reply
    (.parseUnit (some (parseInfo 0x10#8 0#32 s.dpk.lastOff)))

/-- Append a fragment's data, then emit the picture on the marker (45_depacketizer.md R207 to R209,
R213, R214). -/
def takeData (data : List Byte) (marker : Bool) (s : State) : State :=
  if marker then emitPicture (appendData data s) else noUnit (appendData data s)

/-- `FragHQ` with `slice_count = 0` (45_depacketizer.md R206, R207): `rest` is the payload from byte 12 of
`P` on. -/
def fragHqParams (hq : HqHead) (rest : List Byte) (marker : Bool) (s : State) : State :=
  if rest.length < hq.fragmentLength.toNat then mismatch .lengthExceeds s
  else takeData (rest.take hq.fragmentLength.toNat) marker (startPicture hq.pictureNumber s)

/-- `FragHQ` with `slice_count > 0` (45_depacketizer.md R206, R209): the data starts 4 bytes into `rest`,
behind `slice_x` and `slice_y`, which are not read (R202). -/
def fragHqSlices (hq : HqHead) (rest : List Byte) (marker : Bool) (s : State) : State :=
  if rest.length < 4 + hq.fragmentLength.toNat then mismatch .lengthExceeds s
  else if !s.dpk.inPicture then mismatch .notInPicture s
  else if hq.pictureNumber ≠ s.dpk.curPn then mismatch .pictureNumber s
  else takeData ((rest.drop 4).take hq.fragmentLength.toNat) marker s

/-- A fragment dropped for its length (45_depacketizer.md R201, R205): no state changes, no abort. -/
def shortFragment (s : State) : State := noUnit (raiseDpk (.malformedHeader .shortFragment) s)

/-- The dispatch on the tag (45_depacketizer.md R201, R203). -/
def fragOp (payload : List Byte) (marker : Bool) (s : State) : State :=
  match parseFrag payload with
  | .short => shortFragment s
  | .shortHq => shortFragment s
  | .sequenceHeader _ p => fragSequenceHeader p s
  | .endOfSequence _ _ => fragEndOfSequence s
  | .hqParams _ hq rest => fragHqParams hq rest marker s
  | .hqSlices _ hq _ rest => fragHqSlices hq rest marker s
  | .unknown _ _ _ => noUnit s

/-- DPK.FRAG (45_depacketizer.md R201): the discontinuity before anything else. -/
def execDpkFrag (payload : List Byte) (marker disc : Bool) (s : State) :
    Host.Outcome State Fault Refusal :=
  .next (fragOp payload marker (if disc then discontinuity .transportFlag s else s))

/-- DPK.RESET (45_depacketizer.md R216). -/
def execDpkReset (s : State) : Host.Outcome State Fault Refusal :=
  .next ((discontinuity .resetOp s).reply .nothing)

/-- FRAG.SEQUENCE_HEADER (45_depacketizer.md R204). -/
def execFragSequenceHeader (p : List Byte) (s : State) : Host.Outcome State Fault Refusal :=
  .next (fragSequenceHeader p s)

/-- FRAG.END_OF_SEQUENCE (45_depacketizer.md R211). -/
def execFragEndOfSequence (s : State) : Host.Outcome State Fault Refusal :=
  .next (fragEndOfSequence s)

/-- FRAG.HQ_PARAMS (45_depacketizer.md R207). -/
def execFragHqParams (hq : HqHead) (rest : List Byte) (marker : Bool) (s : State) :
    Host.Outcome State Fault Refusal :=
  .next (fragHqParams hq rest marker s)

/-- FRAG.HQ_SLICES (45_depacketizer.md R209). -/
def execFragHqSlices (hq : HqHead) (rest : List Byte) (marker : Bool) (s : State) :
    Host.Outcome State Fault Refusal :=
  .next (fragHqSlices hq rest marker s)

/-- FRAG.UNKNOWN (45_depacketizer.md R212): no output, no state change. -/
def execFragUnknown (s : State) : Host.Outcome State Fault Refusal := .next (noUnit s)

end Sys2Proof.Machine
end

