-- ==== Sys2Proof/Machine/Scanner.lean ====
section
/-! DEFINITION. Unit PUS: the parse-unit frame synchronizer (43_parse_unit_scanner.md). Offsets and their
sums are naturals that never wrap (R140). -/

namespace Sys2Proof.Machine

/-- How the link of a header to its successor comes out (43_parse_unit_scanner.md R145 to R148). -/
inductive Link where
  /-- Accepted, with the validated `next_parse_offset` (R153). -/
  | good (npo : Word)
  /-- A nonzero offset whose successor fails the cross-check. -/
  | bad
  /-- The bytes present do not decide. -/
  | more
  deriving DecidableEq, Repr

/-- The forward scan of 43_parse_unit_scanner.md R148 over the bytes `l` from position `c` on, for the unit
at `offset`: each magic is a candidate, and the first whose `prev_parse_offset` is its distance from the
unit is the successor. -/
def scanLink (offset : Nat) : Nat → List Byte → Link
  | _, [] => .more
  | c, b :: l =>
    if hasMagic (b :: l) then
      if (b :: l).length < Config.hdrLen then .more
      else if (be32 (b :: l) 9).toNat = c - offset then .good (u32 (c - offset))
      else scanLink offset (c + 1) l
    else scanLink offset (c + 1) l

/-- The link of a header at `offset` whose fields are `code` and `npo`: end of sequence at once (R145), a
nonzero offset as the only candidate (R146), a zero offset by forward scan (R148). -/
def linkOf (buf : List Byte) (size offset : Nat) (code : Byte) (npo : Word) : Link :=
  if code = 0x10#8 then .good npo
  else if npo ≠ 0#32 then
    let c := offset + npo.toNat
    if size < c + Config.hdrLen then .more
    else if hasMagic (buf.drop c) && be32 buf (c + 9) == npo then .good npo
    else .bad
  else scanLink offset (offset + Config.hdrLen) (slice buf (offset + Config.hdrLen) size)

/-- `PU.EXTRACT(buf, size, offset)` (43_parse_unit_scanner.md R141 to R148). -/
def puExtract (buf : List Byte) (size offset : Nat) : Extracted :=
  if size < offset + Config.hdrLen then .more
  else if !hasMagic (buf.drop offset) then .reject .badMagic
  else
    match linkOf buf size offset (byteAt buf (offset + 4)) (be32 buf (offset + 5)) with
    | .good npo => .found ⟨offset, byteAt buf (offset + 4), npo, be32 buf (offset + 9)⟩
    | .bad => .reject .badLink
    | .more => .more

/-- Whether an extraction found a unit. -/
def isFound : Extracted → Bool
  | .found _ => true
  | .reject _ => false
  | .more => false

/-- The search of PU.FIND over the bytes `l` from position `p` on (43_parse_unit_scanner.md R150): the
first magic whose unit is accepted. -/
def scanUnits (buf : List Byte) (size : Nat) : Nat → List Byte → Option Nat
  | _, [] => none
  | p, b :: l =>
    if hasMagic (b :: l) && isFound (puExtract buf size p) then some p
    else scanUnits buf size (p + 1) l

/-- `PU.FIND(buf, size, fromOffset)` (43_parse_unit_scanner.md R150). -/
def puFind (buf : List Byte) (size fromOffset : Nat) : Option Nat :=
  scanUnits buf size fromOffset (slice buf fromOffset size)

/-- The event of a response of PU.EXTRACT (43_parse_unit_scanner.md R141). -/
def extractEvent : Extracted → Option Event
  | .found _ => none
  | .reject cause => some (.malformedHeader cause)
  | .more => some .needMore

/-- Append an event if there is one. -/
def noteOption (e : Option Event) (s : State) : State :=
  match e with
  | some e => s.note e
  | none => s

/-- PU.EXTRACT (43_parse_unit_scanner.md R141). Refused where `size` is beyond the buffer: the spec puts
that outside itself (R140, log 17). -/
def execPuExtract (buf : List Byte) (size offset : Nat) (s : State) : Host.Outcome State Fault Refusal :=
  if size ≤ buf.length then
    .next ((noteOption (extractEvent (puExtract buf size offset)) s).reply
      (.extracted (puExtract buf size offset)))
  else .refused .sizeBeyondBuffer

/-- PU.FIND (43_parse_unit_scanner.md R150). Refused where `size` is beyond the buffer (R140, log 17). -/
def execPuFind (buf : List Byte) (size fromOffset : Nat) (s : State) :
    Host.Outcome State Fault Refusal :=
  if size ≤ buf.length then
    match puFind buf size fromOffset with
    | some p => .next (s.reply (.foundAt (some p)))
    | none => .next ((s.note .needMore).reply (.foundAt none))
  else .refused .sizeBeyondBuffer

end Sys2Proof.Machine
end

