-- ==== Sys2Proof/Machine/SliceLayout.lean ====
section
/-! DEFINITION. The byte length of an HQ slice: the parameter `SliceLen` of the configuration (30_encoding.md R69;
93_implementation_defined.md U11, D46) and the layout it takes by default (log 31). It stands here and not in
Config.lean because it speaks of a body and of transform parameters. -/

namespace Sys2Proof.Machine

/-- The parameter `SliceLen(body, o, tp)`: the length of the slice at offset `o`, `none` where the body ends
first (30_encoding.md R69). The packing rules take one as an argument. -/
abbrev SliceLength := List Byte → Nat → TransformInfo → Option Nat

/-- Past `n` components of a slice: a length byte and its scaled data each; `none` where the body ends
first (30_encoding.md R69). -/
def skipComponents (body : List Byte) (scalar : Nat) : Nat → Nat → Option Nat
  | 0, p => some p
  | n + 1, p =>
    if body.length < p + 1 then none
    else if body.length < p + 1 + (byteAt body p).toNat * scalar then none
    else skipComponents body scalar n (p + 1 + (byteAt body p).toNat * scalar)

/-- The layout of 30_encoding.md R69 (G3, log 20): the opaque bytes and the quantisation index are skipped,
then three components. -/
def sliceLen (body : List Byte) (o : Nat) (tp : TransformInfo) : Option Nat :=
  match skipComponents body tp.sliceSizeScalar.toNat 3 (o + tp.slicePrefixBytes.toNat + 1) with
  | some p => some (p - o)
  | none => none

end Sys2Proof.Machine

namespace Sys2Proof.Config

/-- `SliceLen` of the configuration at its default (93_implementation_defined.md U11; D46, log 31): the one
place to substitute another layout. -/
def sliceLen : Machine.SliceLength := Machine.sliceLen

end Sys2Proof.Config
end

