-- ==== Sys2Proof/Machine/BitReader.lean ====
section
/-! DEFINITION. Unit BR: the bit reader and the VLC decoder (40_bitreader_vlc.md). -/

namespace Sys2Proof.Machine

/-- The reader BR.INIT makes (40_bitreader_vlc.md R91). -/
def freshReader (span : List Byte) : Reader := { span := span, len := span.length, pos := 0, ovr := false }

/-- One bit (40_bitreader_vlc.md R92): past the end the sentinel 1, the flag set, the cursor unmoved. -/
def readBit (r : Reader) : Bool × Reader :=
  if r.pos < 8 * r.len then (spanBit r.span r.pos, { r with pos := r.pos + 1 })
  else (true, { r with ovr := true })

/-- The loop of BR.READUINT (40_bitreader_vlc.md R94), with `fuel` bounding its turns. -/
def readUintLoop : Nat → Word → Reader → Word × Reader
  | 0, acc, r => (acc - 1#32, r)
  | fuel + 1, acc, r =>
    match readBit r with
    | (true, r1) => (acc - 1#32, r1)
    | (false, r1) =>
      match readBit r1 with
      | (b, r2) => readUintLoop fuel ((acc <<< 1) ||| (BitVec.ofBool b).setWidth 32) r2

/-- One `VLC.UINT` (40_bitreader_vlc.md R94). A turn that goes on has consumed a bit of the span, so the
fuel never runs out (R98, log 23). -/
def readUint (r : Reader) : Word × Reader := readUintLoop (8 * r.len - r.pos + 1) 1#32 r

/-- `ceil(br.pos / 8)` (40_bitreader_vlc.md R99). -/
def bytesRead (r : Reader) : Nat := (r.pos + 7) / 8

/-- BR.INIT (40_bitreader_vlc.md R91). -/
def execBrInit (span : List Byte) (s : State) : Host.Outcome State Fault Refusal :=
  .next ((s.withBr (freshReader span)).reply .nothing)

/-- BR.READBIT (40_bitreader_vlc.md R92). -/
def execBrReadBit (s : State) : Host.Outcome State Fault Refusal :=
  .next ((s.withBr (readBit s.br).2).reply (.bit (readBit s.br).1))

/-- BR.READBOOL (40_bitreader_vlc.md R93). -/
def execBrReadBool (s : State) : Host.Outcome State Fault Refusal :=
  .next ((s.withBr (readBit s.br).2).reply (.bool (readBit s.br).1))

/-- BR.READUINT (40_bitreader_vlc.md R94). -/
def execBrReadUint (s : State) : Host.Outcome State Fault Refusal :=
  .next ((s.withBr (readUint s.br).2).reply (.uint (readUint s.br).1))

/-- BR.LENGTH (40_bitreader_vlc.md R99). -/
def execBrLength (s : State) : Host.Outcome State Fault Refusal :=
  .next (s.reply (.byteCount (bytesRead s.br)))

/-- BR.OVERRUN (40_bitreader_vlc.md R100). -/
def execBrOverrun (s : State) : Host.Outcome State Fault Refusal :=
  .next (s.reply (.bool s.br.ovr))

end Sys2Proof.Machine
end

