-- ==== Sys2Proof/Machine/SeqHeader.lean ====
section
/-! DEFINITION. Unit SHP: the sequence-header grammar and the equality rule (41_sequence_header.md). -/

namespace Sys2Proof.Machine

/-- The preset table: width, height, interlaced (41_sequence_header.md R113). The last column has no effect
on any output (R116). -/
def presetTable : List (Nat × Nat × Bool) :=
  [(640, 480, false), (176, 120, false), (176, 144, false), (352, 240, false), (352, 288, false),
   (704, 480, false), (704, 576, false), (720, 480, true), (720, 576, true), (1280, 720, false),
   (1280, 720, false), (1920, 1080, true), (1920, 1080, true), (1920, 1080, false),
   (1920, 1080, false), (2048, 1080, false), (4096, 2160, false), (3840, 2160, false),
   (3840, 2160, false), (7680, 4320, false), (7680, 4320, false), (1920, 1080, false),
   (720, 486, true)]

/-- A `VLC.UINT` read for its bits only. -/
def skipUint (r : Reader) : Reader := (readUint r).2

/-- `n` of them. -/
def skipUints : Nat → Reader → Reader
  | 0, r => r
  | n + 1, r => skipUints n (skipUint r)

/-- A block behind a boolean flag (41_sequence_header.md R112). -/
def ifFlag (block : Reader → Reader) (r : Reader) : Reader :=
  match readBit r with
  | (true, r1) => block r1
  | (false, r1) => r1

/-- An index whose value 0 selects the explicit sub-variant (41_sequence_header.md R115). -/
def ifIndexZero (block : Reader → Reader) (r : Reader) : Reader :=
  match readUint r with
  | (index, r1) => if index = 0#32 then block r1 else r1

/-- Blocks 2 to 8, consumed for their bits only (41_sequence_header.md R112, R115). -/
def skipOverrides (r : Reader) : Reader :=
  let r := ifFlag (skipUints 1) r
  let r := ifFlag (skipUints 1) r
  let r := ifFlag (ifIndexZero (skipUints 2)) r
  let r := ifFlag (ifIndexZero (skipUints 2)) r
  let r := ifFlag (skipUints 4) r
  let r := ifFlag (ifIndexZero (skipUints 4)) r
  ifFlag (ifIndexZero fun r =>
    ifFlag (skipUints 1) (ifFlag (skipUints 1) (ifFlag (skipUints 1) r))) r

/-- Width and height of a base video format; (0, 0) beyond the table, where the parse fails
(41_sequence_header.md R112, R118). -/
def presetSize (format : Word) : Word × Word :=
  match presetTable[format.toNat]? with
  | some (w, h, _) => (u32 w, u32 h)
  | none => (0#32, 0#32)

/-- Block 1: custom dimensions replace the preset's (41_sequence_header.md R114). -/
def frameSize (size : Word × Word) (r : Reader) : (Word × Word) × Reader :=
  match readBit r with
  | (true, r1) =>
    match readUint r1 with
    | (w, r2) =>
      match readUint r2 with
      | (h, r3) => ((w, h), r3)
  | (false, r1) => (size, r1)

/-- What the grammar of 41_sequence_header.md R112 reads. -/
structure SeqFields where
  majorVersion : Word
  profile : Word
  baseVideoFormat : Word
  size : Word × Word
  pictureCodingMode : Word
  reader : Reader
  deriving DecidableEq, Repr

/-- The grammar, run to its end over a private reader (41_sequence_header.md R111, R112). -/
def seqGrammar (data : List Byte) : SeqFields :=
  match readUint (freshReader data) with
  | (major, r1) =>
    match readUint (skipUint r1) with
    | (profile, r2) =>
      match readUint (skipUint r2) with
      | (format, r3) =>
        match frameSize (presetSize format) r3 with
        | (size, r4) =>
          match readUint (skipOverrides r4) with
          | (mode, r5) => ⟨major, profile, format, size, mode, r5⟩

/-- The checks in their order, then the record: the height is halved, rounding down, when the picture
coding mode is not 0 (41_sequence_header.md R116 to R118). -/
def seqChecks (f : SeqFields) : Except Malformed SeqInfo :=
  if f.reader.ovr then .error .vlcOverrun
  else if f.majorVersion ≠ 2#32 then .error .badVersion
  else if f.profile ≠ 3#32 then .error .badProfile
  else if Config.nPreset ≤ f.baseVideoFormat.toNat then .error .badBaseFormat
  else if f.pictureCodingMode ≠ 0#32 then .ok ⟨f.size.1, f.size.2 / 2#32, true⟩
  else .ok ⟨f.size.1, f.size.2, false⟩

/-- `SH.PARSE(data)` with the cause where the response is `none` (41_sequence_header.md R111). -/
def shParse (data : List Byte) : Except Malformed SeqInfo := seqChecks (seqGrammar data)

/-- `SH.EQUAL(a, b)`: the bytes of the common length (41_sequence_header.md R120). -/
def shEqual (a b : List Byte) : Bool :=
  let n := min a.length b.length
  a.take n == b.take n

/-- SH.PARSE (41_sequence_header.md R111): the event of a `none` goes to the diagnostic output. -/
def execShParse (data : List Byte) (s : State) : Host.Outcome State Fault Refusal :=
  match shParse data with
  | .ok i => .next (s.reply (.seqInfo (some i)))
  | .error cause => .next ((s.note (.malformedHeader cause)).reply (.seqInfo none))

/-- SH.EQUAL (41_sequence_header.md R120). -/
def execShEqual (a b : List Byte) (s : State) : Host.Outcome State Fault Refusal :=
  .next (s.reply (.bool (shEqual a b)))

end Sys2Proof.Machine
end

