-- ==== Sys2Proof/Machine/Transform.lean ====
section
/-! DEFINITION. Unit TPP: the HQ transform-parameters grammar (42_transform_parameters.md). -/

namespace Sys2Proof.Machine

/-- `n` discarded `VLC.UINT`s, given up once the span has run out (42_transform_parameters.md R134, log 22):
from then on the result is `none` whatever is read. -/
def skipUntilOverrun : Nat → Reader → Reader
  | 0, r => r
  | n + 1, r => if r.ovr then r else skipUntilOverrun n (skipUint r)

/-- The uints of the custom quantisation matrix: one, then three for each group
(42_transform_parameters.md R131, R132). The count saturates at 0. -/
def matrixUints (qmSub : Nat) (dwtDepth : Word) : Nat := 1 + 3 * (dwtDepth.toNat - qmSub)

/-- The optional custom quantisation matrix (42_transform_parameters.md R131). -/
def skipMatrix (qmSub : Nat) (dwtDepth : Word) (r : Reader) : Reader :=
  ifFlag (skipUntilOverrun (matrixUints qmSub dwtDepth)) r

/-- The grammar and the reader it leaves (42_transform_parameters.md R131), for a given `QM_SUB`. -/
def tpGrammar (qmSub : Nat) (data : List Byte) : TransformInfo × Reader :=
  match readUint (freshReader data) with
  | (wavelet, r1) =>
    match readUint r1 with
    | (depth, r2) =>
      match readUint r2 with
      | (x, r3) =>
        match readUint r3 with
        | (y, r4) =>
          match readUint r4 with
          | (pre, r5) =>
            match readUint r5 with
            | (scalar, r6) =>
              let r7 := skipMatrix qmSub depth r6
              (⟨wavelet, depth, x, y, pre, scalar, bytesRead r7⟩, r7)

/-- `TP.PARSE(data)`: `none` exactly when the private reader overran (42_transform_parameters.md R130). -/
def tpParse (qmSub : Nat) (data : List Byte) : Option TransformInfo :=
  if (tpGrammar qmSub data).2.ovr then none else some (tpGrammar qmSub data).1

/-- TP.PARSE (42_transform_parameters.md R130). -/
def execTpParse (data : List Byte) (s : State) : Host.Outcome State Fault Refusal :=
  match tpParse Config.qmSub data with
  | some i => .next (s.reply (.transformInfo (some i)))
  | none => .next ((s.note (.malformedHeader .vlcOverrun)).reply (.transformInfo none))

end Sys2Proof.Machine
end

