-- ==== Sys2Proof/Machine/Packetizer.lean ====
section
/-! DEFINITION. Unit PKT: the RTP slice-boundary packetizer (44_packetizer.md). The buffer head plays the
program counter: `turn` extracts the unit there and runs it. -/

namespace Sys2Proof.Machine

/-- How a turn of PKT.PUSH's loop ends (44_packetizer.md R170): `wait` is the rules' `return false`. -/
inductive Turn where
  | wait (s : State)
  | more (s : State)
  deriving DecidableEq, Repr

/-- The state a turn leaves. -/
def turnState : Turn → State
  | .wait s => s
  | .more s => s

/-! ### Slices (30_encoding.md R69; 44_packetizer.md R180, R183) -/

/-- Start and length of each of `n` slices from `o` on, as `measure` gives them, or the first failure
(44_packetizer.md R180, check 5). -/
def sliceWalk (measure : SliceLength) (body : List Byte) (tp : TransformInfo) (mtu : Nat) :
    Nat → Nat → Except Malformed (List (Nat × Nat))
  | 0, _ => .ok []
  | n + 1, o =>
    match measure body o tp with
    | none => .error .sliceBounds
    | some len =>
      if mtu < len + Config.fragOverhead then .error .mtuTooSmall
      else
        match sliceWalk measure body tp mtu n (o + len) with
        | .ok l => .ok ((o, len) :: l)
        | .error cause => .error cause

/-- Checks 2 to 5 of `Validate(body, tp)`, in order, for a given `SliceLen` (44_packetizer.md R180; D24). -/
def validate (measure : SliceLength) (body : List Byte) (tp : TransformInfo) (mtu : Nat) :
    Except Malformed (List (Nat × Nat)) :=
  if 0xFFFF < tp.slicePrefixBytes.toNat ∨ 0xFFFF < tp.sliceSizeScalar.toNat ∨
      0xFFFF < tp.slicesX.toNat ∨ 0xFFFF < tp.slicesY.toNat then .error .fieldRange
  else if tp.slicesX = 0#32 ∨ tp.slicesY = 0#32 then .error .noSlices
  else if mtu < tp.codedSize + 12 then .error .mtuTooSmall
  else sliceWalk measure body tp mtu (tp.slicesX.toNat * tp.slicesY.toNat) tp.codedSize

/-- `InterlaceByte(pn)` (44_packetizer.md R181; D26, log 20). -/
def interlaceByte (pn : Word) (p : Pkt) : Byte :=
  if cachedInterlaced p then 0x02#8 ||| (pn.setWidth 8 &&& 1#8) else 0x00#8

/-- The packing registers of one picture (10_state.md R19): the open fragment, and the coordinates of the
next slice. -/
structure Packing where
  bytes : Nat
  count : Nat
  x : Nat
  y : Nat
  start : Nat
  sx : Nat
  sy : Nat
  deriving DecidableEq, Repr

/-- Before the first slice (44_packetizer.md R183). -/
def Packing.empty : Packing := ⟨0, 0, 0, 0, 0, 0, 0⟩

/-- Whether the next slice overflows the open fragment (44_packetizer.md R183). -/
def overflows (mtu n : Nat) (k : Packing) : Bool :=
  decide (0 < k.count) && decide (mtu < k.bytes + n + Config.fragOverhead)

/-- A closed fragment's bytes and count given back. -/
def reopen (k : Packing) : Packing := { k with bytes := 0, count := 0 }

/-- Put a slice into the open fragment; the first one gives the fragment its coordinates, and `slice_x`
wraps to the next row at `slices_x` (44_packetizer.md R183). -/
def addSlice (slicesX start n : Nat) (k : Packing) : Packing :=
  let k := if k.count = 0 then { k with x := k.sx, y := k.sy, start := start } else k
  let k := { k with bytes := k.bytes + n, count := k.count + 1, sx := k.sx + 1 }
  if k.sx = slicesX then { k with sx := 0, sy := k.sy + 1 } else k

/-- The greedy packing: the fragments in the order they are closed, the last one still open
(44_packetizer.md R183). -/
def packGroups (mtu slicesX : Nat) : List (Nat × Nat) → Packing → List Packing
  | [], k => [k]
  | (start, n) :: l, k =>
    if overflows mtu n k then k :: packGroups mtu slicesX l (addSlice slicesX start n (reopen k))
    else packGroups mtu slicesX l (addSlice slicesX start n k)

/-- What the fragments of one picture share. -/
structure Picture where
  pn : Word
  tp : TransformInfo
  il : Byte
  body : List Byte
  deriving DecidableEq, Repr

/-- `HQ_FRAG_HDR` fields of a picture's fragment with `n` data bytes (30_encoding.md R73; 30_encoding.md
R76 (c): the two decoded values were checked to fit). -/
def pictureHead (g : Picture) (n : Nat) : HqHead :=
  ⟨g.pn, g.tp.slicePrefixBytes.setWidth 16, g.tp.sliceSizeScalar.setWidth 16, u16 n⟩

/-- `EmitParams(pn, tp, il, body)` (44_packetizer.md R182). -/
def emitParams (g : Picture) (s : State) : State :=
  emit g.il 0xEC#8 (hqHeader (pictureHead g g.tp.codedSize) 0#16 ++ slice g.body 0 g.tp.codedSize) false s

/-- `EmitSlices(marker)` (44_packetizer.md R183; 30_encoding.md R74). -/
def emitSlices (g : Picture) (k : Packing) (marker : Bool) (s : State) : State :=
  emit g.il 0xEC#8
    (hqHeader (pictureHead g k.bytes) (u16 k.count) ++ put16 (u16 k.x) ++ put16 (u16 k.y) ++
      slice g.body k.start (k.start + k.bytes))
    marker s

/-- Emit the fragments in order, the marker on the last and only there (44_packetizer.md R183, R185). -/
def emitGroups (g : Picture) : List Packing → State → State
  | [], s => s
  | k :: l, s => emitGroups g l (emitSlices g k l.isEmpty s)

/-- `PackSlices(pn, tp, il, body, list)` (44_packetizer.md R183). -/
def packSlices (g : Picture) (list : List (Nat × Nat)) (s : State) : State :=
  emitGroups g (packGroups s.pkt.mtu.toNat g.tp.slicesX.toNat list Packing.empty) s

/-! ### Unit operations: `n` is the validated `next_parse_offset` (44_packetizer.md R175) -/

/-- The `n` bytes at the buffer head. -/
def headUnit (n : Nat) (s : State) : List Byte := slice s.pkt.buf 0 n

/-- What a sequence-header unit does with its raw bytes (44_packetizer.md R176 to R178). -/
def sequenceHeaderBody (raw : List Byte) (s : State) : State :=
  match shParse raw with
  | .error cause => raisePkt (.malformedHeader cause) s
  | .ok i =>
    let t := if !s.pkt.cacheValid || !shEqual s.pkt.cache raw then replaceCache raw i s else s
    emit 0x00#8 0x00#8 t.pkt.cache false t

/-- `UnitSequenceHeader(npo)` (44_packetizer.md R176). -/
def unitSequenceHeader (n : Nat) (s : State) : State :=
  if n < Config.hdrLen then raisePkt (.malformedHeader .shortUnit) (consume n s)
  else sequenceHeaderBody ((headUnit n s).drop Config.hdrLen) (consume n s)

/-- What an HQ-picture unit does with its picture number and body (44_packetizer.md R179). -/
def hqPictureBody (pn : Word) (body : List Byte) (s : State) : State :=
  match tpParse Config.qmSub body with
  | none => raisePkt (.malformedHeader .vlcOverrun) s
  | some tp =>
    match validate Config.sliceLen body tp s.pkt.mtu.toNat with
    | .error cause => raisePkt (.malformedHeader cause) s
    | .ok list =>
      let g : Picture := ⟨pn, tp, interlaceByte pn s.pkt, body⟩
      packSlices g list (emitParams g s)

/-- `UnitHQPicture(npo)` (44_packetizer.md R179). -/
def unitHqPicture (n : Nat) (s : State) : State :=
  if n < Config.picHdrLen then raisePkt (.malformedHeader .shortUnit) (consume n s)
  else hqPictureBody (be32 (headUnit n s) 13) ((headUnit n s).drop Config.picHdrLen) (consume n s)

/-- `UnitEndOfSequence()` (44_packetizer.md R186): 13 bytes, whatever `next_parse_offset` says. -/
def unitEndOfSequence (s : State) : State :=
  emit 0x00#8 0x10#8 [] false (dropCache (setSync .unsync (consume Config.hdrLen s)))

/-- `UnitSkip(npo)` (44_packetizer.md R187, R188); a unit shorter than its header raises SHORT_UNIT
(R175, log 14). -/
def unitSkip (n : Nat) (s : State) : State :=
  if n < Config.hdrLen then raisePkt (.malformedHeader .shortUnit) (consume n s) else consume n s

/-- The unit operation of a kind (44_packetizer.md R172). -/
def unitOp (kind : UnitKind) (n : Nat) (s : State) : State :=
  match kind with
  | .sequenceHeader => unitSequenceHeader n s
  | .endOfSequence => unitEndOfSequence s
  | .auxiliary => unitSkip n s
  | .padding => unitSkip n s
  | .hqPicture => unitHqPicture n s
  | .unknown => unitSkip n s

/-! ### The loop (44_packetizer.md R170 to R173) -/

/-- A head unit definitively rejected (44_packetizer.md R173; D20). -/
def rejectHead (policy : RejectPolicy) (cause : Malformed) (s : State) : Turn :=
  match policy with
  | .stall => .wait (raisePkt (.malformedHeader cause) s)
  | .resync => .more (setSync .unsync (consume 1 (raisePkt (.malformedHeader cause) s)))

/-- `StepUnit()` once the header at the buffer head has been decoded (44_packetizer.md R172): resolve its
link, then run its unit operation. With fewer than 13 bytes buffered it waits (43_parse_unit_scanner.md
R142). -/
def stepDecoded (policy : RejectPolicy) (code : Byte) (npo : Word) (s : State) : Turn :=
  if s.pkt.buf.length < Config.hdrLen then .wait (raisePkt .needMore s)
  else
    match linkOf s.pkt.buf s.pkt.buf.length 0 code npo with
    | .more => .wait (raisePkt .needMore s)
    | .bad => rejectHead policy .badLink s
    | .good n => .more (unitOp (unitKind code) n.toNat s)

/-- `StepUnit()` (44_packetizer.md R172). -/
def stepUnit (policy : RejectPolicy) (s : State) : Turn :=
  match puExtract s.pkt.buf s.pkt.buf.length 0 with
  | .more => .wait (raisePkt .needMore s)
  | .reject cause => rejectHead policy cause s
  | .found u => .more (unitOp (unitKind u.parseCode) u.nextParseOffset.toNat s)

/-- `Acquire()` (44_packetizer.md R171). -/
def acquire (s : State) : Turn :=
  match puFind s.pkt.buf s.pkt.buf.length 0 with
  | none => .wait (raisePkt .needMore s)
  | some p => .more (setSync .sync (consume p s))

/-- One turn of the loop of PKT.PUSH (44_packetizer.md R170). -/
def turn (policy : RejectPolicy) (s : State) : Turn :=
  match s.pkt.state with
  | .unsync => acquire s
  | .sync => if s.pkt.buf.length < Config.hdrLen then .wait s else stepUnit policy s

/-- Turns until one waits, with `fuel` bounding them (44_packetizer.md R170, log 23). -/
def runTurns (policy : RejectPolicy) : Nat → State → State
  | 0, s => s
  | fuel + 1, s =>
    match turn policy s with
    | .wait t => t
    | .more t => runTurns policy fuel t

/-- Turns enough for the bytes buffered: an acquisition is followed by a unit, and a unit consumes at least
one byte (44_packetizer.md R170; 46_arithmetic_and_control.md R293, log 23). -/
def turnFuel (s : State) : Nat := 2 * s.pkt.buf.length + 2

/-- `PKT.PUSH(data, pts, dts)` under a policy (44_packetizer.md R170). -/
def pktPush (policy : RejectPolicy) (data : List Byte) (pts dts : Nat) (s : State) : State :=
  let s1 := appendBuf data pts dts s
  let s2 := runTurns policy (turnFuel s1) s1
  s2.reply (.fragments (s2.tx.drop s.tx.length))

/-! ### The meanings -/

/-- PKT.PUSH (44_packetizer.md R170); the response is what the call emitted. -/
def execPktPush (data : List Byte) (pts dts : Nat) (s : State) : Host.Outcome State Fault Refusal :=
  .next (pktPush Config.encRejectPolicy data pts dts s)

/-- PKT.RESET (44_packetizer.md R190): the event comes after the registers are cleared. -/
def execPktReset (s : State) : Host.Outcome State Fault Refusal :=
  .next ((raisePkt (.discontinuity .resetOp) (clearPkt s)).reply .nothing)

/-- PKT.SETMTU (44_packetizer.md R191): a value below 16 changes nothing. -/
def execPktSetMtu (m : Half) (s : State) : Host.Outcome State Fault Refusal :=
  if Config.mtuMin ≤ m.toNat then .next ((s.withPkt { s.pkt with mtu := m }).reply .nothing)
  else .next (s.reply .nothing)

/-- UNIT.SEQUENCE_HEADER (44_packetizer.md R176). -/
def execUnitSequenceHeader (npo : Word) (s : State) : Host.Outcome State Fault Refusal :=
  .next (turnState (stepDecoded Config.encRejectPolicy 0x00#8 npo s))

/-- UNIT.END_OF_SEQUENCE (44_packetizer.md R186). -/
def execUnitEndOfSequence (npo : Word) (s : State) : Host.Outcome State Fault Refusal :=
  .next (turnState (stepDecoded Config.encRejectPolicy 0x10#8 npo s))

/-- UNIT.AUXILIARY (44_packetizer.md R187). -/
def execUnitAuxiliary (npo : Word) (s : State) : Host.Outcome State Fault Refusal :=
  .next (turnState (stepDecoded Config.encRejectPolicy 0x20#8 npo s))

/-- UNIT.PADDING (44_packetizer.md R187). -/
def execUnitPadding (npo : Word) (s : State) : Host.Outcome State Fault Refusal :=
  .next (turnState (stepDecoded Config.encRejectPolicy 0x30#8 npo s))

/-- UNIT.HQ_PICTURE (44_packetizer.md R179). -/
def execUnitHqPicture (npo : Word) (s : State) : Host.Outcome State Fault Refusal :=
  .next (turnState (stepDecoded Config.encRejectPolicy 0xE8#8 npo s))

/-- UNIT.UNKNOWN (44_packetizer.md R188). -/
def execUnitUnknown (code : Byte) (npo : Word) (s : State) : Host.Outcome State Fault Refusal :=
  .next (turnState (stepDecoded Config.encRejectPolicy code npo s))

end Sys2Proof.Machine
end

