-- ==== Sys2Proof/Machine/Vlc.lean ====
section
/-! DEFINITION. The two VLC codes as instructions of the span (30_encoding.md R61, R62; log 16). -/

namespace Sys2Proof.Machine

/-- The reader after a code of `n` bits: the cursor stops at the end of the span, and a code that does not
fit sets the flag (40_bitreader_vlc.md R92, R96, R98). -/
def afterCode (n : Nat) (r : Reader) : Reader :=
  if r.pos + n ≤ 8 * r.len then { r with pos := r.pos + n }
  else { r with pos := max r.pos (8 * r.len), ovr := true }

/-- The value of the data bits, most significant first, behind an implied leading 1, in a 32-bit
accumulator (30_encoding.md R62; 40_bitreader_vlc.md R97). -/
def codeAcc (x : List Bool) : Word :=
  x.foldl (fun acc b => (acc <<< 1) ||| (BitVec.ofBool b).setWidth 32) 1#32

/-- VLC.BOOL: one bit, `1` true and `0` false (30_encoding.md R61). -/
def execVlcBool (b : Bool) (s : State) : Host.Outcome State Fault Refusal :=
  .next ((s.withBr (afterCode 1 s.br)).reply (.bool b))

/-- VLC.UINT: `2k + 1` bits, value `2^k + x - 1` (30_encoding.md R62). -/
def execVlcUint (x : List Bool) (s : State) : Host.Outcome State Fault Refusal :=
  .next ((s.withBr (afterCode (2 * x.length + 1) s.br)).reply (.uint (codeAcc x - 1#32)))

end Sys2Proof.Machine
end

