-- ==== Sys2Proof/Machine/Dispatch.lean ====
section
/-! DEFINITION. One arm per instruction. -/

namespace Sys2Proof.Machine

def exec (i : Instr) (s : State) : Host.Outcome State Fault Refusal :=
  match i with
  | .brInit span => Sys2Proof.Machine.execBrInit span s
  | .brReadBit => Sys2Proof.Machine.execBrReadBit s
  | .brReadBool => Sys2Proof.Machine.execBrReadBool s
  | .brReadUint => Sys2Proof.Machine.execBrReadUint s
  | .brLength => Sys2Proof.Machine.execBrLength s
  | .brOverrun => Sys2Proof.Machine.execBrOverrun s
  | .shParse data => Sys2Proof.Machine.execShParse data s
  | .shEqual a b => Sys2Proof.Machine.execShEqual a b s
  | .tpParse data => Sys2Proof.Machine.execTpParse data s
  | .puExtract buf size offset => Sys2Proof.Machine.execPuExtract buf size offset s
  | .puFind buf size fromOffset => Sys2Proof.Machine.execPuFind buf size fromOffset s
  | .pktPush data pts dts => Sys2Proof.Machine.execPktPush data pts dts s
  | .pktReset => Sys2Proof.Machine.execPktReset s
  | .pktSetMtu m => Sys2Proof.Machine.execPktSetMtu m s
  | .dpkFrag payload marker disc => Sys2Proof.Machine.execDpkFrag payload marker disc s
  | .dpkReset => Sys2Proof.Machine.execDpkReset s
  | .unitSequenceHeader npo _ => Sys2Proof.Machine.execUnitSequenceHeader npo s
  | .unitEndOfSequence npo _ => Sys2Proof.Machine.execUnitEndOfSequence npo s
  | .unitAuxiliary npo _ => Sys2Proof.Machine.execUnitAuxiliary npo s
  | .unitPadding npo _ => Sys2Proof.Machine.execUnitPadding npo s
  | .unitHqPicture npo _ => Sys2Proof.Machine.execUnitHqPicture npo s
  | .unitUnknown code npo _ => Sys2Proof.Machine.execUnitUnknown code npo s
  | .fragSequenceHeader _ p => Sys2Proof.Machine.execFragSequenceHeader p s
  | .fragEndOfSequence _ _ => Sys2Proof.Machine.execFragEndOfSequence s
  | .fragHqParams _ hq rest marker => Sys2Proof.Machine.execFragHqParams hq rest marker s
  | .fragHqSlices _ hq _ rest marker => Sys2Proof.Machine.execFragHqSlices hq rest marker s
  | .fragUnknown _ _ _ => Sys2Proof.Machine.execFragUnknown s
  | .vlcBool b => Sys2Proof.Machine.execVlcBool b s
  | .vlcUint x => Sys2Proof.Machine.execVlcUint x s

end Sys2Proof.Machine
end

