-- ==== Sys2Proof/Machine/Issue.lean ====
section
/-! DEFINITION. How a request's words are fetched, what happens where they decode to no instruction, and
where an instruction is put so that the next step fetches it (log 2, log 3, log 5). -/

namespace Sys2Proof.Machine

/-- The words of a request: a command's are its own, a unit's are the 13 bytes at the buffer head, a code's
are the bits at the reader's cursor. A unit request while UNSYNC has none: the loop acquires first
(44_packetizer.md R170). -/
def fetch (q : Request) (s : State) : Option Words :=
  match q with
  | .command code ops => some (.command code ops)
  | .unit =>
    match s.pkt.state with
    | .unsync => none
    | .sync => some (.unit (s.pkt.buf.take Config.hdrLen))
  | .fragment payload marker => some (.fragment payload marker)
  | .boolCode => some (.boolCode (bitsLeft s.br))
  | .uintCode => some (.uintCode (bitsLeft s.br))

/-- What the block does with words that decode to no instruction: an unknown command is ignored
(30_encoding.md R77, log 24), PKT waits for a header or rejects a bad magic (44_packetizer.md R170,
R173), DPK drops a short fragment (45_depacketizer.md R201, R205). -/
def undecoded (r : Reject) (s : State) : State :=
  match r with
  | .unknownCommand => s
  | .shortHeader => s
  | .badMagic => turnState (rejectHead Config.encRejectPolicy .badMagic s)
  | .shortPayload => shortFragment s
  | .shortHqFragment => shortFragment s

/-- A header that validates a unit of 13 bytes before it (43_parse_unit_scanner.md R148): an
end-of-sequence header with `prev_parse_offset` 13. -/
def successorHeader : List Byte := parseInfo 0x10#8 0#32 13#32

/-- Put words where the next step fetches its instruction (log 5). A unit goes to the head of the buffer of
a packetizer in SYNC, before a successor's header unless it is an end of sequence, which needs none. A
code is where the reader's cursor is, so only its request is put. -/
def place (w : Words) (s : State) : State :=
  match w with
  | .command code ops => { s with inbox := .command code ops :: s.inbox }
  | .unit bytes =>
    { s with
      inbox := .unit :: s.inbox
      pkt :=
        { s.pkt with
          state := .sync
          buf := bytes ++ (if byteAt bytes 4 = 0x10#8 then [] else successorHeader) ++ s.pkt.buf } }
  | .fragment payload marker => { s with inbox := .fragment payload marker :: s.inbox }
  | .boolCode _ => { s with inbox := .boolCode :: s.inbox }
  | .uintCode _ => { s with inbox := .uintCode :: s.inbox }

end Sys2Proof.Machine
end

