-- ==== Sys2Proof/Machine/Step.lean ====
section
/-! DEFINITION. One step: take the oldest request, fetch its words, decode them, run the instruction. With
no request the block idles (60_exceptions.md R250, log 2). -/

namespace Sys2Proof.Machine

/-- One step. -/
def step (s : State) : Host.Outcome State Fault Refusal :=
  match s.inbox with
  | [] => .next s
  | q :: rest =>
    match fetch q (s.accept rest) with
    | none => .next (turnState (acquire (s.accept rest)))
    | some w =>
      match decode w with
      | .ok i => exec i (s.accept rest)
      | .rejected r => .next (undecoded r (s.accept rest))

/-- The state with a table row's instruction put where `step` fetches its next one (log 4, log 5). -/
def State.withFetchWord (s : State) (nbits w : Nat) : State := place (tableWords nbits w) s

end Sys2Proof.Machine
end

