-- ==== Sys2Proof/Safety.lean ====
section
/-! DEFINITION. What holds of every state the block can be in between two requests, in the terms the
statements use. -/

namespace Sys2Proof.Machine

/-- The reader's cursor lies in its span, and `br.len` is the span's length (10_state.md R11). -/
abbrev Reader.ok (r : Reader) : Prop := r.len = r.span.length ∧ r.pos ≤ 8 * r.len

/-- The cache is empty exactly while it is invalid, and its decoded fields are those of its raw bytes
(10_state.md R17; 44_packetizer.md R176, R178); the packing budget is in its legal range (10_state.md
R23). -/
abbrev Pkt.ok (p : Pkt) : Prop :=
  (p.cacheValid = false → p.cache = []) ∧
  (p.cacheValid = true → shParse p.cache = .ok ⟨p.cacheW, p.cacheH, p.cacheIl⟩) ∧
  Config.mtuMin ≤ p.mtu.toNat

/-- `dpk.acc_bytes` counts the accumulator modulo 2^32, and outside a picture both are empty (10_state.md
R20, R21). -/
abbrev Dpk.ok (d : Dpk) : Prop :=
  d.accBytes = u32 d.acc.length ∧ (d.inPicture = false → d.acc = [])

/-- The invariant of the block. -/
abbrev State.ok (s : State) : Prop := s.br.ok ∧ s.pkt.ok ∧ s.dpk.ok

/-! ### The units (00_scope.md R3, R6) -/

/-- The owner of the state that an instruction may write. SHP, TPP and PUS hold none (10_state.md R16). -/
inductive Owner where
  | br
  | stateless
  | pkt
  | dpk
  deriving DecidableEq, Repr

/-- The owner of each instruction. -/
def ownerOf : Instr → Owner
  | .brInit _ => .br
  | .brReadBit => .br
  | .brReadBool => .br
  | .brReadUint => .br
  | .brLength => .br
  | .brOverrun => .br
  | .shParse _ => .stateless
  | .shEqual _ _ => .stateless
  | .tpParse _ => .stateless
  | .puExtract _ _ _ => .stateless
  | .puFind _ _ _ => .stateless
  | .pktPush _ _ _ => .pkt
  | .pktReset => .pkt
  | .pktSetMtu _ => .pkt
  | .dpkFrag _ _ _ => .dpk
  | .dpkReset => .dpk
  | .unitSequenceHeader _ _ => .pkt
  | .unitEndOfSequence _ _ => .pkt
  | .unitAuxiliary _ _ => .pkt
  | .unitPadding _ _ => .pkt
  | .unitHqPicture _ _ => .pkt
  | .unitUnknown _ _ _ => .pkt
  | .fragSequenceHeader _ _ => .dpk
  | .fragEndOfSequence _ _ => .dpk
  | .fragHqParams _ _ _ _ => .dpk
  | .fragHqSlices _ _ _ _ _ => .dpk
  | .fragUnknown _ _ _ => .dpk
  | .vlcBool _ => .br
  | .vlcUint _ => .br

/-- The word an event register holds after the events `e`, from what it held before (60_exceptions.md
R233). -/
def lastEvent (before : Half) (e : List Event) : Half := (e.getLast?.map eventWord).getD before

/-! ### Bit strings (30_encoding.md R62, R63, R81) -/

/-- The number a bit string writes, most significant bit first. -/
def bitsNat (x : List Bool) : Nat := x.foldl (fun n b => 2 * n + b.toNat) 0

/-- The pairs of a `VLC.UINT` code without its terminator: a 0 before each data bit. -/
def codePairs (x : List Bool) : List Bool := x.flatMap fun b => [false, b]

/-- `v + 1` in binary below its leading 1. -/
def dataBits (v : Nat) : List Bool :=
  (List.range (Nat.log2 (v + 1))).reverse.map fun i => (v + 1).testBit i

/-- `ue(v)`: the encoder of 30_encoding.md R63. -/
def ue (v : Nat) : List Bool := codePairs (dataBits v) ++ [true]

/-- `ue` of each value in turn. -/
def ues (l : List Nat) : List Bool := l.flatMap ue

/-- An optional block behind its flag: `b(0)`, or `b(1)` and the block. -/
def flagged : Option (List Bool) → List Bool
  | none => [false]
  | some block => true :: block

/-- A value a 32-bit accumulator decodes without wrap (40_bitreader_vlc.md R95). -/
abbrev codable (v : Nat) : Prop := v ≤ 0xFFFFFFFE

/-! ### Sequence headers as texts of the grammar (41_sequence_header.md R112 to R118) -/

/-- A text of the grammar. An index comes with the uints it brings, an index of 0 of block 8 with its three
flagged values. -/
structure HeaderText where
  major : Nat
  minor : Nat
  profile : Nat
  level : Nat
  base : Nat
  dims : Option (Nat × Nat)
  colourFormat : Option Nat
  scanFormat : Option Nat
  frameRate : Option (Nat × List Nat)
  aspect : Option (Nat × List Nat)
  cleanArea : Option (List Nat)
  signalRange : Option (Nat × List Nat)
  colourSpec : Option (Nat × List (Option Nat))
  mode : Nat
  deriving DecidableEq, Repr

/-- An index block: the index, then `n` values if it is 0 and none otherwise (R115). -/
abbrev indexOk (n : Nat) (b : Nat × List Nat) : Prop :=
  codable b.1 ∧ b.2.length = (if b.1 = 0 then n else 0) ∧ ∀ v ∈ b.2, codable v

/-- The shapes of R112 and R115, every value codable. -/
abbrev HeaderText.ok (h : HeaderText) : Prop :=
  codable h.major ∧ codable h.minor ∧ codable h.profile ∧ codable h.level ∧ codable h.base ∧
  (∀ d ∈ h.dims, codable d.1 ∧ codable d.2) ∧ (∀ v ∈ h.colourFormat, codable v) ∧
  (∀ v ∈ h.scanFormat, codable v) ∧ (∀ b ∈ h.frameRate, indexOk 2 b) ∧ (∀ b ∈ h.aspect, indexOk 2 b) ∧
  (∀ l ∈ h.cleanArea, l.length = 4 ∧ ∀ v ∈ l, codable v) ∧ (∀ b ∈ h.signalRange, indexOk 4 b) ∧
  (∀ b ∈ h.colourSpec, codable b.1 ∧ b.2.length = (if b.1 = 0 then 3 else 0) ∧
    ∀ o ∈ b.2, ∀ v ∈ o, codable v) ∧ codable h.mode

/-- The bits of a text (R112). -/
def HeaderText.bits (h : HeaderText) : List Bool :=
  ues [h.major, h.minor, h.profile, h.level, h.base] ++
  flagged (h.dims.map fun d => ues [d.1, d.2]) ++
  flagged (h.colourFormat.map ue) ++
  flagged (h.scanFormat.map ue) ++
  flagged (h.frameRate.map fun b => ue b.1 ++ ues b.2) ++
  flagged (h.aspect.map fun b => ue b.1 ++ ues b.2) ++
  flagged (h.cleanArea.map ues) ++
  flagged (h.signalRange.map fun b => ue b.1 ++ ues b.2) ++
  flagged (h.colourSpec.map fun b => ue b.1 ++ b.2.flatMap fun o => flagged (o.map ue)) ++
  ue h.mode

/-- The frame size of a text: the custom dimensions, or the preset's (R113, R114). -/
def HeaderText.size (h : HeaderText) : Nat × Nat :=
  match h.dims, presetTable[h.base]? with
  | some d, _ => d
  | none, some (w, v, _) => (w, v)
  | none, none => (0, 0)

/-- What a text stands for, or the first check it fails (R116 to R118). -/
def HeaderText.result (h : HeaderText) : Except Malformed SeqInfo :=
  if h.major ≠ 2 then .error .badVersion
  else if h.profile ≠ 3 then .error .badProfile
  else if 23 ≤ h.base then .error .badBaseFormat
  else .ok ⟨u32 h.size.1, u32 (if h.mode ≠ 0 then h.size.2 / 2 else h.size.2), decide (h.mode ≠ 0)⟩

/-! ### Transform parameters as texts of the grammar (42_transform_parameters.md R131) -/

/-- A text of the grammar; `matrix` is the custom quantisation matrix. -/
structure TransformText where
  wavelet : Nat
  depth : Nat
  slicesX : Nat
  slicesY : Nat
  prefixBytes : Nat
  scalar : Nat
  matrix : Option (List Nat)
  deriving DecidableEq, Repr

/-- The shape of R131: one uint and three for each of `depth - 1` groups (R132), every value codable. -/
abbrev TransformText.ok (h : TransformText) : Prop :=
  codable h.wavelet ∧ codable h.depth ∧ codable h.slicesX ∧ codable h.slicesY ∧ codable h.prefixBytes ∧
  codable h.scalar ∧ ∀ l ∈ h.matrix, l.length = 1 + 3 * (h.depth - 1) ∧ ∀ v ∈ l, codable v

/-- The bits of a text (R131). -/
def TransformText.bits (h : TransformText) : List Bool :=
  ues [h.wavelet, h.depth, h.slicesX, h.slicesY, h.prefixBytes, h.scalar] ++ flagged (h.matrix.map ues)

/-- The record of a text; `coded_size` is its whole bytes (R131, R133). -/
def TransformText.info (h : TransformText) : TransformInfo :=
  ⟨u32 h.wavelet, u32 h.depth, u32 h.slicesX, u32 h.slicesY, u32 h.prefixBytes, u32 h.scalar,
    (h.bits.length + 7) / 8⟩

/-! ### Parse units in a buffer (43_parse_unit_scanner.md) -/

/-- `buf[p .. p+4) = MAGIC`. -/
abbrev magicAt (buf : List Byte) (p : Nat) : Prop := slice buf p (p + 4) = magic

/-- Position `c` holds, inside `size`, a header whose `prev_parse_offset` is its distance from `offset`, at
least a header behind it (43_parse_unit_scanner.md R148). -/
abbrev isSuccessor (buf : List Byte) (size offset c : Nat) : Prop :=
  offset + 13 ≤ c ∧ c + 13 ≤ size ∧ magicAt buf c ∧ (be32 buf (c + 9)).toNat = c - offset

/-- The buffer head holds the header of these fields, and PU.EXTRACT accepts it with the validated offset
`n` (43_parse_unit_scanner.md R153; 44_packetizer.md R172, R175). -/
abbrev unitAtHead (code : Byte) (npo ppo n : Word) (s : State) : Prop :=
  s.pkt.buf.take 13 = parseInfo code npo ppo ∧
  puExtract s.pkt.buf s.pkt.buf.length 0 = .found ⟨0, code, n, ppo⟩

/-- The loop of PKT.PUSH without a bound on its turns (44_packetizer.md R170). -/
inductive PushLoop : State → State → Prop where
  | stop (s t : State) : turn Config.encRejectPolicy s = .wait t → PushLoop s t
  | again (s u t : State) : turn Config.encRejectPolicy s = .more u → PushLoop u t → PushLoop s t

/-- The slices `l` lie one behind the other in `body` from `o` to `e`, each as `measure` measures it and within
the budget (30_encoding.md R69; 44_packetizer.md R180, check 5). -/
def walked (measure : SliceLength) (body : List Byte) (tp : TransformInfo) (mtu : Nat) :
    Nat → List (Nat × Nat) → Nat → Prop
  | o, [], e => e = o
  | o, (start, n) :: l, e =>
    start = o ∧ measure body o tp = some n ∧ n + 16 ≤ mtu ∧ walked measure body tp mtu (o + n) l e

/-- Checks 2 to 4 of 44_packetizer.md R180. -/
abbrev fieldsFit (tp : TransformInfo) : Prop :=
  tp.slicePrefixBytes.toNat ≤ 0xFFFF ∧ tp.sliceSizeScalar.toNat ≤ 0xFFFF ∧ tp.slicesX.toNat ≤ 0xFFFF ∧
  tp.slicesY.toNat ≤ 0xFFFF

/-! ### The fragments of a picture (44_packetizer.md R182, R183) -/

/-- The bytes of a group of slices, each a start and a length. -/
def groupBytes (l : List (Nat × Nat)) : Nat := (l.map Prod.snd).sum

/-- Greedy packing: no group is empty, each fits the budget, and none would with the next slice. -/
def greedy (mtu : Nat) : List (List (Nat × Nat)) → Prop
  | [] => True
  | l :: rest =>
    l ≠ [] ∧ groupBytes l + 16 ≤ mtu ∧
    (∀ next ∈ rest.head?, ∀ x ∈ next.head?, mtu < groupBytes l + x.2 + 16) ∧ greedy mtu rest

/-- The bytes all HQ fragments of a picture begin with, up to `slice_count` (30_encoding.md R70, R73). -/
def pictureBytes (g : Picture) (seq : Half) (size count : Nat) : List Byte :=
  put16 seq ++ [g.il, 0xEC#8] ++ put32 g.pn ++ put16 (u16 g.tp.slicePrefixBytes.toNat) ++
    put16 (u16 g.tp.sliceSizeScalar.toNat) ++ put16 (u16 size) ++ put16 (u16 count)

/-- The picture-parameters fragment. -/
def paramsFragment (g : Picture) (seq : Half) (pts dts : Nat) : Fragment :=
  ⟨pictureBytes g seq g.tp.codedSize 0 ++ slice g.body 0 g.tp.codedSize, false, pts, dts⟩

/-- The slice fragment of a group whose first slice has index `first` in raster order. -/
def sliceFragment (g : Picture) (seq : Half) (first : Nat) (l : List (Nat × Nat)) (marker : Bool)
    (pts dts : Nat) : Fragment :=
  let start := (l.head?.map Prod.fst).getD 0
  ⟨pictureBytes g seq (groupBytes l) l.length ++ put16 (u16 (first % g.tp.slicesX.toNat)) ++
      put16 (u16 (first / g.tp.slicesX.toNat)) ++ slice g.body start (start + groupBytes l),
    marker, pts, dts⟩

/-- The slice fragments of the groups, numbered on, the marker on the last. -/
def sliceFragments (g : Picture) (pts dts : Nat) : Half → Nat → List (List (Nat × Nat)) → List Fragment
  | _, _, [] => []
  | seq, first, l :: rest =>
    sliceFragment g seq first l rest.isEmpty pts dts ::
      sliceFragments g pts dts (seq + 1#16) (first + l.length) rest

/-! ### What DPK puts out (45_depacketizer.md R200, R217) -/

/-- The unit a response carries. -/
def unitsOut : Response → List (List Byte)
  | .parseUnit (some u) => [u]
  | _ => []

/-- Fragments delivered in order with `disc = 0`: the state after them and the units put out. -/
def deliver : List Fragment → State → Option (State × List (List Byte))
  | [], s => some (s, [])
  | f :: l, s =>
    match exec (.dpkFrag f.payload f.marker false) s with
    | .next t => (deliver l t).map fun r => (r.1, unitsOut t.resp ++ r.2)
    | .fault _ => none
    | .refused _ => none

/-- A chain of units after one whose forward offset is `prev`: each looks back by that offset, and forward
by its own length unless it ends the sequence, when it gives 0. -/
def chained (prev : Word) : List (List Byte) → Prop
  | [] => True
  | u :: l =>
    hasMagic u = true ∧ 13 ≤ u.length ∧ be32 u 9 = prev ∧
    be32 u 5 = (if byteAt u 4 = 0x10#8 then 0#32 else u32 u.length) ∧ chained (be32 u 5) l

end Sys2Proof.Machine
end

