-- ==== Sys2Proof/Certificates/Slice0/Obligations.lean ====
section
/-! DEFINITION. The statements for the provers. Each docstring names the rules it formalises; the terms are those
of Sys2Proof/Safety.lean. `resp`, `tx`, `diag` and `inbox` are the model's wires (log 1, log 12). -/

open Sys2Proof Sys2Proof.Machine

/-! ### Unit BR and the VLC codes -/

/-- BR.INIT makes a fresh reader, and no other instruction changes the span, moves the cursor back or clears
the overrun flag (40_bitreader_vlc.md R91).
Which operand slot the decoder reads is the model's choice (log 1). -/
def Obligations.BrInitMakesAFreshReader : Prop :=
  (∀ o, decode (.command 0x10#8 o) = .ok (.brInit o.bytes)) ∧
  (∀ (span : List Byte) (s : State),
    exec (.brInit span) s = .next { s with br := ⟨span, span.length, 0, false⟩, resp := .nothing }) ∧
  ∀ (i : Instr) (s t : State), (∀ span, i ≠ .brInit span) → exec i s = .next t →
    t.br.span = s.br.span ∧ t.br.len = s.br.len ∧ s.br.pos ≤ t.br.pos ∧
      (s.br.ovr = true → t.br.ovr = true)

/-- BR.READBIT: the bit at the cursor, most significant first; past the end the sentinel 1 and the flag
(40_bitreader_vlc.md R92). -/
def Obligations.BrReadBitReadsMostSignificantFirst : Prop :=
  (∀ o, decode (.command 0x11#8 o) = .ok .brReadBit) ∧
  ∀ s : State, exec .brReadBit s = .next
    (if s.br.pos < 8 * s.br.len then
      { s with
        br := { s.br with pos := s.br.pos + 1 }
        resp := .bit (decide ((byteAt s.br.span (s.br.pos / 8) >>> (7 - s.br.pos % 8)) &&& 1#8 = 1#8)) }
    else { s with br := { s.br with ovr := true }, resp := .bit true })

/-- BR.READBOOL is BR.READBIT read as a boolean (40_bitreader_vlc.md R93). -/
def Obligations.BrReadBoolIsReadBit : Prop :=
  (∀ o, decode (.command 0x12#8 o) = .ok .brReadBool) ∧
  ∀ s : State, ∃ t b, exec .brReadBit s = .next t ∧ t.resp = .bit b ∧
    exec .brReadBool s = .next { t with resp := .bool b }

/-- BR.READUINT on a code of `k` pairs inside the span: its value modulo 2^32 (exact up to 31 pairs), and a
cursor `2k + 1` bits on (40_bitreader_vlc.md R95, R96, R97). -/
def Obligations.BrReadUintReadsACode : Prop :=
  ∀ (s : State) (x rest : List Bool), s.br.ok → bitsLeft s.br = codePairs x ++ true :: rest →
    exec .brReadUint s = .next
      { s with
        br := { s.br with pos := s.br.pos + (2 * x.length + 1) }
        resp := .uint (u32 (2 ^ x.length + bitsNat x - 1)) } ∧
    (x.length ≤ 31 → (u32 (2 ^ x.length + bitsNat x - 1)).toNat = 2 ^ x.length + bitsNat x - 1 ∧
      2 ^ x.length + bitsNat x - 1 ≤ 2 ^ (x.length + 1) - 2)

/-- BR.READUINT running into the end of the span: at a decision bit it stops with what it has, at a data bit
the sentinel counts as data; either way the flag is set and the cursor is at the end, where every later read
gives its sentinel (40_bitreader_vlc.md R98). Values are modulo 2^32 (40_bitreader_vlc.md
R97, log 21). -/
def Obligations.BrReadUintMeetsTheEndOfTheSpan : Prop :=
  ∀ (s : State) (x : List Bool), s.br.ok →
    (bitsLeft s.br = codePairs x → exec .brReadUint s = .next
      { s with
        br := { s.br with pos := 8 * s.br.len, ovr := true }
        resp := .uint (u32 (2 ^ x.length + bitsNat x - 1)) }) ∧
    (bitsLeft s.br = codePairs x ++ [false] → exec .brReadUint s = .next
      { s with
        br := { s.br with pos := 8 * s.br.len, ovr := true }
        resp := .uint (u32 (2 ^ (x.length + 1) + (2 * bitsNat x + 1) - 1)) }) ∧
    (s.br.pos = 8 * s.br.len →
      exec .brReadUint s = .next { s with br := { s.br with ovr := true }, resp := .uint 0#32 } ∧
      exec .brReadBool s = .next { s with br := { s.br with ovr := true }, resp := .bool true } ∧
      exec .brReadBit s = .next { s with br := { s.br with ovr := true }, resp := .bit true })

/-- Encoding a value by 30_encoding.md R63 and reading it back gives the value, for every value up to
0xFFFFFFFE (40_bitreader_vlc.md R102). -/
def Obligations.VlcRoundTrip : Prop :=
  ∀ (s : State) (v : Nat) (rest : List Bool), s.br.ok → v ≤ 0xFFFFFFFE → bitsLeft s.br = ue v ++ rest →
    exec .brReadUint s = .next
      { s with
        br := { s.br with pos := s.br.pos + (ue v).length }
        resp := .uint (u32 v) }

/-- BR.LENGTH rounds the bits read up to bytes, changes nothing, and never exceeds the span
(40_bitreader_vlc.md R99). -/
def Obligations.BrLengthCountsWholeBytes : Prop :=
  (∀ o, decode (.command 0x14#8 o) = .ok .brLength) ∧
  ∀ s : State, exec .brLength s = .next { s with resp := .byteCount ((s.br.pos + 7) / 8) } ∧
    (s.br.ok → (s.br.pos + 7) / 8 ≤ s.br.len)

/-- BR.OVERRUN reads the flag and does not clear it (40_bitreader_vlc.md R100). -/
def Obligations.BrOverrunReadsTheFlag : Prop :=
  (∀ o, decode (.command 0x15#8 o) = .ok .brOverrun) ∧
  ∀ s : State, exec .brOverrun s = .next { s with resp := .bool s.br.ovr }

/-- The instruction decoded from the bits at the cursor does what the reading operation does: VLC.BOOL is
BR.READBOOL, VLC.UINT is BR.READUINT (30_encoding.md R60, R61, R62, R64). -/
def Obligations.VlcCodeAtTheCursorIsTheRead : Prop :=
  ∀ (s : State) (i : Instr), s.br.ok →
    (decode (.boolCode (bitsLeft s.br)) = .ok i → exec i s = exec .brReadBool s) ∧
    (decode (.uintCode (bitsLeft s.br)) = .ok i → exec i s = exec .brReadUint s)

/-- VLC.BOOL: one bit, 1 true and 0 false; at the end of the span the sentinel 1 (30_encoding.md R61;
40_bitreader_vlc.md R92). -/
def Obligations.VlcBoolIsOneBit : Prop :=
  ∀ (s : State) (b : Bool) (rest : List Bool), s.br.ok →
    (bitsLeft s.br = b :: rest →
      decode (.boolCode (bitsLeft s.br)) = .ok (.vlcBool b) ∧
      exec (.vlcBool b) s = .next
        { s with br := { s.br with pos := s.br.pos + 1 }, resp := .bool b }) ∧
    (bitsLeft s.br = [] →
      decode (.boolCode (bitsLeft s.br)) = .ok (.vlcBool true) ∧
      exec (.vlcBool true) s = .next
        { s with br := { s.br with ovr := true }, resp := .bool true })

/-- VLC.UINT: `k` pairs and a 1 are a code of `2k + 1` bits with value `2^k + x - 1`, modulo 2^32 (the wrap from
32 pairs on is 40_bitreader_vlc.md R97, log 21); a code cut by the end of the span is completed by sentinels
(30_encoding.md R62, R64; 40_bitreader_vlc.md R97, R98; log 16). -/
def Obligations.VlcUintIsASelfTerminatingCode : Prop :=
  ∀ (s : State) (x rest : List Bool), s.br.ok →
    (bitsLeft s.br = codePairs x ++ true :: rest →
      decode (.uintCode (bitsLeft s.br)) = .ok (.vlcUint x) ∧
      exec (.vlcUint x) s = .next
        { s with
          br := { s.br with pos := s.br.pos + (2 * x.length + 1) }
          resp := .uint (u32 (2 ^ x.length + bitsNat x - 1)) }) ∧
    (bitsLeft s.br = codePairs x →
      decode (.uintCode (bitsLeft s.br)) = .ok (.vlcUint x) ∧
      exec (.vlcUint x) s = .next
        { s with
          br := { s.br with pos := 8 * s.br.len, ovr := true }
          resp := .uint (u32 (2 ^ x.length + bitsNat x - 1)) }) ∧
    (bitsLeft s.br = codePairs x ++ [false] →
      decode (.uintCode (bitsLeft s.br)) = .ok (.vlcUint (x ++ [true])) ∧
      exec (.vlcUint (x ++ [true])) s = .next
        { s with
          br := { s.br with pos := 8 * s.br.len, ovr := true }
          resp := .uint (u32 (2 ^ (x.length + 1) + (2 * bitsNat x + 1) - 1)) })

/-! ### Units SHP and TPP -/

/-- SH.PARSE on what its grammar read: the first failing check names the cause, and the height is halved
exactly when the picture coding mode is not 0 (41_sequence_header.md R116, R117, R118). -/
def Obligations.ShParseChecksInOrder : Prop :=
  ∀ (data : List Byte) (s : State),
    let f := seqGrammar data
    let fails := fun cause => exec (.shParse data) s = .next
      { s with diag := s.diag ++ [.malformedHeader cause], resp := .seqInfo none }
    (f.reader.ovr = true → fails .vlcOverrun) ∧
    (f.reader.ovr = false → f.majorVersion ≠ 2#32 → fails .badVersion) ∧
    (f.reader.ovr = false → f.majorVersion = 2#32 → f.profile ≠ 3#32 → fails .badProfile) ∧
    (f.reader.ovr = false → f.majorVersion = 2#32 → f.profile = 3#32 → 23 ≤ f.baseVideoFormat.toNat →
      fails .badBaseFormat) ∧
    (f.reader.ovr = false → f.majorVersion = 2#32 → f.profile = 3#32 → f.baseVideoFormat.toNat < 23 →
      exec (.shParse data) s = .next
        { s with
          resp := .seqInfo (some
            ⟨f.size.1, u32 (if f.pictureCodingMode ≠ 0#32 then f.size.2.toNat / 2 else f.size.2.toNat),
              decide (f.pictureCodingMode ≠ 0#32)⟩) })

/-- Every text of the grammar, with any of its override blocks and whatever follows it, parses to what it
stands for (41_sequence_header.md R111, R112, R114, R115).
The shapes of the override blocks are from general knowledge (G2, log 20). -/
def Obligations.HeaderTextParsesToItsFields : Prop :=
  ∀ (h : HeaderText) (data : List Byte) (rest : List Bool) (s : State), h.ok →
    spanBits data = h.bits ++ rest →
    exec (.shParse data) s = .next
      (match h.result with
      | .ok i => { s with resp := .seqInfo (some i) }
      | .error cause => { s with diag := s.diag ++ [.malformedHeader cause], resp := .seqInfo none })

/-- SH.EQUAL compares the bytes of the common length (41_sequence_header.md R120).
Which operand slot the decoder reads is the model's choice (log 1). -/
def Obligations.ShEqualComparesTheCommonLength : Prop :=
  (∀ o, decode (.command 0x21#8 o) = .ok (.shEqual o.bytes o.bytes2)) ∧
  ∀ (a b : List Byte) (s : State), exec (.shEqual a b) s = .next
    { s with resp := .bool (decide (∀ i < min a.length b.length, byteAt a i = byteAt b i)) }

/-- Every text of the transform-parameters grammar, with or without its matrix and whatever follows it, parses
to its record; `coded_size` is its length in whole bytes (42_transform_parameters.md R131, R132, R133).
The number of matrix groups takes QM_SUB as 1 (log 18). -/
def Obligations.TransformTextParsesToItsRecord : Prop :=
  ∀ (h : TransformText) (data : List Byte) (rest : List Bool) (s : State), h.ok →
    spanBits data = h.bits ++ rest →
    exec (.tpParse data) s = .next { s with resp := .transformInfo (some h.info) }

/-- TP.PARSE fails exactly when its reader overran, with one event; a record has a `coded_size` of at least 1
and at most the data's length (42_transform_parameters.md R130).
Which operand slot the decoder reads is the model's choice (log 1). -/
def Obligations.TpParseFailsOnlyByOverrun : Prop :=
  (∀ o, decode (.command 0x30#8 o) = .ok (.tpParse o.bytes)) ∧
  ∀ (data : List Byte) (s : State),
    ((tpGrammar Config.qmSub data).2.ovr = true → exec (.tpParse data) s = .next
      { s with diag := s.diag ++ [.malformedHeader .vlcOverrun], resp := .transformInfo none }) ∧
    ((tpGrammar Config.qmSub data).2.ovr = false →
      let r := (tpGrammar Config.qmSub data).1
      exec (.tpParse data) s = .next { s with resp := .transformInfo (some r) } ∧
      r.codedSize = ((tpGrammar Config.qmSub data).2.pos + 7) / 8 ∧
      0 < r.codedSize ∧ r.codedSize ≤ data.length)

/-- A text cut before its last bit fails with an overrun, in both grammars (41_sequence_header.md R118;
42_transform_parameters.md R130; 40_bitreader_vlc.md R103).
The override blocks and the matrix are those of log 20 and log 18. -/
def Obligations.TruncatedTextsOverrun : Prop :=
  (∀ (h : HeaderText) (data : List Byte) (cut : List Bool) (s : State), h.ok →
    spanBits data ++ cut = h.bits → cut ≠ [] →
    exec (.shParse data) s = .next
      { s with diag := s.diag ++ [.malformedHeader .vlcOverrun], resp := .seqInfo none }) ∧
  ∀ (h : TransformText) (data : List Byte) (cut : List Bool) (s : State), h.ok →
    spanBits data ++ cut = h.bits → cut ≠ [] →
    exec (.tpParse data) s = .next
      { s with diag := s.diag ++ [.malformedHeader .vlcOverrun], resp := .transformInfo none }

/-- Giving up the matrix groups at the first overrun changes no result: the full loop overruns too, and where
it does not, both leave the same reader (42_transform_parameters.md R134). -/
def Obligations.StoppingAtTheFirstOverrunIsInvisible : Prop :=
  ∀ (n : Nat) (r : Reader),
    (skipUntilOverrun n r).ovr = (skipUints n r).ovr ∧
    ((skipUints n r).ovr = false → skipUntilOverrun n r = skipUints n r)

/-! ### Unit PUS -/

/-- PU.EXTRACT, steps 1 to 5: the header in bounds, the magic, an end of sequence accepted at once, a nonzero
`next_parse_offset` as the only candidate (43_parse_unit_scanner.md R142 to R147). -/
def Obligations.PuExtractChecksInOrder : Prop :=
  ∀ (buf : List Byte) (size offset : Nat) (s : State), size ≤ buf.length →
    let npo := be32 buf (offset + 5)
    let ppo := be32 buf (offset + 9)
    let c := offset + npo.toNat
    let answers := fun (r : Extracted) (e : List Event) =>
      exec (.puExtract buf size offset) s = .next { s with diag := s.diag ++ e, resp := .extracted r }
    (size < offset + 13 → answers .more [.needMore]) ∧
    (offset + 13 ≤ size → ¬magicAt buf offset →
      answers (.reject .badMagic) [.malformedHeader .badMagic]) ∧
    (offset + 13 ≤ size → magicAt buf offset → byteAt buf (offset + 4) = 0x10#8 →
      answers (.found ⟨offset, 0x10#8, npo, ppo⟩) []) ∧
    (offset + 13 ≤ size → magicAt buf offset → byteAt buf (offset + 4) ≠ 0x10#8 → npo ≠ 0#32 →
      (size < c + 13 → answers .more [.needMore]) ∧
      (c + 13 ≤ size → magicAt buf c → be32 buf (c + 9) = npo →
        answers (.found ⟨offset, byteAt buf (offset + 4), npo, ppo⟩) []) ∧
      (c + 13 ≤ size → (magicAt buf c → be32 buf (c + 9) ≠ npo) →
        answers (.reject .badLink) [.malformedHeader .badLink]))

/-- PU.EXTRACT, step 6: behind a zero `next_parse_offset` the first later header that looks back to the unit
is its successor, and without one the answer is MORE, never REJECT (43_parse_unit_scanner.md R148). -/
def Obligations.PuExtractScansForTheSuccessor : Prop :=
  ∀ (buf : List Byte) (size offset : Nat) (s : State), size ≤ buf.length → offset + 13 ≤ size →
    magicAt buf offset → byteAt buf (offset + 4) ≠ 0x10#8 → be32 buf (offset + 5) = 0#32 →
    (∀ c, isSuccessor buf size offset c → (∀ d < c, ¬isSuccessor buf size offset d) →
      exec (.puExtract buf size offset) s = .next
        { s with
          resp := .extracted
            (.found ⟨offset, byteAt buf (offset + 4), u32 (c - offset), be32 buf (offset + 9)⟩) }) ∧
    ((∀ c, ¬isSuccessor buf size offset c) →
      exec (.puExtract buf size offset) s = .next
        { s with diag := s.diag ++ [.needMore], resp := .extracted .more })

/-- PU.FIND gives the first position from `fromOffset` on whose magic PU.EXTRACT accepts, or reports that
there is none (43_parse_unit_scanner.md R150).
Which operand slot the decoder reads is the model's choice (log 1). -/
def Obligations.PuFindGivesTheFirstAcceptedUnit : Prop :=
  (∀ o, decode (.command 0x41#8 o) = .ok (.puFind o.bytes o.n1 o.n2)) ∧
  ∀ (buf : List Byte) (size start : Nat) (s : State), size ≤ buf.length →
    let passes := fun p => start ≤ p ∧ p + 4 ≤ size ∧ magicAt buf p ∧ ∃ u, puExtract buf size p = .found u
    (∀ p, passes p → (∀ q < p, ¬passes q) →
      exec (.puFind buf size start) s = .next { s with resp := .foundAt (some p) }) ∧
    ((∀ p, ¬passes p) →
      exec (.puFind buf size start) s = .next
        { s with diag := s.diag ++ [.needMore], resp := .foundAt none })

/-- PUS reads nothing at or beyond `size` (43_parse_unit_scanner.md R140; 20_memory.md R50). -/
def Obligations.PusReadsNothingBeyondSize : Prop :=
  ∀ (a b : List Byte) (size offset : Nat) (s : State), size ≤ a.length → size ≤ b.length →
    a.take size = b.take size →
    exec (.puExtract a size offset) s = exec (.puExtract b size offset) s ∧
    exec (.puFind a size offset) s = exec (.puFind b size offset) s

/-! ### Unit PKT -/

/-- PKT.SETMTU takes a value of 16 to 65535 and ignores any other (44_packetizer.md R191).
Which operand slot the decoder reads is the model's choice (log 1). -/
def Obligations.PktSetMtuTakesLegalValues : Prop :=
  (∀ o, decode (.command 0x52#8 o) = .ok (.pktSetMtu o.half)) ∧
  ∀ (m : Half) (s : State), exec (.pktSetMtu m) s = .next
    (if 16 ≤ m.toNat ∧ m.toNat ≤ 65535 then { s with pkt := { s.pkt with mtu := m }, resp := .nothing }
    else { s with resp := .nothing })

/-- PKT.RESET clears the buffer, the state, the cache and the counter, keeps the budget and raises
`Discontinuity(RESET_OP)`; what the decoded cache fields and the timestamps hold afterwards is left open
(44_packetizer.md R190; 70_reset_and_hazards.md R262).
The open values are free (log 10). -/
def Obligations.PktResetClearsTheStreamState : Prop :=
  (∀ o, decode (.command 0x51#8 o) = .ok .pktReset) ∧
  ∀ s : State, ∃ (w h : Word) (il : Bool) (p d n : Nat), exec .pktReset s = .next
    { s with
      pkt :=
        { state := .unsync, buf := [], cacheValid := false, cache := [], cacheW := w, cacheH := h,
          cacheIl := il, extSeq := 0#16, mtu := s.pkt.mtu, pts := p, dts := d, event := 0x0204#16 }
      resp := .nothing
      diag := s.diag ++ [.discontinuity .resetOp]
      freeCount := n }

/-- UNIT.END_OF_SEQUENCE takes 13 bytes whatever its `next_parse_offset`, leaves SYNC, drops the cache, and
emits its 4-byte fragment; the counter goes on (44_packetizer.md R186).
What the decoded cache fields hold afterwards is free (log 10). -/
def Obligations.EndOfSequenceUnitEndsTheSequence : Prop :=
  (∀ npo ppo, decode (.unit (parseInfo 0x10#8 npo ppo)) = .ok (.unitEndOfSequence npo ppo)) ∧
  ∀ (npo ppo : Word) (s : State), 13 ≤ s.pkt.buf.length → ∃ (w h : Word) (il : Bool) (n : Nat),
    exec (.unitEndOfSequence npo ppo) s = .next
      { s with
        pkt :=
          { s.pkt with
            state := .unsync, buf := s.pkt.buf.drop 13, cacheValid := false, cache := [], cacheW := w,
            cacheH := h, cacheIl := il, extSeq := s.pkt.extSeq + 1#16 }
        tx := s.tx ++ [⟨put16 s.pkt.extSeq ++ [0x00#8, 0x10#8], false, s.pkt.pts, s.pkt.dts⟩]
        freeCount := n }

/-- UNIT.AUXILIARY, UNIT.PADDING and UNIT.UNKNOWN take their bytes and do nothing else (44_packetizer.md R187,
R188). A unit shorter than its header also raises SHORT_UNIT: the model follows R175 there, against "Events
raised: none" of R187 and R188 (log 14). -/
def Obligations.SkippedUnitsAreOnlyConsumed : Prop :=
  ∀ (code : Byte) (npo ppo n : Word) (s : State) (i : Instr), unitAtHead code npo ppo n s →
    (code = 0x20#8 ∧ i = .unitAuxiliary npo ppo ∨ code = 0x30#8 ∧ i = .unitPadding npo ppo ∨
      code ∉ [0x00#8, 0x10#8, 0x20#8, 0x30#8, 0xE8#8] ∧ i = .unitUnknown code npo ppo) →
    exec i s = .next
      (if 13 ≤ n.toNat then { s with pkt := { s.pkt with buf := s.pkt.buf.drop n.toNat } }
      else
        { s with
          pkt := { s.pkt with buf := s.pkt.buf.drop n.toNat, event := 0x0701#16 }
          diag := s.diag ++ [.malformedHeader .shortUnit] })

/-- A unit whose link is not decided waits and changes nothing but the event; a unit whose link is wrong loses
one byte and SYNC (44_packetizer.md R172, R173; 60_exceptions.md R234, R235). Where an instruction ends so is
not where it completes. -/
def Obligations.UndecidedUnitsWaitAndWrongOnesResync : Prop :=
  ∀ (code : Byte) (npo ppo : Word) (s : State), s.pkt.buf.take 13 = parseInfo code npo ppo →
    (puExtract s.pkt.buf s.pkt.buf.length 0 = .more →
      exec (unitInstr code npo ppo) s = .next
        { s with pkt := { s.pkt with event := 0x0102#16 }, diag := s.diag ++ [.needMore] }) ∧
    (puExtract s.pkt.buf s.pkt.buf.length 0 = .reject .badLink →
      exec (unitInstr code npo ppo) s = .next
        { s with
          pkt := { s.pkt with state := .unsync, buf := s.pkt.buf.drop 1, event := 0x0201#16 }
          diag := s.diag ++ [.malformedHeader .badLink] })

/-- UNIT.SEQUENCE_HEADER: too short, or not parsed, it is only consumed with its event; parsed, it replaces a
cache that is invalid or different and emits the cached bytes (44_packetizer.md R176, R177, R178). -/
def Obligations.SequenceHeaderUnitCachesAndEmits : Prop :=
  (∀ npo ppo, decode (.unit (parseInfo 0x00#8 npo ppo)) = .ok (.unitSequenceHeader npo ppo)) ∧
  ∀ (npo ppo n : Word) (s : State), unitAtHead 0x00#8 npo ppo n s →
    let raw := slice s.pkt.buf 13 n.toNat
    let fails := fun cause => exec (.unitSequenceHeader npo ppo) s = .next
      { s with
        pkt :=
          { s.pkt with buf := s.pkt.buf.drop n.toNat, event := eventWord (.malformedHeader cause) }
        diag := s.diag ++ [.malformedHeader cause] }
    let emits := fun (p : Pkt) => exec (.unitSequenceHeader npo ppo) s = .next
      { s with
        pkt := { p with buf := s.pkt.buf.drop n.toNat, extSeq := s.pkt.extSeq + 1#16 }
        tx := s.tx ++
          [⟨put16 s.pkt.extSeq ++ [0x00#8, 0x00#8] ++ p.cache, false, s.pkt.pts, s.pkt.dts⟩] }
    (n.toNat < 13 → fails .shortUnit) ∧
    (13 ≤ n.toNat → ∀ cause, shParse raw = .error cause → fails cause) ∧
    (13 ≤ n.toNat → ∀ i, shParse raw = .ok i →
      (s.pkt.cacheValid = true → shEqual s.pkt.cache raw = true → emits s.pkt) ∧
      (s.pkt.cacheValid = false ∨ shEqual s.pkt.cache raw = false → emits
        { s.pkt with
          cacheValid := true, cache := raw, cacheW := i.pictureWidth, cacheH := i.pictureHeight,
          cacheIl := i.interlaced }))

/-- UNIT.HQ_PICTURE that fails a check is consumed with the event of the first check it fails, and emits
nothing (44_packetizer.md R179, R180; 60_exceptions.md R234, R240). Where a picture fails is not where the
instruction completes.
The slice layout is from general knowledge (log 20), QM_SUB is 1 (log 18).
SliceLen is a parameter at its default (log 31). -/
def Obligations.HqPictureUnitFailsAsAWhole : Prop :=
  ∀ (npo ppo n : Word) (s : State), unitAtHead 0xE8#8 npo ppo n s →
    let body := slice s.pkt.buf 17 n.toNat
    let mtu := s.pkt.mtu.toNat
    let fails := fun cause => exec (.unitHqPicture npo ppo) s = .next
      { s with
        pkt :=
          { s.pkt with buf := s.pkt.buf.drop n.toNat, event := eventWord (.malformedHeader cause) }
        diag := s.diag ++ [.malformedHeader cause] }
    (n.toNat < 17 → fails .shortUnit) ∧
    (17 ≤ n.toNat → tpParse Config.qmSub body = none → fails .vlcOverrun) ∧
    (17 ≤ n.toNat → ∀ tp, tpParse Config.qmSub body = some tp →
      (¬fieldsFit tp → fails .fieldRange) ∧
      (fieldsFit tp → tp.slicesX = 0#32 ∨ tp.slicesY = 0#32 → fails .noSlices) ∧
      (fieldsFit tp → tp.slicesX ≠ 0#32 → tp.slicesY ≠ 0#32 →
        (mtu < tp.codedSize + 12 → fails .mtuTooSmall) ∧
        (tp.codedSize + 12 ≤ mtu → ∀ l o, walked Config.sliceLen body tp mtu tp.codedSize l o →
          l.length < tp.slicesX.toNat * tp.slicesY.toNat →
          (Config.sliceLen body o tp = none → fails .sliceBounds) ∧
          (∀ k, Config.sliceLen body o tp = some k → mtu < k + 16 → fails .mtuTooSmall))))

/-- UNIT.HQ_PICTURE that passes every check: the parameters fragment, then the slices in raster order packed
greedily into fragments, each with the coordinates of its first slice, the marker on the last and only there
(44_packetizer.md R179, R181, R182, R183, R185). SliceLen is a parameter at its default (log 31). -/
def Obligations.HqPictureUnitIsPackedGreedily : Prop :=
  ∀ (npo ppo n : Word) (s : State) (tp : TransformInfo) (l : List (Nat × Nat)) (e : Nat),
    unitAtHead 0xE8#8 npo ppo n s → 17 ≤ n.toNat →
    tpParse Config.qmSub (slice s.pkt.buf 17 n.toNat) = some tp → fieldsFit tp →
    tp.slicesX ≠ 0#32 → tp.slicesY ≠ 0#32 → tp.codedSize + 12 ≤ s.pkt.mtu.toNat →
    walked Config.sliceLen (slice s.pkt.buf 17 n.toNat) tp s.pkt.mtu.toNat tp.codedSize l e →
    l.length = tp.slicesX.toNat * tp.slicesY.toNat →
    let pn := be32 s.pkt.buf 13
    let il := if s.pkt.cacheValid && s.pkt.cacheIl then (if pn.toNat % 2 = 1 then 0x03#8 else 0x02#8)
      else 0x00#8
    let g : Picture := ⟨pn, tp, il, slice s.pkt.buf 17 n.toNat⟩
    ∃ groups : List (List (Nat × Nat)), groups.flatten = l ∧ greedy s.pkt.mtu.toNat groups ∧
      exec (.unitHqPicture npo ppo) s = .next
        { s with
          pkt :=
            { s.pkt with
              buf := s.pkt.buf.drop n.toNat
              extSeq := s.pkt.extSeq + BitVec.ofNat 16 (1 + groups.length) }
          tx := s.tx ++ paramsFragment g s.pkt.extSeq s.pkt.pts s.pkt.dts ::
            sliceFragments g s.pkt.pts s.pkt.dts (s.pkt.extSeq + 1#16) 0 groups }

/-- For `K` slices of one length the slice fragments number `ceil(K / m)`, `m` slices fitting the budget; the
parameters fragment is one more (44_packetizer.md R185 (b)). -/
def Obligations.EqualSlicesGiveTheCeilingCount : Prop :=
  ∀ (npo ppo n : Word) (s : State) (tp : TransformInfo) (l : List (Nat × Nat)) (e k : Nat),
    unitAtHead 0xE8#8 npo ppo n s → 17 ≤ n.toNat →
    tpParse Config.qmSub (slice s.pkt.buf 17 n.toNat) = some tp → fieldsFit tp →
    tp.slicesX ≠ 0#32 → tp.slicesY ≠ 0#32 → tp.codedSize + 12 ≤ s.pkt.mtu.toNat →
    walked Config.sliceLen (slice s.pkt.buf 17 n.toNat) tp s.pkt.mtu.toNat tp.codedSize l e →
    l.length = tp.slicesX.toNat * tp.slicesY.toNat → (∀ x ∈ l, x.2 = k) →
    let m := (s.pkt.mtu.toNat - 16) / k
    ∃ t, exec (.unitHqPicture npo ppo) s = .next t ∧ 1 ≤ m ∧
      t.tx.length = s.tx.length + 1 + (l.length + m - 1) / m

/-- Every fragment an HQ picture emits is at most 4 bytes over the budget: the prefix is not counted
(44_packetizer.md R184; 70_reset_and_hazards.md R278). -/
def Obligations.HqFragmentsFitTheBudgetButForThePrefix : Prop :=
  ∀ (npo ppo n : Word) (s : State), unitAtHead 0xE8#8 npo ppo n s →
    ∃ t, exec (.unitHqPicture npo ppo) s = .next t ∧
      ∀ f ∈ t.tx.drop s.tx.length, f.payload.length ≤ s.pkt.mtu.toNat + 4

/-- The configured SliceLen measures the prefix, the quantisation index, three length bytes and three scaled
components, exactly when they all lie in the body (30_encoding.md R69; the layout is log 20, that it is the default
of a parameter log 31). -/
def Obligations.SliceLenMeasuresThreeComponents : Prop :=
  ∀ (body : List Byte) (o n : Nat) (tp : TransformInfo),
    let k := tp.sliceSizeScalar.toNat
    let p0 := o + tp.slicePrefixBytes.toNat + 1
    let l0 := (byteAt body p0).toNat
    let p1 := p0 + 1 + l0 * k
    let l1 := (byteAt body p1).toNat
    let p2 := p1 + 1 + l1 * k
    let l2 := (byteAt body p2).toNat
    Config.sliceLen body o tp = some n ↔
      n = tp.slicePrefixBytes.toNat + 4 + k * (l0 + l1 + l2) ∧ o + n ≤ body.length

/-- The extended sequence counter: whatever runs but PKT.RESET, it advances by one for each fragment emitted,
modulo 2^16, and each fragment begins with the counter before its increment (44_packetizer.md R189). -/
def Obligations.CounterNumbersEveryFragment : Prop :=
  ∀ (i : Instr) (s t : State), i ≠ .pktReset → exec i s = .next t →
    ∃ l, t.tx = s.tx ++ l ∧ t.pkt.extSeq = s.pkt.extSeq + BitVec.ofNat 16 l.length ∧
      ∀ k f, l[k]? = some f → f.payload.take 2 = put16 (s.pkt.extSeq + BitVec.ofNat 16 k)

/-- PKT.PUSH appends its bytes and runs the loop to its end; the response is what the call emitted. The bound
on the turns is never what ends it (44_packetizer.md R170; 46_arithmetic_and_control.md R293). -/
def Obligations.PktPushRunsTheLoopToItsEnd : Prop :=
  ∀ (data : List Byte) (pts dts : Nat) (s : State), ∃ u,
    PushLoop { s with pkt := { s.pkt with buf := s.pkt.buf ++ data, pts := pts, dts := dts } } u ∧
    exec (.pktPush data pts dts) s = .next { u with resp := .fragments (u.tx.drop s.tx.length) }

/-- One turn of the loop: UNSYNC it discards up to the first acceptable unit or keeps everything; in SYNC it
waits for a header, drops a byte before a bad magic, or runs the instruction at the buffer head
(44_packetizer.md R170, R171, R172, R173). -/
def Obligations.ATurnRunsTheUnitAtTheHead : Prop :=
  ∀ s : State,
    (s.pkt.state = .unsync → puFind s.pkt.buf s.pkt.buf.length 0 = none →
      turn Config.encRejectPolicy s = .wait
        { s with pkt := { s.pkt with event := 0x0102#16 }, diag := s.diag ++ [.needMore] }) ∧
    (s.pkt.state = .unsync → ∀ p, puFind s.pkt.buf s.pkt.buf.length 0 = some p →
      turn Config.encRejectPolicy s = .more
        { s with pkt := { s.pkt with state := .sync, buf := s.pkt.buf.drop p } }) ∧
    (s.pkt.state = .sync → s.pkt.buf.length < 13 → turn Config.encRejectPolicy s = .wait s) ∧
    (s.pkt.state = .sync → 13 ≤ s.pkt.buf.length → ¬magicAt s.pkt.buf 0 →
      turn Config.encRejectPolicy s = .more
        { s with
          pkt := { s.pkt with state := .unsync, buf := s.pkt.buf.drop 1, event := 0x0101#16 }
          diag := s.diag ++ [.malformedHeader .badMagic] }) ∧
    (s.pkt.state = .sync → 13 ≤ s.pkt.buf.length → magicAt s.pkt.buf 0 →
      ∃ i t, decode (.unit (s.pkt.buf.take 13)) = .ok i ∧ exec i s = .next t ∧
        turn Config.encRejectPolicy s =
          if puExtract s.pkt.buf s.pkt.buf.length 0 = .more then .wait t else .more t)

/-- Every fragment of a push carries the push's timestamps, is part of its response and only appends to what
was emitted; the budget stays, and what stays buffered is the end of what there was (44_packetizer.md R170;
60_exceptions.md R246). -/
def Obligations.PushedFragmentsCarryThePushTimestamps : Prop :=
  ∀ (data : List Byte) (pts dts : Nat) (s : State), ∃ t l,
    exec (.pktPush data pts dts) s = .next t ∧ t.tx = s.tx ++ l ∧ t.resp = .fragments l ∧
    (∀ f ∈ l, f.pts = pts ∧ f.dts = dts) ∧ t.pkt.pts = pts ∧ t.pkt.dts = dts ∧
    t.pkt.mtu = s.pkt.mtu ∧ t.pkt.buf <:+ s.pkt.buf ++ data

/-- After any push, an empty push comes to the same answer: it emits nothing and moves nothing
(44_packetizer.md R170). -/
def Obligations.AnEmptyPushChangesNothing : Prop :=
  ∀ (data : List Byte) (pts dts pts2 dts2 : Nat) (s t : State),
    exec (.pktPush data pts dts) s = .next t →
    ∃ (w : Half) (e : List Event), exec (.pktPush [] pts2 dts2) t = .next
      { t with
        pkt := { t.pkt with pts := pts2, dts := dts2, event := w }
        resp := .fragments []
        diag := t.diag ++ e }

/-! ### Unit DPK -/

/-- FRAG.SEQUENCE_HEADER puts out a regenerated header and the bytes as they are, and moves the chain
(45_depacketizer.md R204). -/
def Obligations.SequenceHeaderFragmentIsReframed : Prop :=
  (∀ head p marker, decode (.fragment (wirePrefix head 0x00#8 ++ p) marker) =
    .ok (.fragSequenceHeader head p)) ∧
  ∀ (head : WireHead) (p : List Byte) (s : State), exec (.fragSequenceHeader head p) s = .next
    { s with
      dpk := { s.dpk with lastOff := u32 (p.length + 13), waiting := false }
      resp := .parseUnit (some ([0x42#8, 0x42#8, 0x43#8, 0x44#8, 0x00#8] ++ put32 (u32 (p.length + 13)) ++
        put32 s.dpk.lastOff ++ p)) }

/-- FRAG.END_OF_SEQUENCE puts out a bare header and restarts the chain (45_depacketizer.md R211). -/
def Obligations.EndOfSequenceFragmentRestartsTheChain : Prop :=
  (∀ head p marker, decode (.fragment (wirePrefix head 0x10#8 ++ p) marker) =
    .ok (.fragEndOfSequence head p)) ∧
  ∀ (head : WireHead) (p : List Byte) (s : State), exec (.fragEndOfSequence head p) s = .next
    { s with
      dpk := { s.dpk with lastOff := 0#32, waiting := false }
      resp := .parseUnit (some ([0x42#8, 0x42#8, 0x43#8, 0x44#8, 0x10#8] ++ put32 0#32 ++
        put32 s.dpk.lastOff)) }

/-- FRAG.HQ_PARAMS starts a picture with exactly its declared bytes, and puts it out at once on a marker; a
length beyond the payload aborts (45_depacketizer.md R206, R207, R208, R210, R213). -/
def Obligations.ParamsFragmentStartsAPicture : Prop :=
  (∀ head hq rest marker,
    decode (.fragment (wirePrefix head 0xEC#8 ++ hqHeader hq 0#16 ++ rest) marker) =
      .ok (.fragHqParams head hq rest marker)) ∧
  ∀ (head : WireHead) (hq : HqHead) (rest : List Byte) (marker : Bool) (s : State),
    let flen := hq.fragmentLength.toNat
    (rest.length < flen → exec (.fragHqParams head hq rest marker) s = .next
      { s with
        dpk := { s.dpk with acc := [], accBytes := 0#32, inPicture := false, event := 0x0103#16 }
        resp := .parseUnit none
        diag := s.diag ++ [.sequenceMismatch .lengthExceeds] }) ∧
    (flen ≤ rest.length → marker = false → exec (.fragHqParams head hq rest marker) s = .next
      { s with
        dpk :=
          { s.dpk with
            acc := rest.take flen, accBytes := u32 flen, inPicture := true, waiting := false,
            curPn := hq.pictureNumber }
        resp := .parseUnit none }) ∧
    (flen ≤ rest.length → marker = true → exec (.fragHqParams head hq rest marker) s = .next
      { s with
        dpk :=
          { s.dpk with
            acc := [], accBytes := 0#32, inPicture := false, waiting := false,
            curPn := hq.pictureNumber, lastOff := u32 (flen + 17) }
        resp := .parseUnit (some ([0x42#8, 0x42#8, 0x43#8, 0x44#8, 0xE8#8] ++ put32 (u32 (flen + 17)) ++
          put32 s.dpk.lastOff ++ put32 hq.pictureNumber ++ rest.take flen)) })

/-- FRAG.HQ_SLICES: the length, then the picture in progress, then its number are required, else the picture is
aborted with that cause; accepted, the data is appended, and the marker puts the picture out
(45_depacketizer.md R206, R208, R209, R210, R213, R214). -/
def Obligations.SliceFragmentContinuesThePicture : Prop :=
  (∀ head hq (count : Half) rest marker, count ≠ 0#16 →
    decode (.fragment (wirePrefix head 0xEC#8 ++ hqHeader hq count ++ rest) marker) =
      .ok (.fragHqSlices head hq count rest marker)) ∧
  ∀ (head : WireHead) (hq : HqHead) (count : Half) (rest : List Byte) (marker : Bool) (s : State),
    let flen := hq.fragmentLength.toNat
    let data := slice rest 4 (4 + flen)
    let aborts := fun (cause : Mismatch) => exec (.fragHqSlices head hq count rest marker) s = .next
      { s with
        dpk :=
          { s.dpk with
            acc := [], accBytes := 0#32, inPicture := false,
            event := eventWord (.sequenceMismatch cause) }
        resp := .parseUnit none
        diag := s.diag ++ [.sequenceMismatch cause] }
    (rest.length < 4 + flen → aborts .lengthExceeds) ∧
    (4 + flen ≤ rest.length → s.dpk.inPicture = false → aborts .notInPicture) ∧
    (4 + flen ≤ rest.length → s.dpk.inPicture = true → hq.pictureNumber ≠ s.dpk.curPn →
      aborts .pictureNumber) ∧
    (4 + flen ≤ rest.length → s.dpk.inPicture = true → hq.pictureNumber = s.dpk.curPn →
      marker = false → exec (.fragHqSlices head hq count rest marker) s = .next
        { s with
          dpk := { s.dpk with acc := s.dpk.acc ++ data, accBytes := s.dpk.accBytes + u32 flen }
          resp := .parseUnit none }) ∧
    (4 + flen ≤ rest.length → s.dpk.inPicture = true → hq.pictureNumber = s.dpk.curPn →
      marker = true → exec (.fragHqSlices head hq count rest marker) s = .next
        { s with
          dpk :=
            { s.dpk with
              acc := [], accBytes := 0#32, inPicture := false,
              lastOff := s.dpk.accBytes + u32 flen + 17#32 }
          resp := .parseUnit (some ([0x42#8, 0x42#8, 0x43#8, 0x44#8, 0xE8#8] ++
            put32 (s.dpk.accBytes + u32 flen + 17#32) ++ put32 s.dpk.lastOff ++ put32 s.dpk.curPn ++
            (s.dpk.acc ++ data))) })

/-- FRAG.UNKNOWN puts nothing out and changes nothing (45_depacketizer.md R212). -/
def Obligations.UnknownFragmentIsIgnored : Prop :=
  (∀ head (tag : Byte) p marker, tag ∉ [0x00#8, 0x10#8, 0xEC#8] →
    decode (.fragment (wirePrefix head tag ++ p) marker) = .ok (.fragUnknown head tag p)) ∧
  ∀ (head : WireHead) (tag : Byte) (p : List Byte) (s : State),
    exec (.fragUnknown head tag p) s = .next { s with resp := .parseUnit none }

/-- DPK.FRAG runs the fragment that its payload decodes to, drops one that decodes to none, and first resets
the unit where the transport flags a gap (45_depacketizer.md R201, R203, R205, R215).
A short HQ fragment has no row (log 27). -/
def Obligations.DpkFragRunsTheDecodedFragment : Prop :=
  ∀ (payload : List Byte) (marker : Bool) (s : State),
    (∀ i, decode (.fragment payload marker) = .ok i →
      ∃ t, exec i s = .next t ∧ exec (.dpkFrag payload marker false) s = .next t) ∧
    (∀ r, decode (.fragment payload marker) = .rejected r →
      exec (.dpkFrag payload marker false) s = .next
        { s with
          dpk := { s.dpk with event := 0x0C01#16 }
          resp := .parseUnit none
          diag := s.diag ++ [.malformedHeader .shortFragment] }) ∧
    exec (.dpkFrag payload marker true) s = exec (.dpkFrag payload marker false)
      { s with
        dpk :=
          { s.dpk with
            waiting := true, inPicture := false, acc := [], accBytes := 0#32, lastOff := 0#32,
            event := 0x0104#16 }
        diag := s.diag ++ [.discontinuity .transportFlag] }

/-- DPK.RESET clears the accumulator, the flags and the chain, keeps the dead picture number and raises
`Discontinuity(RESET_OP)` (45_depacketizer.md R215, R216). -/
def Obligations.DpkResetRunsTheDiscontinuity : Prop :=
  (∀ o, decode (.command 0x61#8 o) = .ok .dpkReset) ∧
  ∀ s : State, exec .dpkReset s = .next
    { s with
      dpk :=
        { s.dpk with
          waiting := true, inPicture := false, acc := [], accBytes := 0#32, lastOff := 0#32,
          event := 0x0204#16 }
      resp := .nothing
      diag := s.diag ++ [.discontinuity .resetOp] }

/-- Whatever fragments arrive without a gap, lost, foreign or damaged ones among them, the units put out form
one chain of offsets, and the chain register goes on from the last (45_depacketizer.md R217). -/
def Obligations.OutputUnitsFormOneChain : Prop :=
  ∀ (l : List Fragment) (s : State), s.dpk.ok → ∃ t units, deliver l s = some (t, units) ∧
    chained s.dpk.lastOff units ∧
    t.dpk.lastOff = (match units.getLast? with | some u => be32 u 5 | none => s.dpk.lastOff)

/-- A native stream of a sequence header, one picture and an end of sequence, pushed into PKT and its
fragments delivered to DPK, comes out byte for byte (45_depacketizer.md R218). -/
def Obligations.StreamRoundTrip : Prop :=
  ∀ (raw body : List Byte) (pn : Word) (info : SeqInfo) (tp : TransformInfo) (l : List (Nat × Nat))
    (pts dts : Nat) (s d : State),
    s.pkt.state = .unsync → s.pkt.buf = [] → s.pkt.cacheValid = false → s.tx = [] → d.dpk.lastOff = 0#32 →
    raw.length + 13 < 2 ^ 32 → body.length + 17 < 2 ^ 32 →
    shParse raw = .ok info → tpParse Config.qmSub body = some tp → fieldsFit tp →
    tp.slicesX ≠ 0#32 → tp.slicesY ≠ 0#32 → tp.codedSize + 12 ≤ s.pkt.mtu.toNat →
    walked Config.sliceLen body tp s.pkt.mtu.toNat tp.codedSize l body.length →
    l.length = tp.slicesX.toNat * tp.slicesY.toNat →
    let stream := parseInfo 0x00#8 (u32 (raw.length + 13)) 0#32 ++ raw ++
      parseInfo 0xE8#8 (u32 (body.length + 17)) (u32 (raw.length + 13)) ++ put32 pn ++ body ++
      parseInfo 0x10#8 0#32 (u32 (body.length + 17))
    ∃ t d2 units, exec (.pktPush stream pts dts) s = .next t ∧
      deliver t.tx d = some (d2, units) ∧ units.flatten = stream

/-! ### The whole machine -/

/-- Each instruction writes the registers of its own unit only, and none issues a request (10_state.md R16,
R29; 60_exceptions.md R248). -/
def Obligations.EachUnitWritesItsOwnState : Prop :=
  ∀ (i : Instr) (s t : State), exec i s = .next t →
    t.inbox = s.inbox ∧
    (ownerOf i ≠ .br → t.br = s.br) ∧
    (ownerOf i ≠ .pkt → t.pkt = s.pkt ∧ t.tx = s.tx ∧ t.freeCount = s.freeCount) ∧
    (ownerOf i ≠ .dpk → t.dpk = s.dpk)

/-- No unit's result depends on another unit's registers: replacing them before an instruction only replaces
them after it (10_state.md R29; 60_exceptions.md R248; 40_bitreader_vlc.md R101). -/
def Obligations.NoUnitReadsAnother : Prop :=
  ∀ (i : Instr) (s t : State) (r : Reader) (p : Pkt) (d : Dpk), exec i s = .next t →
    (ownerOf i = .br → exec i { s with pkt := p, dpk := d } = .next { t with pkt := p, dpk := d }) ∧
    (ownerOf i = .stateless → exec i { s with br := r, pkt := p, dpk := d } =
      .next { t with br := r, pkt := p, dpk := d }) ∧
    (ownerOf i = .pkt → exec i { s with br := r, dpk := d } = .next { t with br := r, dpk := d }) ∧
    (ownerOf i = .dpk → exec i { s with br := r, pkt := p } = .next { t with br := r, pkt := p })

/-- Events are only appended, and each event register holds the last event its own unit raised
(60_exceptions.md R233). -/
def Obligations.EventRegistersHoldTheLastEvent : Prop :=
  ∀ (i : Instr) (s t : State), exec i s = .next t → ∃ e, t.diag = s.diag ++ e ∧
    t.pkt.event = (if ownerOf i = .pkt then lastEvent s.pkt.event e else s.pkt.event) ∧
    t.dpk.event = (if ownerOf i = .dpk then lastEvent s.dpk.event e else s.dpk.event)

/-- Every well-formed instruction runs in every state; PU.EXTRACT and PU.FIND with `size` beyond the buffer are
refused, which is the model's stop for what the spec leaves outside (60_exceptions.md R242; log 17). -/
def Obligations.NoInstructionFails : Prop :=
  (∀ (i : Instr) (s : State), i.wellFormed = true → ∃ t, exec i s = .next t) ∧
  ∀ (buf : List Byte) (size offset : Nat) (s : State), buf.length < size →
    exec (.puExtract buf size offset) s = .refused .sizeBeyondBuffer ∧
    exec (.puFind buf size offset) s = .refused .sizeBeyondBuffer

/-- The state after reset meets the invariant (10_state.md R11, R17, R20, R21). -/
def Obligations.ResetMeetsTheInvariant : Prop := State.reset.ok

/-- Every step keeps the invariant: the cursor in its span, the cache and its decoded fields together, the
budget legal, the accumulator counted and empty outside a picture (10_state.md R11, R17, R20, R21, R23). -/
def Obligations.StepKeepsTheInvariant : Prop :=
  ∀ s t : State, s.ok → step s = .next t → t.ok

/-- Decoding the words of a well-formed instruction gives it back (30_encoding.md R61 to R74, R80, R82). -/
def Obligations.DecodeUndoesEncode : Prop :=
  ∀ i : Instr, i.wellFormed = true → decode (encode i) = .ok i

/-- Words written out from the encodings decode to their instructions: the command codes, all of them, and some
native headers, a wire payload and a VLC code; any other command code is rejected (30_encoding.md R62, R65, R66,
R70 to R74, R77, R80). Which operand slot a command reads is the model's choice (log 1). -/
def Obligations.WrittenWordsDecode : Prop :=
  (∀ o : Operands,
    decode (.command 0x10#8 o) = .ok (.brInit o.bytes) ∧ decode (.command 0x11#8 o) = .ok .brReadBit ∧
    decode (.command 0x12#8 o) = .ok .brReadBool ∧ decode (.command 0x13#8 o) = .ok .brReadUint ∧
    decode (.command 0x14#8 o) = .ok .brLength ∧ decode (.command 0x15#8 o) = .ok .brOverrun ∧
    decode (.command 0x20#8 o) = .ok (.shParse o.bytes) ∧
    decode (.command 0x21#8 o) = .ok (.shEqual o.bytes o.bytes2) ∧
    decode (.command 0x30#8 o) = .ok (.tpParse o.bytes) ∧
    decode (.command 0x40#8 o) = .ok (.puExtract o.bytes o.n1 o.n2) ∧
    decode (.command 0x41#8 o) = .ok (.puFind o.bytes o.n1 o.n2) ∧
    decode (.command 0x50#8 o) = .ok (.pktPush o.bytes o.n1 o.n2) ∧
    decode (.command 0x51#8 o) = .ok .pktReset ∧ decode (.command 0x52#8 o) = .ok (.pktSetMtu o.half) ∧
    decode (.command 0x60#8 o) = .ok (.dpkFrag o.bytes o.marker o.disc) ∧
    decode (.command 0x61#8 o) = .ok .dpkReset) ∧
  (∀ (code : Byte) (o : Operands),
    code ∉ [0x10#8, 0x11#8, 0x12#8, 0x13#8, 0x14#8, 0x15#8, 0x20#8, 0x21#8, 0x30#8, 0x40#8, 0x41#8, 0x50#8,
      0x51#8, 0x52#8, 0x60#8, 0x61#8] →
    decode (.command code o) = .rejected .unknownCommand) ∧
  decode (.unit [0x42, 0x42, 0x43, 0x44, 0xE8, 0, 0, 0, 0x67, 0, 0, 0, 0x11]) =
    .ok (.unitHqPicture 103#32 17#32) ∧
  decode (.unit [0x42, 0x42, 0x43, 0x44, 0xEC, 0, 0, 0, 0x0D, 0, 0, 0, 0x0E]) =
    .ok (.unitUnknown 0xEC#8 13#32 14#32) ∧
  decode (.fragment [0, 2, 3, 0xEC, 0, 0, 0, 7, 0, 0, 0, 1, 0, 4, 0, 1, 0, 0, 0, 0, 9, 0, 0, 0] true) =
    .ok (.fragHqSlices ⟨2#16, 3#8⟩ ⟨7#32, 0#16, 1#16, 4#16⟩ 1#16 [0, 0, 0, 0, 9, 0, 0, 0] true) ∧
  decode (.uintCode [false, true, false, false, false, true, true]) = .ok (.vlcUint [true, false, true])

/-- A step takes the oldest request and runs the instruction that its words decode to, on the state with the
outputs of the request before dropped: a command's words are its own, a unit's the 13 bytes at the buffer
head of a PKT in SYNC, a fragment's its payload, a code's the bits at the cursor (the model's doors, log 1,
log 2, log 3). -/
def Obligations.StepRunsTheDecodedInstruction : Prop :=
  ∀ (s : State) (rest : List Request) (i : Instr),
    let taken := { s with inbox := rest, resp := .nothing, tx := [], diag := [] }
    (∀ code ops, s.inbox = .command code ops :: rest → decode (.command code ops) = .ok i →
      step s = exec i taken) ∧
    (s.inbox = .unit :: rest → s.pkt.state = .sync → decode (.unit (s.pkt.buf.take 13)) = .ok i →
      step s = exec i taken) ∧
    (∀ payload marker, s.inbox = .fragment payload marker :: rest →
      decode (.fragment payload marker) = .ok i → step s = exec i taken) ∧
    (s.inbox = .boolCode :: rest → decode (.boolCode (bitsLeft s.br)) = .ok i → step s = exec i taken) ∧
    (s.inbox = .uintCode :: rest → decode (.uintCode (bitsLeft s.br)) = .ok i → step s = exec i taken)

/-- What a step does where its request gives no instruction: it idles with no request; ignores an unknown command
code; for a unit request, which is the model's own (log 3), it runs one acquisition while UNSYNC, and in SYNC
waits for a header or drops a byte and SYNC before a bad magic (log 18); for a fragment request, the model's own
too (log 3), it drops a payload too short to have a row (log 27) (30_encoding.md R77; 44_packetizer.md R170, R173;
45_depacketizer.md R201, R205; 60_exceptions.md R250; log 2, log 24). -/
def Obligations.StepWithoutAnInstruction : Prop :=
  ∀ (s : State) (rest : List Request),
    let taken := { s with inbox := rest, resp := .nothing, tx := [], diag := [] }
    (s.inbox = [] → step s = .next s) ∧
    (∀ code ops, s.inbox = .command code ops :: rest → decodeCommand code ops = none →
      step s = .next taken) ∧
    (s.inbox = .unit :: rest → s.pkt.state = .unsync →
      step s = .next (turnState (turn Config.encRejectPolicy taken))) ∧
    (s.inbox = .unit :: rest → s.pkt.state = .sync → s.pkt.buf.length < 13 → step s = .next taken) ∧
    (s.inbox = .unit :: rest → s.pkt.state = .sync → 13 ≤ s.pkt.buf.length → ¬magicAt s.pkt.buf 0 →
      step s = .next
        { taken with
          pkt := { s.pkt with state := .unsync, buf := s.pkt.buf.drop 1, event := 0x0101#16 }
          diag := [.malformedHeader .badMagic] }) ∧
    (∀ payload marker r, s.inbox = .fragment payload marker :: rest →
      decode (.fragment payload marker) = .rejected r →
      step s = .next
        { taken with
          dpk := { s.dpk with event := 0x0C01#16 }
          resp := .parseUnit none
          diag := [.malformedHeader .shortFragment] })

/-- What power-on leaves: the values of 10_state.md R30 and 70_reset_and_hazards.md R260; the fields they call
unspecified are not spoken of. -/
def Obligations.ResetGivesTheListedValues : Prop :=
  State.reset.br = ⟨[], 0, 0, false⟩ ∧
  State.reset.pkt.state = .unsync ∧ State.reset.pkt.buf = [] ∧ State.reset.pkt.cacheValid = false ∧
  State.reset.pkt.cache = [] ∧ State.reset.pkt.extSeq = 0#16 ∧ State.reset.pkt.mtu = 1500#16 ∧
  State.reset.pkt.event = 0#16 ∧
  State.reset.dpk.waiting = true ∧ State.reset.dpk.inPicture = false ∧ State.reset.dpk.acc = [] ∧
  State.reset.dpk.accBytes = 0#32 ∧ State.reset.dpk.lastOff = 0#32 ∧ State.reset.dpk.event = 0#16

/-- The status views by number, with `cache_il` read as 0 while nothing is cached (10_state.md R23). That the
bits of BR_STATUS, PKT_STATUS and DPK_STATUS above the listed fields read 0 is the model's choice (log 32). -/
def Obligations.StatusViewsShowTheRegisters : Prop :=
  ∀ s : State,
    statusView 0x10#8 s = some s.br.pos ∧ statusView 0x11#8 s = some s.br.len ∧
    statusView 0x12#8 s = some (if s.br.ovr then 1 else 0) ∧
    statusView 0x50#8 s = some s.pkt.mtu.toNat ∧
    statusView 0x51#8 s = some ((if s.pkt.state = .sync then 1 else 0) +
      (if s.pkt.cacheValid then (if s.pkt.cacheIl then 6 else 2) else 0)) ∧
    statusView 0x52#8 s = some s.pkt.extSeq.toNat ∧
    statusView 0x53#8 s = some s.pkt.buf.length ∧ statusView 0x54#8 s = some s.pkt.event.toNat ∧
    statusView 0x60#8 s = some ((if s.dpk.waiting then 1 else 0) + (if s.dpk.inPicture then 2 else 0)) ∧
    statusView 0x61#8 s = some s.dpk.curPn.toNat ∧ statusView 0x62#8 s = some s.dpk.accBytes.toNat ∧
    statusView 0x63#8 s = some s.dpk.lastOff.toNat ∧ statusView 0x64#8 s = some s.dpk.event.toNat

/-- The word of each event: bits 7:0 its code, bits 15:8 its cause (60_exceptions.md R231, R232; 10_state.md
R23). -/
def Obligations.EventWordsAreCodeAndCause : Prop :=
  eventWord (.malformedHeader .badMagic) = 0x0101#16 ∧ eventWord (.malformedHeader .badLink) = 0x0201#16 ∧
  eventWord (.malformedHeader .vlcOverrun) = 0x0301#16 ∧
  eventWord (.malformedHeader .badVersion) = 0x0401#16 ∧
  eventWord (.malformedHeader .badProfile) = 0x0501#16 ∧
  eventWord (.malformedHeader .badBaseFormat) = 0x0601#16 ∧
  eventWord (.malformedHeader .shortUnit) = 0x0701#16 ∧
  eventWord (.malformedHeader .fieldRange) = 0x0801#16 ∧
  eventWord (.malformedHeader .noSlices) = 0x0901#16 ∧
  eventWord (.malformedHeader .sliceBounds) = 0x0A01#16 ∧
  eventWord (.malformedHeader .mtuTooSmall) = 0x0B01#16 ∧
  eventWord (.malformedHeader .shortFragment) = 0x0C01#16 ∧ eventWord .needMore = 0x0102#16 ∧
  eventWord (.sequenceMismatch .lengthExceeds) = 0x0103#16 ∧
  eventWord (.sequenceMismatch .pictureNumber) = 0x0203#16 ∧
  eventWord (.sequenceMismatch .notInPicture) = 0x0303#16 ∧
  eventWord (.discontinuity .transportFlag) = 0x0104#16 ∧
  eventWord (.discontinuity .resetOp) = 0x0204#16
end

