-- ==== Sys2Proof/Laws/Bytes.lean ====
section
/-! SUPPORT. Byte order and slices: what is written is what is read, and how long it is; the canonical form
of the byte spaces. -/

namespace Sys2Proof

@[simp] theorem put16_length (v : Half) : (put16 v).length = 2 := rfl

@[simp] theorem put32_length (v : Word) : (put32 v).length = 4 := rfl

@[simp] theorem magic_length : magic.length = 4 := rfl

@[simp] theorem parseInfo_length (code : Byte) (npo ppo : Word) : (parseInfo code npo ppo).length = 13 := rfl

@[simp] theorem wirePrefix_length (head : WireHead) (tag : Byte) : (wirePrefix head tag).length = 4 := rfl

@[simp] theorem hqHeader_length (hq : HqHead) (n : Half) : (hqHeader hq n).length = 12 := rfl

/-- Two bytes of a half word, joined again. -/
theorem extract16 (v : Half) : v.extractLsb' 8 8 ++ v.extractLsb' 0 8 = v := by
  ext i hi
  simp only [BitVec.getElem_append, BitVec.getElem_extractLsb']
  split <;> rename_i h <;> simp [BitVec.getLsbD_eq_getElem hi]
  have : 8 + (i - 8) = i := by omega
  rw [this, BitVec.getLsbD_eq_getElem hi]

/-- Four bytes of a word, joined again. -/
theorem extract32 (v : Word) :
    (v.extractLsb' 24 8 ++ v.extractLsb' 16 8 : Half) ++
      (v.extractLsb' 8 8 ++ v.extractLsb' 0 8 : Half) = v := by
  ext i hi
  simp only [BitVec.getElem_append, BitVec.getElem_extractLsb']
  rw [← BitVec.getLsbD_eq_getElem hi]
  split
  · split
    · simp
    · congr 1; omega
  · split
    · congr 1; omega
    · congr 1; omega

/-- `be16` reads what `put16` wrote at the head of a sequence. -/
theorem be16_put16 (v : Half) (l : List Byte) : be16 (put16 v ++ l) 0 = v := extract16 v

/-- `be32` reads what `put32` wrote at the head of a sequence. -/
theorem be32_put32 (v : Word) (l : List Byte) : be32 (put32 v ++ l) 0 = v := extract32 v

/-- A field behind a known number of bytes. -/
theorem byteAt_append_right (a l : List Byte) (i : Nat) : byteAt (a ++ l) (a.length + i) = byteAt l i := by
  simp [byteAt, List.getElem?_append_right]

/-- A field inside the first part. -/
theorem byteAt_append_left (a l : List Byte) (i : Nat) (h : i < a.length) :
    byteAt (a ++ l) i = byteAt a i := by
  simp [byteAt, List.getElem?_append_left h]

/-- A byte behind dropped ones. -/
theorem byteAt_drop (l : List Byte) (n i : Nat) : byteAt (l.drop n) i = byteAt l (n + i) := by
  simp [byteAt]

/-- A word behind dropped bytes. -/
theorem be32_drop (l : List Byte) (n i : Nat) : be32 (l.drop n) i = be32 l (n + i) := by
  simp only [be32, be16, byteAt_drop, Nat.add_assoc]

/-- A byte inside the bytes taken. -/
theorem byteAt_take (l : List Byte) (n i : Nat) (h : i < n) : byteAt (l.take n) i = byteAt l i := by
  simp [byteAt, h]

/-- A word inside the bytes taken. -/
theorem be32_take (l : List Byte) (n i : Nat) (h : i + 4 ≤ n) : be32 (l.take n) i = be32 l i := by
  simp only [be32, be16]
  rw [byteAt_take _ _ _ (by omega), byteAt_take _ _ _ (by omega), byteAt_take _ _ _ (by omega),
    byteAt_take _ _ _ (by omega)]

/-- The fields of a regenerated header (30_encoding.md R65). -/
theorem parseInfo_fields (code : Byte) (npo ppo : Word) (l : List Byte) :
    hasMagic (parseInfo code npo ppo ++ l) = true ∧ byteAt (parseInfo code npo ppo ++ l) 4 = code ∧
      be32 (parseInfo code npo ppo ++ l) 5 = npo ∧ be32 (parseInfo code npo ppo ++ l) 9 = ppo := by
  refine ⟨rfl, rfl, extract32 npo, extract32 ppo⟩

/-- A sequence with the magic has at least four bytes. -/
theorem hasMagic_length {l : List Byte} (h : hasMagic l = true) : 4 ≤ l.length := by
  have h2 := congrArg List.length (eq_of_beq h)
  rw [List.length_take] at h2
  simp only [magic_length] at h2
  omega

/-- The magic lies in the first four bytes. -/
theorem hasMagic_take (l : List Byte) (n : Nat) (h : 4 ≤ n) : hasMagic (l.take n) = hasMagic l := by
  simp [hasMagic, List.take_take, Nat.min_eq_left h]

namespace Machine

@[simp] theorem slice_length (l : List Byte) (i j : Nat) : (slice l i j).length = min j l.length - i := by
  simp [slice]

/-- Appending two neighbouring slices gives the whole. -/
theorem slice_append (l : List Byte) (i j k : Nat) (hij : i ≤ j) (hjk : j ≤ k) (hk : k ≤ l.length) :
    slice l i j ++ slice l j k = slice l i k := by
  have h : l.take k = l.take j ++ (l.take k).drop j := by
    conv_lhs => rw [← List.take_append_drop j (l.take k)]
    rw [List.take_take, Nat.min_eq_left hjk]
  unfold slice
  rw [h, List.drop_append_of_le_length (by simp; omega),
    List.drop_append_of_le_length (by simp; omega)]
  simp only [List.append_cancel_left_eq]
  rw [List.drop_eq_nil_of_le (as := List.take j l) (by simp)]
  simp

/-- Every space is in canonical form, whatever operation wrote it (log 6). -/
theorem memory_wf (sp : Space) (s : State) : Memory.wf (memory sp s) = true := by
  have key : ∀ (l : List Byte) (k : Nat),
      ((l.zipIdx k).map fun c => ((c.2, c.1) : Host.Cell)).Pairwise fun a b => a.1 < b.1 := by
    intro l
    induction l with
    | nil => intro k; simp
    | cons b l ih =>
      intro k
      rw [List.zipIdx_cons, List.map_cons, List.pairwise_cons]
      refine ⟨?_, ih (k + 1)⟩
      intro a ha
      simp only [List.mem_map, Prod.exists] at ha
      obtain ⟨x, i, hx, rfl⟩ := ha
      have := List.le_snd_of_mem_zipIdx hx
      simpa using this
  exact decide_eq_true (key (spaceBytes sp s) 0)

/-- Equal spaces are equal lists of cells and the other way round (log 6). -/
theorem memory_inj (sp : Space) (s t : State) :
    memory sp s = memory sp t ↔ spaceBytes sp s = spaceBytes sp t := by
  constructor
  · intro h
    have h2 := congrArg (List.map Prod.snd) h
    simpa [memory, Function.comp_def] using h2
  · intro h; simp [memory, h]

/-- `MemRead` reads the bytes that the space holds there (20_memory.md R45). -/
theorem memRead_some (sp : Space) (addr n : Nat) (s : State) (l : List Byte)
    (h : memRead sp addr n s = some l) :
    l.length = n ∧ ∀ i < n, l[i]? = memByte sp (addr + i) s := by
  unfold memRead at h
  split at h
  · cases h
    refine ⟨by simp; omega, fun i hi => ?_⟩
    simp [slice, memByte, List.getElem?_drop, hi]
  · cases h

end Machine
end Sys2Proof
end

