-- ==== Sys2Proof/Laws/State.lean ====
section
/-! SUPPORT. One lemma per field per update of the state, each true by rfl, so that no proof unfolds a record
update. -/

namespace Sys2Proof.Machine

/-! #### withBr -/

@[simp] theorem withBr_br (s : State) (r : Reader) : (s.withBr r).br = r := rfl
@[simp] theorem withBr_pkt (s : State) (r : Reader) : (s.withBr r).pkt = s.pkt := rfl
@[simp] theorem withBr_dpk (s : State) (r : Reader) : (s.withBr r).dpk = s.dpk := rfl
@[simp] theorem withBr_inbox (s : State) (r : Reader) : (s.withBr r).inbox = s.inbox := rfl
@[simp] theorem withBr_resp (s : State) (r : Reader) : (s.withBr r).resp = s.resp := rfl
@[simp] theorem withBr_tx (s : State) (r : Reader) : (s.withBr r).tx = s.tx := rfl
@[simp] theorem withBr_diag (s : State) (r : Reader) : (s.withBr r).diag = s.diag := rfl
@[simp] theorem withBr_freeCount (s : State) (r : Reader) : (s.withBr r).freeCount = s.freeCount := rfl

/-! #### withPkt -/

@[simp] theorem withPkt_br (s : State) (p : Pkt) : (s.withPkt p).br = s.br := rfl
@[simp] theorem withPkt_pkt (s : State) (p : Pkt) : (s.withPkt p).pkt = p := rfl
@[simp] theorem withPkt_dpk (s : State) (p : Pkt) : (s.withPkt p).dpk = s.dpk := rfl
@[simp] theorem withPkt_inbox (s : State) (p : Pkt) : (s.withPkt p).inbox = s.inbox := rfl
@[simp] theorem withPkt_resp (s : State) (p : Pkt) : (s.withPkt p).resp = s.resp := rfl
@[simp] theorem withPkt_tx (s : State) (p : Pkt) : (s.withPkt p).tx = s.tx := rfl
@[simp] theorem withPkt_diag (s : State) (p : Pkt) : (s.withPkt p).diag = s.diag := rfl
@[simp] theorem withPkt_freeCount (s : State) (p : Pkt) : (s.withPkt p).freeCount = s.freeCount := rfl

/-! #### withDpk -/

@[simp] theorem withDpk_br (s : State) (d : Dpk) : (s.withDpk d).br = s.br := rfl
@[simp] theorem withDpk_pkt (s : State) (d : Dpk) : (s.withDpk d).pkt = s.pkt := rfl
@[simp] theorem withDpk_dpk (s : State) (d : Dpk) : (s.withDpk d).dpk = d := rfl
@[simp] theorem withDpk_inbox (s : State) (d : Dpk) : (s.withDpk d).inbox = s.inbox := rfl
@[simp] theorem withDpk_resp (s : State) (d : Dpk) : (s.withDpk d).resp = s.resp := rfl
@[simp] theorem withDpk_tx (s : State) (d : Dpk) : (s.withDpk d).tx = s.tx := rfl
@[simp] theorem withDpk_diag (s : State) (d : Dpk) : (s.withDpk d).diag = s.diag := rfl
@[simp] theorem withDpk_freeCount (s : State) (d : Dpk) : (s.withDpk d).freeCount = s.freeCount := rfl

/-! #### reply -/

@[simp] theorem reply_br (s : State) (r : Response) : (s.reply r).br = s.br := rfl
@[simp] theorem reply_pkt (s : State) (r : Response) : (s.reply r).pkt = s.pkt := rfl
@[simp] theorem reply_dpk (s : State) (r : Response) : (s.reply r).dpk = s.dpk := rfl
@[simp] theorem reply_inbox (s : State) (r : Response) : (s.reply r).inbox = s.inbox := rfl
@[simp] theorem reply_resp (s : State) (r : Response) : (s.reply r).resp = r := rfl
@[simp] theorem reply_tx (s : State) (r : Response) : (s.reply r).tx = s.tx := rfl
@[simp] theorem reply_diag (s : State) (r : Response) : (s.reply r).diag = s.diag := rfl
@[simp] theorem reply_freeCount (s : State) (r : Response) : (s.reply r).freeCount = s.freeCount := rfl

/-! #### note -/

@[simp] theorem note_br (s : State) (e : Event) : (s.note e).br = s.br := rfl
@[simp] theorem note_pkt (s : State) (e : Event) : (s.note e).pkt = s.pkt := rfl
@[simp] theorem note_dpk (s : State) (e : Event) : (s.note e).dpk = s.dpk := rfl
@[simp] theorem note_inbox (s : State) (e : Event) : (s.note e).inbox = s.inbox := rfl
@[simp] theorem note_resp (s : State) (e : Event) : (s.note e).resp = s.resp := rfl
@[simp] theorem note_tx (s : State) (e : Event) : (s.note e).tx = s.tx := rfl
@[simp] theorem note_diag (s : State) (e : Event) : (s.note e).diag = s.diag ++ [e] := rfl
@[simp] theorem note_freeCount (s : State) (e : Event) : (s.note e).freeCount = s.freeCount := rfl

/-! #### accept -/

@[simp] theorem accept_br (s : State) (l : List Request) : (s.accept l).br = s.br := rfl
@[simp] theorem accept_pkt (s : State) (l : List Request) : (s.accept l).pkt = s.pkt := rfl
@[simp] theorem accept_dpk (s : State) (l : List Request) : (s.accept l).dpk = s.dpk := rfl
@[simp] theorem accept_inbox (s : State) (l : List Request) : (s.accept l).inbox = l := rfl
@[simp] theorem accept_resp (s : State) (l : List Request) : (s.accept l).resp = .nothing := rfl
@[simp] theorem accept_tx (s : State) (l : List Request) : (s.accept l).tx = [] := rfl
@[simp] theorem accept_diag (s : State) (l : List Request) : (s.accept l).diag = [] := rfl
@[simp] theorem accept_freeCount (s : State) (l : List Request) : (s.accept l).freeCount = s.freeCount := rfl

/-! #### raisePkt -/

@[simp] theorem raisePkt_br (e : Event) (s : State) : (raisePkt e s).br = s.br := rfl
@[simp] theorem raisePkt_pkt (e : Event) (s : State) :
    (raisePkt e s).pkt =
    { s.pkt with event := eventWord e } := rfl
@[simp] theorem raisePkt_dpk (e : Event) (s : State) : (raisePkt e s).dpk = s.dpk := rfl
@[simp] theorem raisePkt_inbox (e : Event) (s : State) : (raisePkt e s).inbox = s.inbox := rfl
@[simp] theorem raisePkt_resp (e : Event) (s : State) : (raisePkt e s).resp = s.resp := rfl
@[simp] theorem raisePkt_tx (e : Event) (s : State) : (raisePkt e s).tx = s.tx := rfl
@[simp] theorem raisePkt_diag (e : Event) (s : State) : (raisePkt e s).diag = s.diag ++ [e] := rfl
@[simp] theorem raisePkt_freeCount (e : Event) (s : State) : (raisePkt e s).freeCount = s.freeCount := rfl

/-! #### raiseDpk -/

@[simp] theorem raiseDpk_br (e : Event) (s : State) : (raiseDpk e s).br = s.br := rfl
@[simp] theorem raiseDpk_pkt (e : Event) (s : State) : (raiseDpk e s).pkt = s.pkt := rfl
@[simp] theorem raiseDpk_dpk (e : Event) (s : State) :
    (raiseDpk e s).dpk =
    { s.dpk with event := eventWord e } := rfl
@[simp] theorem raiseDpk_inbox (e : Event) (s : State) : (raiseDpk e s).inbox = s.inbox := rfl
@[simp] theorem raiseDpk_resp (e : Event) (s : State) : (raiseDpk e s).resp = s.resp := rfl
@[simp] theorem raiseDpk_tx (e : Event) (s : State) : (raiseDpk e s).tx = s.tx := rfl
@[simp] theorem raiseDpk_diag (e : Event) (s : State) : (raiseDpk e s).diag = s.diag ++ [e] := rfl
@[simp] theorem raiseDpk_freeCount (e : Event) (s : State) : (raiseDpk e s).freeCount = s.freeCount := rfl

/-! #### appendBuf -/

@[simp] theorem appendBuf_br (data : List Byte) (p d : Nat) (s : State) :
    (appendBuf data p d s).br =
    s.br := rfl
@[simp] theorem appendBuf_pkt (data : List Byte) (p d : Nat) (s : State) :
    (appendBuf data p d s).pkt =
    { s.pkt with buf := s.pkt.buf ++ data, pts := p, dts := d } := rfl
@[simp] theorem appendBuf_dpk (data : List Byte) (p d : Nat) (s : State) :
    (appendBuf data p d s).dpk =
    s.dpk := rfl
@[simp] theorem appendBuf_inbox (data : List Byte) (p d : Nat) (s : State) :
    (appendBuf data p d s).inbox =
    s.inbox := rfl
@[simp] theorem appendBuf_resp (data : List Byte) (p d : Nat) (s : State) :
    (appendBuf data p d s).resp =
    s.resp := rfl
@[simp] theorem appendBuf_tx (data : List Byte) (p d : Nat) (s : State) :
    (appendBuf data p d s).tx =
    s.tx := rfl
@[simp] theorem appendBuf_diag (data : List Byte) (p d : Nat) (s : State) :
    (appendBuf data p d s).diag =
    s.diag := rfl
@[simp] theorem appendBuf_freeCount (data : List Byte) (p d : Nat) (s : State) :
    (appendBuf data p d s).freeCount =
    s.freeCount := rfl

/-! #### consume -/

@[simp] theorem consume_br (n : Nat) (s : State) : (consume n s).br = s.br := rfl
@[simp] theorem consume_pkt (n : Nat) (s : State) :
    (consume n s).pkt =
    { s.pkt with buf := s.pkt.buf.drop n } := rfl
@[simp] theorem consume_dpk (n : Nat) (s : State) : (consume n s).dpk = s.dpk := rfl
@[simp] theorem consume_inbox (n : Nat) (s : State) : (consume n s).inbox = s.inbox := rfl
@[simp] theorem consume_resp (n : Nat) (s : State) : (consume n s).resp = s.resp := rfl
@[simp] theorem consume_tx (n : Nat) (s : State) : (consume n s).tx = s.tx := rfl
@[simp] theorem consume_diag (n : Nat) (s : State) : (consume n s).diag = s.diag := rfl
@[simp] theorem consume_freeCount (n : Nat) (s : State) : (consume n s).freeCount = s.freeCount := rfl

/-! #### setSync -/

@[simp] theorem setSync_br (m : Sync) (s : State) : (setSync m s).br = s.br := rfl
@[simp] theorem setSync_pkt (m : Sync) (s : State) : (setSync m s).pkt = { s.pkt with state := m } := rfl
@[simp] theorem setSync_dpk (m : Sync) (s : State) : (setSync m s).dpk = s.dpk := rfl
@[simp] theorem setSync_inbox (m : Sync) (s : State) : (setSync m s).inbox = s.inbox := rfl
@[simp] theorem setSync_resp (m : Sync) (s : State) : (setSync m s).resp = s.resp := rfl
@[simp] theorem setSync_tx (m : Sync) (s : State) : (setSync m s).tx = s.tx := rfl
@[simp] theorem setSync_diag (m : Sync) (s : State) : (setSync m s).diag = s.diag := rfl
@[simp] theorem setSync_freeCount (m : Sync) (s : State) : (setSync m s).freeCount = s.freeCount := rfl

/-! #### replaceCache -/

@[simp] theorem replaceCache_br (raw : List Byte) (i : SeqInfo) (s : State) :
    (replaceCache raw i s).br =
    s.br := rfl
@[simp] theorem replaceCache_pkt (raw : List Byte) (i : SeqInfo) (s : State) :
    (replaceCache raw i s).pkt =
    { s.pkt with cacheValid := true, cache := raw, cacheW := i.pictureWidth, cacheH := i.pictureHeight, cacheIl := i.interlaced } := rfl
@[simp] theorem replaceCache_dpk (raw : List Byte) (i : SeqInfo) (s : State) :
    (replaceCache raw i s).dpk =
    s.dpk := rfl
@[simp] theorem replaceCache_inbox (raw : List Byte) (i : SeqInfo) (s : State) :
    (replaceCache raw i s).inbox =
    s.inbox := rfl
@[simp] theorem replaceCache_resp (raw : List Byte) (i : SeqInfo) (s : State) :
    (replaceCache raw i s).resp =
    s.resp := rfl
@[simp] theorem replaceCache_tx (raw : List Byte) (i : SeqInfo) (s : State) :
    (replaceCache raw i s).tx =
    s.tx := rfl
@[simp] theorem replaceCache_diag (raw : List Byte) (i : SeqInfo) (s : State) :
    (replaceCache raw i s).diag =
    s.diag := rfl
@[simp] theorem replaceCache_freeCount (raw : List Byte) (i : SeqInfo) (s : State) :
    (replaceCache raw i s).freeCount =
    s.freeCount := rfl

/-! #### dropCache -/

@[simp] theorem dropCache_br (s : State) : (dropCache s).br = s.br := rfl
@[simp] theorem dropCache_pkt (s : State) :
    (dropCache s).pkt =
    { s.pkt with cacheValid := false, cache := [], cacheW := Config.freeCacheW s.freeCount, cacheH := Config.freeCacheH s.freeCount, cacheIl := Config.freeCacheIl s.freeCount } := rfl
@[simp] theorem dropCache_dpk (s : State) : (dropCache s).dpk = s.dpk := rfl
@[simp] theorem dropCache_inbox (s : State) : (dropCache s).inbox = s.inbox := rfl
@[simp] theorem dropCache_resp (s : State) : (dropCache s).resp = s.resp := rfl
@[simp] theorem dropCache_tx (s : State) : (dropCache s).tx = s.tx := rfl
@[simp] theorem dropCache_diag (s : State) : (dropCache s).diag = s.diag := rfl
@[simp] theorem dropCache_freeCount (s : State) : (dropCache s).freeCount = s.freeCount + 1 := rfl

/-! #### emit -/

@[simp] theorem emit_br (il tag : Byte) (body : List Byte) (m : Bool) (s : State) :
    (emit il tag body m s).br =
    s.br := rfl
@[simp] theorem emit_pkt (il tag : Byte) (body : List Byte) (m : Bool) (s : State) :
    (emit il tag body m s).pkt =
    { s.pkt with extSeq := s.pkt.extSeq + 1#16 } := rfl
@[simp] theorem emit_dpk (il tag : Byte) (body : List Byte) (m : Bool) (s : State) :
    (emit il tag body m s).dpk =
    s.dpk := rfl
@[simp] theorem emit_inbox (il tag : Byte) (body : List Byte) (m : Bool) (s : State) :
    (emit il tag body m s).inbox =
    s.inbox := rfl
@[simp] theorem emit_resp (il tag : Byte) (body : List Byte) (m : Bool) (s : State) :
    (emit il tag body m s).resp =
    s.resp := rfl
@[simp] theorem emit_tx (il tag : Byte) (body : List Byte) (m : Bool) (s : State) :
    (emit il tag body m s).tx =
    s.tx ++ [⟨wirePrefix ⟨s.pkt.extSeq, il⟩ tag ++ body, m, s.pkt.pts, s.pkt.dts⟩] := rfl
@[simp] theorem emit_diag (il tag : Byte) (body : List Byte) (m : Bool) (s : State) :
    (emit il tag body m s).diag =
    s.diag := rfl
@[simp] theorem emit_freeCount (il tag : Byte) (body : List Byte) (m : Bool) (s : State) :
    (emit il tag body m s).freeCount =
    s.freeCount := rfl

/-! #### clearPkt -/

@[simp] theorem clearPkt_br (s : State) : (clearPkt s).br = s.br := rfl
@[simp] theorem clearPkt_pkt (s : State) :
    (clearPkt s).pkt =
    { (dropCache s).pkt with buf := [], state := .unsync, extSeq := 0#16, pts := Config.freePts s.freeCount, dts := Config.freeDts s.freeCount } := rfl
@[simp] theorem clearPkt_dpk (s : State) : (clearPkt s).dpk = s.dpk := rfl
@[simp] theorem clearPkt_inbox (s : State) : (clearPkt s).inbox = s.inbox := rfl
@[simp] theorem clearPkt_resp (s : State) : (clearPkt s).resp = s.resp := rfl
@[simp] theorem clearPkt_tx (s : State) : (clearPkt s).tx = s.tx := rfl
@[simp] theorem clearPkt_diag (s : State) : (clearPkt s).diag = s.diag := rfl
@[simp] theorem clearPkt_freeCount (s : State) : (clearPkt s).freeCount = s.freeCount + 1 := rfl

/-! #### appendData -/

@[simp] theorem appendData_br (data : List Byte) (s : State) : (appendData data s).br = s.br := rfl
@[simp] theorem appendData_pkt (data : List Byte) (s : State) : (appendData data s).pkt = s.pkt := rfl
@[simp] theorem appendData_dpk (data : List Byte) (s : State) :
    (appendData data s).dpk =
    { s.dpk with acc := s.dpk.acc ++ data, accBytes := s.dpk.accBytes + u32 data.length } := rfl
@[simp] theorem appendData_inbox (data : List Byte) (s : State) : (appendData data s).inbox = s.inbox := rfl
@[simp] theorem appendData_resp (data : List Byte) (s : State) : (appendData data s).resp = s.resp := rfl
@[simp] theorem appendData_tx (data : List Byte) (s : State) : (appendData data s).tx = s.tx := rfl
@[simp] theorem appendData_diag (data : List Byte) (s : State) : (appendData data s).diag = s.diag := rfl
@[simp] theorem appendData_freeCount (data : List Byte) (s : State) :
    (appendData data s).freeCount =
    s.freeCount := rfl

/-! #### abort -/

@[simp] theorem abort_br (s : State) : (abort s).br = s.br := rfl
@[simp] theorem abort_pkt (s : State) : (abort s).pkt = s.pkt := rfl
@[simp] theorem abort_dpk (s : State) :
    (abort s).dpk =
    { s.dpk with acc := [], accBytes := 0#32, inPicture := false } := rfl
@[simp] theorem abort_inbox (s : State) : (abort s).inbox = s.inbox := rfl
@[simp] theorem abort_resp (s : State) : (abort s).resp = s.resp := rfl
@[simp] theorem abort_tx (s : State) : (abort s).tx = s.tx := rfl
@[simp] theorem abort_diag (s : State) : (abort s).diag = s.diag := rfl
@[simp] theorem abort_freeCount (s : State) : (abort s).freeCount = s.freeCount := rfl

/-! #### discontinuity -/

@[simp] theorem discontinuity_br (c : Gap) (s : State) : (discontinuity c s).br = s.br := rfl
@[simp] theorem discontinuity_pkt (c : Gap) (s : State) : (discontinuity c s).pkt = s.pkt := rfl
@[simp] theorem discontinuity_dpk (c : Gap) (s : State) :
    (discontinuity c s).dpk =
    { s.dpk with acc := [], accBytes := 0#32, waiting := true, inPicture := false, lastOff := 0#32, event := eventWord (.discontinuity c) } := rfl
@[simp] theorem discontinuity_inbox (c : Gap) (s : State) : (discontinuity c s).inbox = s.inbox := rfl
@[simp] theorem discontinuity_resp (c : Gap) (s : State) : (discontinuity c s).resp = s.resp := rfl
@[simp] theorem discontinuity_tx (c : Gap) (s : State) : (discontinuity c s).tx = s.tx := rfl
@[simp] theorem discontinuity_diag (c : Gap) (s : State) :
    (discontinuity c s).diag =
    s.diag ++ [.discontinuity c] := rfl
@[simp] theorem discontinuity_freeCount (c : Gap) (s : State) :
    (discontinuity c s).freeCount =
    s.freeCount := rfl

/-! #### startPicture -/

@[simp] theorem startPicture_br (pn : Word) (s : State) : (startPicture pn s).br = s.br := rfl
@[simp] theorem startPicture_pkt (pn : Word) (s : State) : (startPicture pn s).pkt = s.pkt := rfl
@[simp] theorem startPicture_dpk (pn : Word) (s : State) :
    (startPicture pn s).dpk =
    { s.dpk with acc := [], accBytes := 0#32, inPicture := true, curPn := pn, waiting := false } := rfl
@[simp] theorem startPicture_inbox (pn : Word) (s : State) : (startPicture pn s).inbox = s.inbox := rfl
@[simp] theorem startPicture_resp (pn : Word) (s : State) : (startPicture pn s).resp = s.resp := rfl
@[simp] theorem startPicture_tx (pn : Word) (s : State) : (startPicture pn s).tx = s.tx := rfl
@[simp] theorem startPicture_diag (pn : Word) (s : State) : (startPicture pn s).diag = s.diag := rfl
@[simp] theorem startPicture_freeCount (pn : Word) (s : State) :
    (startPicture pn s).freeCount =
    s.freeCount := rfl

/-! #### emitPicture -/

@[simp] theorem emitPicture_br (s : State) : (emitPicture s).br = s.br := rfl
@[simp] theorem emitPicture_pkt (s : State) : (emitPicture s).pkt = s.pkt := rfl
@[simp] theorem emitPicture_dpk (s : State) :
    (emitPicture s).dpk =
    { s.dpk with lastOff := s.dpk.accBytes + u32 Config.picHdrLen, acc := [], accBytes := 0#32, inPicture := false } := rfl
@[simp] theorem emitPicture_inbox (s : State) : (emitPicture s).inbox = s.inbox := rfl
@[simp] theorem emitPicture_resp (s : State) :
    (emitPicture s).resp =
    .parseUnit (some (parseInfo 0xE8#8 (s.dpk.accBytes + u32 Config.picHdrLen) s.dpk.lastOff ++
      put32 s.dpk.curPn ++ s.dpk.acc)) := rfl
@[simp] theorem emitPicture_tx (s : State) : (emitPicture s).tx = s.tx := rfl
@[simp] theorem emitPicture_diag (s : State) : (emitPicture s).diag = s.diag := rfl
@[simp] theorem emitPicture_freeCount (s : State) : (emitPicture s).freeCount = s.freeCount := rfl

/-! #### noUnit -/

@[simp] theorem noUnit_br (s : State) : (noUnit s).br = s.br := rfl
@[simp] theorem noUnit_pkt (s : State) : (noUnit s).pkt = s.pkt := rfl
@[simp] theorem noUnit_dpk (s : State) : (noUnit s).dpk = s.dpk := rfl
@[simp] theorem noUnit_inbox (s : State) : (noUnit s).inbox = s.inbox := rfl
@[simp] theorem noUnit_resp (s : State) : (noUnit s).resp = .parseUnit none := rfl
@[simp] theorem noUnit_tx (s : State) : (noUnit s).tx = s.tx := rfl
@[simp] theorem noUnit_diag (s : State) : (noUnit s).diag = s.diag := rfl
@[simp] theorem noUnit_freeCount (s : State) : (noUnit s).freeCount = s.freeCount := rfl

/-! #### mismatch -/

@[simp] theorem mismatch_br (c : Mismatch) (s : State) : (mismatch c s).br = s.br := rfl
@[simp] theorem mismatch_pkt (c : Mismatch) (s : State) : (mismatch c s).pkt = s.pkt := rfl
@[simp] theorem mismatch_dpk (c : Mismatch) (s : State) :
    (mismatch c s).dpk =
    { s.dpk with acc := [], accBytes := 0#32, inPicture := false, event := eventWord (.sequenceMismatch c) } := rfl
@[simp] theorem mismatch_inbox (c : Mismatch) (s : State) : (mismatch c s).inbox = s.inbox := rfl
@[simp] theorem mismatch_resp (c : Mismatch) (s : State) : (mismatch c s).resp = .parseUnit none := rfl
@[simp] theorem mismatch_tx (c : Mismatch) (s : State) : (mismatch c s).tx = s.tx := rfl
@[simp] theorem mismatch_diag (c : Mismatch) (s : State) :
    (mismatch c s).diag =
    s.diag ++ [.sequenceMismatch c] := rfl
@[simp] theorem mismatch_freeCount (c : Mismatch) (s : State) : (mismatch c s).freeCount = s.freeCount := rfl

/-! #### shortFragment -/

@[simp] theorem shortFragment_br (s : State) : (shortFragment s).br = s.br := rfl
@[simp] theorem shortFragment_pkt (s : State) : (shortFragment s).pkt = s.pkt := rfl
@[simp] theorem shortFragment_dpk (s : State) :
    (shortFragment s).dpk =
    { s.dpk with event := eventWord (.malformedHeader .shortFragment) } := rfl
@[simp] theorem shortFragment_inbox (s : State) : (shortFragment s).inbox = s.inbox := rfl
@[simp] theorem shortFragment_resp (s : State) : (shortFragment s).resp = .parseUnit none := rfl
@[simp] theorem shortFragment_tx (s : State) : (shortFragment s).tx = s.tx := rfl
@[simp] theorem shortFragment_diag (s : State) :
    (shortFragment s).diag =
    s.diag ++ [.malformedHeader .shortFragment] := rfl
@[simp] theorem shortFragment_freeCount (s : State) : (shortFragment s).freeCount = s.freeCount := rfl

end Sys2Proof.Machine
end

