-- ==== Sys2Proof/Laws/BitReader.lean ====
section
/-! SUPPORT. What the bit reader can do: one bit, one loop of BR.READUINT, and the reader they leave. -/

namespace Sys2Proof.Machine

/-- One bit read: inside the span the bit at the cursor, at its end the sentinel. -/
theorem readBit_cases (r : Reader) :
    (r.pos < 8 * r.len ∧ readBit r = (spanBit r.span r.pos, { r with pos := r.pos + 1 })) ∨
      (8 * r.len ≤ r.pos ∧ readBit r = (true, { r with ovr := true })) := by
  unfold readBit
  split
  · exact .inl ⟨‹_›, rfl⟩
  · exact .inr ⟨by omega, rfl⟩

@[simp] theorem byteBits_length (b : Byte) : (byteBits b).length = 8 := by simp [byteBits]

@[simp] theorem spanBits_length (l : List Byte) : (spanBits l).length = 8 * l.length := by
  induction l with
  | nil => rfl
  | cons b l ih => simp [spanBits] at *; omega

/-- Bit `p` of a span in stream order is `SpanBit(p)` (20_memory.md R41). -/
theorem spanBits_get (l : List Byte) (p : Nat) (h : p < 8 * l.length) :
    (spanBits l)[p]? = some (spanBit l p) := by
  induction l generalizing p with
  | nil => simp at h
  | cons b l ih =>
    have hs : spanBits (b :: l) = byteBits b ++ spanBits l := rfl
    rw [hs]
    by_cases hp : p < 8
    · rw [List.getElem?_append_left (by simpa using hp)]
      have h0 : p / 8 = 0 := by omega
      have h1 : p % 8 = p := by omega
      simp [byteBits, hp, spanBit, byteAt, h0, h1]
    · rw [List.getElem?_append_right (by simp; omega), byteBits_length, ih (p - 8) (by simp at h; omega)]
      have h0 : p / 8 = (p - 8) / 8 + 1 := by omega
      have h1 : p % 8 = (p - 8) % 8 := by omega
      simp [spanBit, byteAt, h0, h1]

/-- No bits are left at the end of the span. -/
theorem bitsLeft_nil (r : Reader) (h : 8 * r.len ≤ r.pos) : bitsLeft r = [] := by
  rw [bitsLeft, List.drop_eq_nil_iff]
  exact le_trans (List.length_take_le _ _) h

/-- Before it, the next bit is the one at the cursor. -/
theorem bitsLeft_cons (r : Reader) (hl : r.len ≤ r.span.length) (h : r.pos < 8 * r.len) :
    bitsLeft r = spanBit r.span r.pos :: bitsLeft { r with pos := r.pos + 1 } := by
  have hb := spanBits_get r.span r.pos (by omega)
  have ht : ((spanBits r.span).take (8 * r.len))[r.pos]? = some (spanBit r.span r.pos) := by
    rw [List.getElem?_take_of_lt h, hb]
  obtain ⟨hlt, hv⟩ := List.getElem?_eq_some_iff.mp ht
  rw [bitsLeft, List.drop_eq_getElem_cons hlt, hv]
  rfl

/-- How many bits are left. -/
theorem bitsLeft_length (r : Reader) (hl : r.len ≤ r.span.length) :
    (bitsLeft r).length = 8 * r.len - r.pos := by
  simp [bitsLeft]; omega

/-- The accumulator of a code's data bits from a given start (40_bitreader_vlc.md R94). -/
def accFrom (acc : Word) (x : List Bool) : Word :=
  x.foldl (fun acc b => (acc <<< 1) ||| (BitVec.ofBool b).setWidth 32) acc

theorem codeAcc_eq (x : List Bool) : codeAcc x = accFrom 1#32 x := rfl

/-- After a bit inside the span, a code of `n` more bits. -/
theorem afterCode_succ (r : Reader) (n : Nat) (h : r.pos < 8 * r.len) :
    afterCode n { r with pos := r.pos + 1 } = afterCode (n + 1) r := by
  unfold afterCode
  simp only
  by_cases h2 : r.pos + (n + 1) ≤ 8 * r.len
  · rw [if_pos h2, if_pos (by omega)]
    have : r.pos + 1 + n = r.pos + (n + 1) := by omega
    rw [this]
  · rw [if_neg h2, if_neg (by omega)]
    have : max (r.pos + 1) (8 * r.len) = max r.pos (8 * r.len) := by omega
    rw [this]

/-- A code past the end of the span leaves the cursor there and the flag set. -/
theorem afterCode_over (r : Reader) (n : Nat) (h : r.pos = 8 * r.len) (hn : 0 < n) :
    afterCode n r = { r with ovr := true } := by
  unfold afterCode
  rw [if_neg (by omega)]
  have : max r.pos (8 * r.len) = r.pos := by omega
  rw [this]

/-- The loop of BR.READUINT reads the code that the bits left begin with, completed by sentinels
(30_encoding.md R64; 40_bitreader_vlc.md R98). The fuel suffices as soon as it exceeds the bits left. -/
theorem readUintLoop_code (fuel : Nat) (r : Reader) (acc : Word) (hl : r.len ≤ r.span.length)
    (hp : r.pos ≤ 8 * r.len) (hf : 8 * r.len - r.pos < fuel) :
    readUintLoop fuel acc r =
      (accFrom acc (uintCodeBits (bitsLeft r)) - 1#32,
        afterCode (2 * (uintCodeBits (bitsLeft r)).length + 1) r) := by
  induction fuel generalizing r acc with
  | zero => omega
  | succ fuel ih =>
    unfold readUintLoop
    rcases readBit_cases r with ⟨h, hb⟩ | ⟨h, hb⟩
    · rw [hb, bitsLeft_cons r hl h]
      cases hbit : spanBit r.span r.pos with
      | true =>
        simp only [uintCodeBits, accFrom, List.foldl_nil, List.length_nil]
        unfold afterCode
        rw [if_pos (by omega)]
      | false =>
        simp only
        rcases readBit_cases { r with pos := r.pos + 1 } with ⟨h1, hb1⟩ | ⟨h1, hb1⟩
        · simp only at h1 hb1
          rw [hb1, bitsLeft_cons { r with pos := r.pos + 1 } hl h1]
          simp only [uintCodeBits]
          rw [ih { r with pos := r.pos + 1 + 1 } _ hl h1 (by simp only; omega)]
          have e : 2 * (uintCodeBits (bitsLeft { r with pos := r.pos + 1 + 1 })).length + 1 + 1 + 1 =
              2 * (spanBit r.span (r.pos + 1) ::
                uintCodeBits (bitsLeft { r with pos := r.pos + 1 + 1 })).length + 1 := by
            simp only [List.length_cons]; omega
          rw [← e, ← afterCode_succ r _ h, ← afterCode_succ { r with pos := r.pos + 1 } _ h1]
          simp only [accFrom, List.foldl_cons]
        · simp only at h1 hb1
          rw [hb1, bitsLeft_nil { r with pos := r.pos + 1 } h1]
          simp only [uintCodeBits]
          have hpos : r.pos + 1 = 8 * r.len := by omega
          rw [ih { r with pos := r.pos + 1, ovr := true } _ hl (by simp only; omega) (by simp only; omega),
            bitsLeft_nil _ (by simp only; omega)]
          have e : 2 * [true].length + 1 = 1 + 1 + 1 := rfl
          rw [e, ← afterCode_succ r _ h, afterCode_over { r with pos := r.pos + 1 } _ hpos (by omega)]
          simp only [uintCodeBits, List.length_nil]
          rw [afterCode_over _ _ hpos (by omega)]
          simp only [accFrom, List.foldl_cons, List.foldl_nil]
    · have hpos : r.pos = 8 * r.len := by omega
      rw [hb, bitsLeft_nil r h]
      simp only [uintCodeBits, accFrom, List.foldl_nil, List.length_nil]
      rw [afterCode_over r _ hpos (by omega)]

/-- What a read leaves alone: the span, its length, and a flag already set; the cursor never moves back nor
past the end. -/
structure Reads (r t : Reader) : Prop where
  span : t.span = r.span
  len : t.len = r.len
  ovr : r.ovr = true → t.ovr = true
  pos : r.pos ≤ t.pos
  bound : r.pos ≤ 8 * r.len → t.pos ≤ 8 * t.len

theorem Reads.refl (r : Reader) : Reads r r := ⟨rfl, rfl, id, le_refl _, id⟩

theorem Reads.trans {r t u : Reader} (h : Reads r t) (h2 : Reads t u) : Reads r u :=
  ⟨h2.span.trans h.span, h2.len.trans h.len, fun x => h2.ovr (h.ovr x), le_trans h.pos h2.pos,
    fun x => h2.bound (h.bound x)⟩

theorem readBit_reads (r : Reader) : Reads r (readBit r).2 := by
  rcases readBit_cases r with ⟨h, hb⟩ | ⟨h, hb⟩ <;> rw [hb] <;>
    exact ⟨rfl, rfl, fun h => by first | exact h | rfl, by simp, by simp; try omega⟩

theorem readUintLoop_reads (fuel : Nat) (acc : Word) (r : Reader) :
    Reads r (readUintLoop fuel acc r).2 := by
  induction fuel generalizing acc r with
  | zero => exact Reads.refl r
  | succ fuel ih =>
    unfold readUintLoop
    have h1 := readBit_reads r
    split
    · rename_i heq; rw [heq] at h1; exact h1
    · rename_i r1 heq
      rw [heq] at h1
      have h2 := readBit_reads r1
      split
      rename_i b r2 heq2
      rw [heq2] at h2
      exact h1.trans (h2.trans (ih _ r2))

theorem readUint_reads (r : Reader) : Reads r (readUint r).2 := readUintLoop_reads _ _ r

/-- A read keeps the reader's invariant (10_state.md R11). -/
theorem Reads.ok {r t : Reader} (h : Reads r t) (hr : r.ok) : t.ok :=
  ⟨by rw [h.len, h.span]; exact hr.1, h.bound hr.2⟩

/-- A fresh reader meets the invariant (40_bitreader_vlc.md R91). -/
theorem freshReader_ok (span : List Byte) : (freshReader span).ok := ⟨rfl, by simp [freshReader]⟩

end Sys2Proof.Machine
end

