-- ==== Sys2Proof/Laws/Codes.lean ====
section
/-! SUPPORT. The value and the length of a VLC code, and what reading one is. -/

namespace Sys2Proof.Machine

/-- A data bit shifted into an accumulator (40_bitreader_vlc.md R94). -/
theorem u32_shift (a : Nat) (b : Bool) : (u32 a <<< 1) ||| (BitVec.ofBool b).setWidth 32 = u32
    (2 * a + b.toNat) := by
  have h : (u32 a <<< 1) &&& (BitVec.ofBool b).setWidth 32 = 0#32 := by
    ext i hi
    cases b <;> cases i <;> simp
  rw [← BitVec.add_eq_or_of_and_eq_zero _ _ h]
  apply BitVec.eq_of_toNat_eq
  cases b <;> simp [u32, Nat.shiftLeft_eq] <;> omega

/-- The accumulator of some data bits, as a number modulo 2^32. -/
theorem accFrom_u32 (x : List Bool) (a : Nat) :
    accFrom (u32 a) x = u32 (x.foldl (fun n b => 2 * n + b.toNat) a) := by
  induction x generalizing a with
  | nil => rfl
  | cons b x ih => simp only [accFrom, List.foldl_cons] at *; rw [u32_shift]; exact ih _

/-- Bits behind a value weigh as in binary. -/
theorem foldl_bits (x : List Bool) (a : Nat) :
    x.foldl (fun n b => 2 * n + b.toNat) a = a * 2 ^ x.length + bitsNat x := by
  induction x generalizing a with
  | nil => simp [bitsNat]
  | cons b x ih =>
    have h0 : bitsNat (b :: x) = b.toNat * 2 ^ x.length + bitsNat x := by
      rw [bitsNat, List.foldl_cons, ih]; simp
    rw [List.foldl_cons, ih, h0, List.length_cons, Nat.pow_succ]; ring

/-- The number of `k` bits is below `2^k`. -/
theorem bitsNat_lt (x : List Bool) : bitsNat x < 2 ^ x.length := by
  induction x with
  | nil => simp [bitsNat]
  | cons b x ih =>
    have h0 : bitsNat (b :: x) = b.toNat * 2 ^ x.length + bitsNat x := by
      rw [bitsNat, List.foldl_cons, foldl_bits]; simp
    have : b.toNat ≤ 1 := by cases b <;> simp
    rw [h0, List.length_cons, Nat.pow_succ]
    nlinarith [Nat.two_pow_pos x.length]

/-- A 1 at the end of a bit string. -/
theorem bitsNat_append_true (x : List Bool) : bitsNat (x ++ [true]) = 2 * bitsNat x + 1 := by
  simp [bitsNat]

/-- The value of a code from its data bits (40_bitreader_vlc.md R95). -/
theorem codeAcc_value (x : List Bool) : codeAcc x - 1#32 = u32 (2 ^ x.length + bitsNat x - 1) := by
  rw [codeAcc_eq, show (1#32) = u32 1 from rfl, accFrom_u32, foldl_bits, Nat.one_mul]
  have := Nat.two_pow_pos x.length
  apply BitVec.eq_of_toNat_eq
  simp [u32]; omega

/-- The data bits of a whole code. -/
theorem uintCodeBits_full (x rest : List Bool) : uintCodeBits (codePairs x ++ true :: rest) = x := by
  induction x with
  | nil => rfl
  | cons b x ih => simp [codePairs] at *; simp [uintCodeBits, ih]

/-- The data bits of a code cut before a decision bit. -/
theorem uintCodeBits_cut (x : List Bool) : uintCodeBits (codePairs x) = x := by
  induction x with
  | nil => rfl
  | cons b x ih => simp [codePairs] at *; simp [uintCodeBits, ih]

/-- The data bits of a code cut before a data bit: the sentinel is one (40_bitreader_vlc.md R98). -/
theorem uintCodeBits_cutInPair (x : List Bool) : uintCodeBits (codePairs x ++ [false]) = x ++ [true] := by
  induction x with
  | nil => rfl
  | cons b x ih => simp [codePairs] at *; simp [uintCodeBits, ih]

/-- Two bits for each data bit. -/
theorem codePairs_length (x : List Bool) : (codePairs x).length = 2 * x.length := by
  induction x with
  | nil => rfl
  | cons b x ih => simp [codePairs] at *; omega

/-- How many bits are left before the end of the span. -/
theorem bitsLeft_length_ok (r : Reader) (h : r.ok) : (bitsLeft r).length = 8 * r.len - r.pos :=
    bitsLeft_length r (le_of_eq h.1)

/-- BR.READUINT reads the code that the bits left begin with. -/
theorem readUint_code (r : Reader) (h : r.ok) :
    readUint r = (codeAcc (uintCodeBits (bitsLeft r)) - 1#32, afterCode (2 * (uintCodeBits
        (bitsLeft r)).length + 1) r) := by
  unfold readUint
  exact readUintLoop_code _ r _ (le_of_eq h.1) h.2 (by omega)

/-- BR.READBIT reads the first bit left, or the sentinel. -/
theorem readBit_code (r : Reader) (h : r.ok) : readBit r = (boolCodeBit (bitsLeft r), afterCode 1 r) := by
  have h2 := h.2
  rcases readBit_cases r with ⟨hp, hb⟩ | ⟨hp, hb⟩
  · rw [hb, bitsLeft_cons r (le_of_eq h.1) hp]; unfold afterCode; rw [if_pos (by omega)]; rfl
  · rw [hb, bitsLeft_nil r hp, afterCode_over r 1 (by omega) (by omega)]; rfl

/-- The data bits of a value, and their leading 1, write the value plus one (30_encoding.md R63). -/
theorem dataBits_value (v : Nat) : (dataBits v).length = Nat.log2 (v+1) ∧ 2 ^ Nat.log2 (v+1) + bitsNat
    (dataBits v) = v + 1 := by
  have key : ∀ (k n : Nat), bitsNat ((List.range k).reverse.map fun i => n.testBit i) = n % 2 ^ k := by
    intro k n
    induction k with
    | zero => simp [bitsNat, Nat.mod_one]
    | succ k ih =>
      rw [List.range_succ, List.reverse_append, List.map_append]
      simp only [List.reverse_singleton, List.map_cons, List.map_nil, List.singleton_append]
      rw [bitsNat, List.foldl_cons, foldl_bits, ih]
      simp only [Nat.mul_zero, Nat.zero_add, List.length_map, List.length_reverse, List.length_range]
      rw [Nat.mod_pow_succ, Nat.testBit_eq_decide_div_mod_eq]
      have := Nat.mod_two_eq_zero_or_one (n / 2 ^ k)
      rcases this with h | h
      · rw [h]; simp
      · rw [h]; simp; ring
  refine ⟨by simp [dataBits], ?_⟩
  rw [dataBits, key]
  have h1 : 2 ^ Nat.log2 (v+1) ≤ v + 1 := Nat.log2_self_le (by omega)
  have h2 : v + 1 < 2 ^ (Nat.log2 (v+1) + 1) := Nat.lt_log2_self
  rw [Nat.pow_succ] at h2
  rw [Nat.mod_eq_sub_mod h1, Nat.mod_eq_of_lt (by omega)]; omega

end Sys2Proof.Machine
end

