-- ==== Sys2Proof/Laws/Decoding.lean ====
section
/-! SUPPORT. What the decoder reads from words written as the encodings say. -/

namespace Sys2Proof.Machine

/-- The fields of a wire prefix (30_encoding.md R70). -/
theorem wirePrefix_fields (head : WireHead) (tag : Byte) (p : List Byte) :
   ¬ (wirePrefix head tag ++ p).length < 4 ∧ be16 (wirePrefix head tag ++ p) 0 = head.extSeq ∧ byteAt
       (wirePrefix head tag ++ p) 2 = head.interlace ∧
   byteAt (wirePrefix head tag ++ p) 3 = tag ∧ (wirePrefix head tag ++ p).drop 4 = p := by
  refine ⟨by simp, extract16 _, rfl, rfl, rfl⟩

/-- A payload behind a written prefix. -/
theorem parseFrag_wirePrefix (head : WireHead) (tag : Byte) (p : List Byte) : parseFrag
    (wirePrefix head tag ++ p) =
    match tag.toNat with
    | 0x00 => .sequenceHeader head p
    | 0x10 => .endOfSequence head p
    | 0xEC => parseHq head p
    | _ => .unknown head tag p := by
  obtain ⟨a, b, c, d, e⟩ := wirePrefix_fields head tag p
  unfold parseFrag
  rw [if_neg a]
  simp only [b, c, d, e] <;> rfl

/-- The fields of an HQ fragment header (30_encoding.md R73). -/
theorem hqHeader_fields (hq : HqHead) (n : Half) (rest : List Byte) : ¬ (hqHeader hq n ++ rest).length < 12 ∧
    hqHead (hqHeader hq n ++ rest) = hq ∧
   be16 (hqHeader hq n ++ rest) 10 = n ∧ (hqHeader hq n ++ rest).drop 12 = rest := by
  refine ⟨by simp, ?_, extract16 n, rfl⟩
  unfold hqHead
  have a : be32 (hqHeader hq n ++ rest) 0 = hq.pictureNumber := extract32 _
  have b : be16 (hqHeader hq n ++ rest) 4 = hq.slicePrefixBytes := extract16 _
  have c : be16 (hqHeader hq n ++ rest) 6 = hq.sliceSizeScalar := extract16 _
  have d : be16 (hqHeader hq n ++ rest) 8 = hq.fragmentLength := extract16 _
  rw [a, b, c, d]

/-- An HQ fragment behind a written prefix and header. -/
theorem parseFrag_hq (head : WireHead) (hq : HqHead) (n : Half) (rest : List Byte) :
   parseFrag (wirePrefix head 0xEC#8 ++ hqHeader hq n ++ rest) = if n =
       0#16 then .hqParams head hq rest else .hqSlices head hq n rest := by
  rw [List.append_assoc, parseFrag_wirePrefix]
  show parseHq _ _ = _
  obtain ⟨a, b, c, d⟩ := hqHeader_fields hq n rest
  unfold parseHq
  rw [if_neg a, b, c, d]

/-- A written parse-unit header (30_encoding.md R65). -/
theorem decode_parseInfo (code npo ppo) : decode (.unit (parseInfo code npo ppo)) = .ok
    (unitInstr code npo ppo) := by
  obtain ⟨a, b, c, d⟩ := parseInfo_fields code npo ppo []
  rw [List.append_nil] at a b c d
  simp only [decode, decodeUnit]
  rw [if_neg (by simp), if_pos a, b, c, d]

/-- A written `VLC.UINT` code (30_encoding.md R62). -/
theorem uintCodeBits_uintCode (x : List Bool) : uintCodeBits (uintCode x) = x := by
  induction x with
  | nil => rfl
  | cons b x ih => simp [uintCode, uintCodeBits, ih]

/-- One fragment delivered, then the others. -/
theorem deliver_cons (f : Fragment) (l : List Fragment) (s t u : State) (units) (he : exec
    (.dpkFrag f.payload f.marker false) s = .next t)
    (h : deliver l t = some (u, units)) : deliver (f :: l) s = some (u, unitsOut t.resp ++ units) := by
  simp only [deliver, he, h]; rfl

/-- Fragments delivered, then others. -/
theorem deliver_append (a b : List Fragment) (s t u : State) (x y) (h1 : deliver a s = some (t, x))
    (h2 : deliver b t = some (u, y)) :
    deliver (a ++ b) s = some (u, x ++ y) := by
  induction a generalizing s x with
  | nil => simp only [deliver] at h1; cases h1; exact h2
  | cons f a ih =>
    simp only [deliver] at h1
    split at h1
    · rename_i v hv
      cases hd : deliver a v with
      | none => rw [hd] at h1; cases h1
      | some p =>
        rw [hd] at h1; simp at h1
        obtain ⟨rfl, rfl⟩ := h1
        have := ih v p.2 hd
        rw [List.cons_append, deliver_cons f _ s v u _ hv this, List.append_assoc]
    · cases h1
    · cases h1

end Sys2Proof.Machine
end

