-- ==== Sys2Proof/Laws/Grammars.lean ====
section
/-! SUPPORT. What the two grammars can do with their private reader, and how they can end. -/

namespace Sys2Proof.Machine

theorem skipUint_reads (r : Reader) : Reads r (skipUint r) := readUint_reads r

theorem skipUints_reads (n : Nat) (r : Reader) : Reads r (skipUints n r) := by
  induction n generalizing r with
  | zero => exact Reads.refl r
  | succ n ih => exact (skipUint_reads r).trans (ih _)

theorem skipUntilOverrun_reads (n : Nat) (r : Reader) : Reads r (skipUntilOverrun n r) := by
  induction n generalizing r with
  | zero => exact Reads.refl r
  | succ n ih =>
    unfold skipUntilOverrun
    split
    · exact Reads.refl r
    · exact (skipUint_reads r).trans (ih _)

/-- A flagged block reads the flag, and the block if the flag is true. -/
theorem ifFlag_reads (block : Reader → Reader) (h : ∀ r, Reads r (block r)) (r : Reader) :
    Reads r (ifFlag block r) := by
  unfold ifFlag
  have h1 := readBit_reads r
  split <;> rename_i heq <;> rw [heq] at h1
  · exact h1.trans (h _)
  · exact h1

/-- An indexed block reads the index, and the block if the index is 0. -/
theorem ifIndexZero_reads (block : Reader → Reader) (h : ∀ r, Reads r (block r)) (r : Reader) :
    Reads r (ifIndexZero block r) := by
  unfold ifIndexZero
  have h1 := readUint_reads r
  split
  rename_i heq
  rw [heq] at h1
  split
  · exact h1.trans (h _)
  · exact h1

/-- The last override block: an index, and behind 0 three flagged values. -/
def skipSignalRange (r : Reader) : Reader :=
  ifFlag (skipUints 1) (ifFlag (skipUints 1) (ifFlag (skipUints 1) r))

theorem skipSignalRange_reads (r : Reader) : Reads r (skipSignalRange r) := by
  have f := fun r => ifFlag_reads (skipUints 1) (skipUints_reads 1) r
  unfold skipSignalRange
  generalize hf : ifFlag (skipUints 1) = g at f ⊢
  exact (f r).trans ((f (g r)).trans (f (g (g r))))

/-- Seven blocks that each only read. -/
theorem seven_reads (f1 f2 f3 f4 f5 f6 f7 : Reader → Reader) (h1 : ∀ r, Reads r (f1 r))
    (h2 : ∀ r, Reads r (f2 r)) (h3 : ∀ r, Reads r (f3 r)) (h4 : ∀ r, Reads r (f4 r))
    (h5 : ∀ r, Reads r (f5 r)) (h6 : ∀ r, Reads r (f6 r)) (h7 : ∀ r, Reads r (f7 r)) (r : Reader) :
    Reads r (f7 (f6 (f5 (f4 (f3 (f2 (f1 r))))))) :=
  (h1 r).trans <| (h2 _).trans <| (h3 _).trans <| (h4 _).trans <| (h5 _).trans <| (h6 _).trans (h7 _)

theorem skipOverrides_reads (r : Reader) : Reads r (skipOverrides r) :=
  have u := fun n => ifFlag_reads _ (skipUints_reads n)
  have i := fun n => ifFlag_reads _ (ifIndexZero_reads _ (skipUints_reads n))
  seven_reads _ _ _ _ _ _ _ (u 1) (u 1) (i 2) (i 2) (u 4) (i 4)
    (ifFlag_reads _ (ifIndexZero_reads _ skipSignalRange_reads)) r

theorem frameSize_reads (size : Word × Word) (r : Reader) : Reads r (frameSize size r).2 := by
  unfold frameSize
  have h1 := readBit_reads r
  split
  · rename_i r1 heq
    rw [heq] at h1
    exact h1.trans ((readUint_reads r1).trans (readUint_reads _))
  · rename_i heq; rw [heq] at h1; exact h1

theorem Reads.of_uint {r t : Reader} {v : Word} (h : readUint r = (v, t)) : Reads r t := by
  have := readUint_reads r
  rwa [h] at this

/-- The grammar of the sequence header only reads (41_sequence_header.md R110), already after its first
value. -/
theorem seqGrammar_reads_first (data : List Byte) :
    Reads (readUint (freshReader data)).2 (seqGrammar data).reader := by
  unfold seqGrammar
  rcases h1 : readUint (freshReader data) with ⟨a, r1⟩
  dsimp only
  rcases h2 : readUint (skipUint r1) with ⟨b, r2⟩
  dsimp only
  rcases h3 : readUint (skipUint r2) with ⟨c, r3⟩
  dsimp only
  rcases h4 : frameSize (presetSize c) r3 with ⟨d, r4⟩
  dsimp only
  rcases h5 : readUint (skipOverrides r4) with ⟨e, r5⟩
  dsimp only
  have k4 := frameSize_reads (presetSize c) r3
  rw [h4] at k4
  exact (skipUint_reads r1).trans <| (Reads.of_uint h2).trans <| (skipUint_reads r2).trans <|
    (Reads.of_uint h3).trans <| k4.trans <| (skipOverrides_reads r4).trans (Reads.of_uint h5)

theorem seqGrammar_reads (data : List Byte) : Reads (freshReader data) (seqGrammar data).reader :=
  (readUint_reads _).trans (seqGrammar_reads_first data)

/-- How the checks of the sequence header can end, in their order (41_sequence_header.md R118). -/
theorem seqChecks_cases (f : SeqFields) :
    (f.reader.ovr = true ∧ seqChecks f = .error .vlcOverrun) ∨
    (f.reader.ovr = false ∧ f.majorVersion ≠ 2#32 ∧ seqChecks f = .error .badVersion) ∨
    (f.reader.ovr = false ∧ f.majorVersion = 2#32 ∧ f.profile ≠ 3#32 ∧
      seqChecks f = .error .badProfile) ∨
    (f.reader.ovr = false ∧ f.majorVersion = 2#32 ∧ f.profile = 3#32 ∧ 23 ≤ f.baseVideoFormat.toNat ∧
      seqChecks f = .error .badBaseFormat) ∨
    (f.reader.ovr = false ∧ f.majorVersion = 2#32 ∧ f.profile = 3#32 ∧ f.baseVideoFormat.toNat < 23 ∧
      seqChecks f = .ok (if f.pictureCodingMode ≠ 0#32 then ⟨f.size.1, f.size.2 / 2#32, true⟩
        else ⟨f.size.1, f.size.2, false⟩)) := by
  unfold seqChecks
  cases hov : f.reader.ovr with
  | true => exact .inl ⟨rfl, rfl⟩
  | false =>
    by_cases h1 : f.majorVersion = 2#32
    · by_cases h2 : f.profile = 3#32
      · by_cases h3 : Config.nPreset ≤ f.baseVideoFormat.toNat
        · exact .inr (.inr (.inr (.inl ⟨rfl, h1, h2, h3, by simp [h1, h2, h3]⟩)))
        · refine .inr (.inr (.inr (.inr ⟨rfl, h1, h2, by simpa [Config.nPreset] using h3, ?_⟩)))
          by_cases h4 : f.pictureCodingMode = 0#32 <;> simp [h1, h2, h3, h4]
      · exact .inr (.inr (.inl ⟨rfl, h1, h2, by simp [h1, h2]⟩))
    · exact .inr (.inl ⟨rfl, h1, by simp [h1]⟩)

/-- An empty sequence header is an overrun (41_sequence_header.md R111). -/
theorem shParse_nil : shParse [] = .error .vlcOverrun := by
  have h : (readUint (freshReader [])).2.ovr = true := by decide
  simp [shParse, seqChecks, (seqGrammar_reads_first []).ovr h]

/-- The grammar of the transform parameters only reads (42_transform_parameters.md R130). -/
theorem tpGrammar_reads (qmSub : Nat) (data : List Byte) :
    Reads (freshReader data) (tpGrammar qmSub data).2 := by
  unfold tpGrammar
  rcases h1 : readUint (freshReader data) with ⟨a, r1⟩
  dsimp only
  rcases h2 : readUint r1 with ⟨b, r2⟩
  dsimp only
  rcases h3 : readUint r2 with ⟨c, r3⟩
  dsimp only
  rcases h4 : readUint r3 with ⟨d, r4⟩
  dsimp only
  rcases h5 : readUint r4 with ⟨e, r5⟩
  dsimp only
  rcases h6 : readUint r5 with ⟨f, r6⟩
  dsimp only
  exact (Reads.of_uint h1).trans <| (Reads.of_uint h2).trans <| (Reads.of_uint h3).trans <|
    (Reads.of_uint h4).trans <| (Reads.of_uint h5).trans <| (Reads.of_uint h6).trans <|
    ifFlag_reads _ (skipUntilOverrun_reads _) r6

/-- How TP.PARSE can end (42_transform_parameters.md R130). -/
theorem tpParse_cases (qmSub : Nat) (data : List Byte) :
    ((tpGrammar qmSub data).2.ovr = true ∧ tpParse qmSub data = none) ∨
      ((tpGrammar qmSub data).2.ovr = false ∧
        tpParse qmSub data = some (tpGrammar qmSub data).1) := by
  unfold tpParse
  cases h : (tpGrammar qmSub data).2.ovr with
  | true => exact .inl ⟨rfl, by simp⟩
  | false => exact .inr ⟨rfl, by simp⟩

/-- The reader `coded_size` is taken from (42_transform_parameters.md R131). -/
theorem tpGrammar_codedSize (qmSub : Nat) (data : List Byte) :
    (tpGrammar qmSub data).1.codedSize = bytesRead (tpGrammar qmSub data).2 := by
  unfold tpGrammar
  generalize readUint (freshReader data) = p1
  dsimp only

end Sys2Proof.Machine
end

