-- ==== Sys2Proof/Laws/Scanner.lean ====
section
/-! SUPPORT. What the scanner can answer, said once for each of its functions. -/

namespace Sys2Proof.Machine

/-- Whether position `p` of the bytes `l` holds the header that validates a unit at distance `d` before it
(43_parse_unit_scanner.md R148). -/
def links (l : List Byte) (p d : Nat) : Prop :=
  hasMagic (l.drop p) = true ∧ p + 13 ≤ l.length ∧ (be32 l (p + 9)).toNat = d

/-- A good answer of the forward scan names the first validating position, and the offset is its distance
from the unit. -/
theorem scanLink_good (offset c : Nat) (l : List Byte) (n : Word) (h : scanLink offset c l = .good n) :
    ∃ p, links l p (c + p - offset) ∧ n.toNat = c + p - offset ∧
      ∀ q < p, ¬links l q (c + q - offset) := by
  induction l generalizing c with
  | nil => simp [scanLink] at h
  | cons b l ih =>
    have later : scanLink offset (c + 1) l = .good n → ¬links (b :: l) 0 (c + 0 - offset) →
        ∃ p, links (b :: l) p (c + p - offset) ∧ n.toNat = c + p - offset ∧
          ∀ q < p, ¬links (b :: l) q (c + q - offset) := by
      intro h2 h0
      obtain ⟨p, ⟨hm, hl, hb⟩, hn, hmin⟩ := ih (c + 1) h2
      refine ⟨p + 1, ⟨hm, by simp; omega, ?_⟩, by omega, ?_⟩
      · have e : be32 (b :: l) (p + 1 + 9) = be32 l (p + 9) := by
          have := be32_drop (b :: l) 1 (p + 9)
          simpa [Nat.add_comm, Nat.add_left_comm, Nat.add_assoc] using this.symm
        rw [e, hb]; omega
      · intro q hq
        cases q with
        | zero => exact h0
        | succ q =>
          rintro ⟨hm2, hl2, hb2⟩
          refine hmin q (by omega) ⟨hm2, by simp at hl2; omega, ?_⟩
          have e : be32 (b :: l) (q + 1 + 9) = be32 l (q + 9) := by
            have := be32_drop (b :: l) 1 (q + 9)
            simpa [Nat.add_comm, Nat.add_left_comm, Nat.add_assoc] using this.symm
          rw [e] at hb2; omega
    unfold scanLink at h
    split at h
    · rename_i hm
      split at h
      · cases h
      · rename_i hlen
        split at h
        · rename_i hb
          cases h
          refine ⟨0, ⟨hm, by simpa [Config.hdrLen] using hlen, hb⟩, ?_, by omega⟩
          have hlt := (be32 (b :: l) 9).isLt
          rw [hb] at hlt
          simp [u32, Nat.mod_eq_of_lt hlt]
        · rename_i hb
          exact later h fun ⟨_, _, hb2⟩ => hb hb2
    · rename_i hm
      exact later h fun ⟨hm2, _, _⟩ => hm hm2

/-- The forward scan never rejects (43_parse_unit_scanner.md R148). -/
theorem scanLink_never_bad (offset c : Nat) (l : List Byte) : scanLink offset c l ≠ .bad := by
  induction l generalizing c with
  | nil => simp [scanLink]
  | cons b l ih =>
    unfold scanLink
    split
    · split
      · simp
      · split
        · simp
        · exact ih _
    · exact ih _

/-- What a good link says of a unit that is not an end of sequence: its validated offset is its header's own
unless that is 0, and the successor's header lies there, inside `size`, with its magic and the same distance
back (43_parse_unit_scanner.md R146, R148, R153). -/
theorem linkOf_good (buf : List Byte) (size offset : Nat) (code : Byte) (npo n : Word)
    (hs : size ≤ buf.length) (hc : code ≠ 0x10#8) (h : linkOf buf size offset code npo = .good n) :
    0 < n.toNat ∧ offset + n.toNat + 13 ≤ size ∧ hasMagic (buf.drop (offset + n.toNat)) = true ∧
      be32 buf (offset + n.toNat + 9) = n ∧ (npo ≠ 0#32 → n = npo) ∧ (npo = 0#32 → 13 ≤ n.toNat) := by
  unfold linkOf at h
  rw [if_neg hc] at h
  split at h
  · rename_i hz
    simp only at h
    split at h
    · cases h
    · rename_i hlen
      split at h
      · rename_i hm
        cases h
        simp only [Bool.and_eq_true, beq_iff_eq] at hm
        have hpos : 0 < npo.toNat := by
          rcases Nat.eq_zero_or_pos npo.toNat with h0 | h0
          · exact absurd (BitVec.eq_of_toNat_eq (by simpa using h0)) hz
          · exact h0
        exact ⟨hpos, by simpa [Config.hdrLen] using hlen, hm.1, hm.2, fun _ => rfl, fun e => absurd e hz⟩
      · cases h
  · rename_i hz
    obtain ⟨p, ⟨hm, hl, hb⟩, hn, -⟩ := scanLink_good _ _ _ _ h
    simp only [slice_length, Config.hdrLen] at hl hn hb
    have e1 : offset + n.toNat = offset + 13 + p := by omega
    have hin : offset + 13 + p + 13 ≤ size := by omega
    have hd : (slice buf (offset + 13) size).drop p = (buf.take size).drop (offset + 13 + p) := by
      simp [slice]
    refine ⟨by omega, by omega, ?_, ?_, fun e => absurd e hz, fun _ => by omega⟩
    · simp only [Config.hdrLen] at hm
      rw [hd, List.drop_take, hasMagic_take _ _ (by omega)] at hm
      rw [e1]; exact hm
    · have hb2 : be32 (slice buf (offset + 13) size) (p + 9) = be32 buf (offset + 13 + p + 9) := by
        simp only [slice]
        rw [be32_drop, be32_take _ _ _ (by omega)]
        congr 1
      rw [e1]
      apply BitVec.eq_of_toNat_eq
      rw [← hb2, hb, hn]

/-- The link of an end of sequence needs no successor (43_parse_unit_scanner.md R145). -/
theorem linkOf_endOfSequence (buf : List Byte) (size offset : Nat) (npo : Word) :
    linkOf buf size offset 0x10#8 npo = .good npo := by simp [linkOf]

/-- How PU.EXTRACT can end, in the order of its checks (43_parse_unit_scanner.md R142 to R148). -/
theorem puExtract_cases (buf : List Byte) (size offset : Nat) :
    (size < offset + 13 ∧ puExtract buf size offset = .more) ∨
    (offset + 13 ≤ size ∧ hasMagic (buf.drop offset) = false ∧
      puExtract buf size offset = .reject .badMagic) ∨
    (offset + 13 ≤ size ∧ hasMagic (buf.drop offset) = true ∧
      ((∃ n, linkOf buf size offset (byteAt buf (offset + 4)) (be32 buf (offset + 5)) = .good n ∧
          puExtract buf size offset =
            .found ⟨offset, byteAt buf (offset + 4), n, be32 buf (offset + 9)⟩) ∨
        (linkOf buf size offset (byteAt buf (offset + 4)) (be32 buf (offset + 5)) = .bad ∧
          puExtract buf size offset = .reject .badLink) ∨
        (linkOf buf size offset (byteAt buf (offset + 4)) (be32 buf (offset + 5)) = .more ∧
          puExtract buf size offset = .more))) := by
  unfold puExtract
  by_cases h1 : size < offset + Config.hdrLen
  · exact .inl ⟨h1, by rw [if_pos h1]⟩
  · rw [if_neg h1]
    have h1' : offset + 13 ≤ size := by simpa [Config.hdrLen] using h1
    cases hm : hasMagic (buf.drop offset) with
    | false => exact .inr (.inl ⟨h1', rfl, by simp⟩)
    | true =>
      refine .inr (.inr ⟨h1', rfl, ?_⟩)
      cases hl : linkOf buf size offset (byteAt buf (offset + 4)) (be32 buf (offset + 5)) with
      | good n => exact .inl ⟨n, rfl, by simp⟩
      | bad => exact .inr (.inl ⟨rfl, by simp⟩)
      | more => exact .inr (.inr ⟨rfl, by simp⟩)

/-- What PU.FIND found passes PU.EXTRACT, and begins with the magic (43_parse_unit_scanner.md R150). -/
theorem scanUnits_some (buf : List Byte) (size p : Nat) (l : List Byte) (q : Nat)
    (h : scanUnits buf size p l = some q) :
    p ≤ q ∧ q < p + l.length ∧ hasMagic (l.drop (q - p)) = true ∧
      isFound (puExtract buf size q) = true := by
  induction l generalizing p with
  | nil => simp [scanUnits] at h
  | cons b l ih =>
    unfold scanUnits at h
    split at h
    · rename_i hc
      cases h
      simp only [Bool.and_eq_true] at hc
      simpa using hc
    · obtain ⟨h1, h2, h3, h4⟩ := ih (p + 1) h
      refine ⟨by omega, by simp; omega, ?_, h4⟩
      have e : q - p = (q - (p + 1)) + 1 := by omega
      rw [e]; exact h3

end Sys2Proof.Machine
end

