-- ==== Sys2Proof/Laws/Packetizer.lean ====
section
/-! SUPPORT. What a run of the packetizer can do, said once: every shared operation of PKT inside PKT.PUSH is
a `PktRun`. -/

namespace Sys2Proof.Machine

theorem lastEvent_append (w : Half) (a b : List Event) :
    lastEvent (lastEvent w a) b = lastEvent w (a ++ b) := by
  rcases List.eq_nil_or_concat b with rfl | ⟨b', x, rfl⟩
  · simp [lastEvent]
  · simp [lastEvent]

/-- Whether the fragments `l` are numbered from `seq` on (44_packetizer.md R189) and carry the two
timestamps. -/
def numbered (seq : Half) (pts dts : Nat) (l : List Fragment) : Prop :=
  ∀ k f, l[k]? = some f →
    f.payload.take 2 = put16 (seq + BitVec.ofNat 16 k) ∧ f.pts = pts ∧ f.dts = dts

theorem numbered_append {seq : Half} {pts dts : Nat} {a b : List Fragment} (ha : numbered seq pts dts a)
    (hb : numbered (seq + BitVec.ofNat 16 a.length) pts dts b) : numbered seq pts dts (a ++ b) := by
  intro k f hf
  rcases Nat.lt_or_ge k a.length with hk | hk
  · rw [List.getElem?_append_left hk] at hf
    exact ha k f hf
  · rw [List.getElem?_append_right hk] at hf
    obtain ⟨h1, h2⟩ := hb _ f hf
    refine ⟨?_, h2⟩
    have e : a.length + (k - a.length) = k := by omega
    rw [h1, BitVec.add_assoc, ← BitVec.ofNat_add, e]

/-- From `s` to `t` by operations of PKT inside one call of PKT.PUSH: the other units, the request queue,
the response, the budget and the timestamps stay; fragments and events are only appended, the fragments
numbered by the counter; the event register follows the events; the buffer only loses bytes at its
head. -/
structure PktRun (s t : State) : Prop where
  br : t.br = s.br
  dpk : t.dpk = s.dpk
  inbox : t.inbox = s.inbox
  resp : t.resp = s.resp
  mtu : t.pkt.mtu = s.pkt.mtu
  pts : t.pkt.pts = s.pkt.pts
  dts : t.pkt.dts = s.pkt.dts
  ok : s.pkt.ok → t.pkt.ok
  tx : ∃ l, t.tx = s.tx ++ l ∧ t.pkt.extSeq = s.pkt.extSeq + BitVec.ofNat 16 l.length ∧
    numbered s.pkt.extSeq s.pkt.pts s.pkt.dts l
  diag : ∃ e, t.diag = s.diag ++ e ∧ t.pkt.event = lastEvent s.pkt.event e
  buf : t.pkt.buf <:+ s.pkt.buf

theorem numbered_nil (seq : Half) (pts dts : Nat) : numbered seq pts dts [] := by
  intro k f h; simp at h

theorem PktRun.refl (s : State) : PktRun s s :=
  ⟨rfl, rfl, rfl, rfl, rfl, rfl, rfl, id, ⟨[], by simp [numbered_nil]⟩, ⟨[], by simp [lastEvent]⟩,
    List.suffix_refl _⟩

theorem PktRun.trans {s t u : State} (a : PktRun s t) (b : PktRun t u) : PktRun s u := by
  obtain ⟨l, hl, hseq, hnum⟩ := a.tx
  obtain ⟨l2, hl2, hseq2, hnum2⟩ := b.tx
  obtain ⟨e, he, hev⟩ := a.diag
  obtain ⟨e2, he2, hev2⟩ := b.diag
  refine ⟨b.br.trans a.br, b.dpk.trans a.dpk, b.inbox.trans a.inbox, b.resp.trans a.resp,
    b.mtu.trans a.mtu, b.pts.trans a.pts, b.dts.trans a.dts, fun h => b.ok (a.ok h),
    ⟨l ++ l2, ?_, ?_, numbered_append hnum ?_⟩, ⟨e ++ e2, ?_, ?_⟩, b.buf.trans a.buf⟩
  · rw [hl2, hl, List.append_assoc]
  · rw [hseq2, hseq, BitVec.add_assoc, ← BitVec.ofNat_add, List.length_append]
  · rw [← hseq, ← a.pts, ← a.dts]; exact hnum2
  · rw [he2, he, List.append_assoc]
  · rw [hev2, hev, lastEvent_append]

/-- A change of the packetizer's registers alone. -/
theorem PktRun.of_pkt {s : State} {p : Pkt} (hm : p.mtu = s.pkt.mtu) (hp : p.pts = s.pkt.pts)
    (hd : p.dts = s.pkt.dts) (he : p.event = s.pkt.event) (hs : p.extSeq = s.pkt.extSeq)
    (hok : s.pkt.ok → p.ok) (hb : p.buf <:+ s.pkt.buf) : PktRun s (s.withPkt p) :=
  ⟨rfl, rfl, rfl, rfl, hm, hp, hd, hok, ⟨[], by simp [hs, numbered_nil]⟩, ⟨[], by simp [he, lastEvent]⟩, hb⟩

theorem raisePkt_run (e : Event) (s : State) : PktRun s (raisePkt e s) :=
  ⟨rfl, rfl, rfl, rfl, rfl, rfl, rfl, id, ⟨[], by simp [numbered_nil]⟩, ⟨[e], by simp [lastEvent]⟩,
    List.suffix_refl _⟩

theorem consume_run (n : Nat) (s : State) : PktRun s (consume n s) :=
  .of_pkt rfl rfl rfl rfl rfl id (List.drop_suffix _ _)

theorem setSync_run (m : Sync) (s : State) : PktRun s (setSync m s) :=
  .of_pkt rfl rfl rfl rfl rfl id (List.suffix_refl _)

theorem dropCache_run (s : State) : PktRun s (dropCache s) :=
  ⟨rfl, rfl, rfl, rfl, rfl, rfl, rfl, fun h => ⟨fun _ => rfl, fun h => Bool.noConfusion h, h.2.2⟩,
    ⟨[], by simp [numbered_nil]⟩, ⟨[], by simp [lastEvent]⟩, List.suffix_refl _⟩

/-- The cache is replaced by bytes and their own decoding (44_packetizer.md R178). -/
theorem replaceCache_run (raw : List Byte) (i : SeqInfo) (s : State) (h : shParse raw = .ok i) :
    PktRun s (replaceCache raw i s) :=
  .of_pkt rfl rfl rfl rfl rfl (fun hok => ⟨fun h => Bool.noConfusion h, fun _ => h, hok.2.2⟩) (List.suffix_refl _)

theorem emit_run (il tag : Byte) (body : List Byte) (m : Bool) (s : State) :
    PktRun s (emit il tag body m s) := by
  refine ⟨rfl, rfl, rfl, rfl, rfl, rfl, rfl, id, ⟨_, emit_tx il tag body m s, ?_, ?_⟩,
    ⟨[], by simp [lastEvent]⟩, List.suffix_refl _⟩
  · simp
  · intro k f hf
    cases k with
    | succ k => simp at hf
    | zero =>
      simp only [List.getElem?_cons_zero, Option.some.injEq] at hf
      subst hf
      refine ⟨?_, rfl, rfl⟩
      simp only [BitVec.add_zero, wirePrefix, List.append_assoc]
      rfl

theorem emitParams_run (g : Picture) (s : State) : PktRun s (emitParams g s) := emit_run _ _ _ _ _

theorem emitSlices_run (g : Picture) (k : Packing) (m : Bool) (s : State) :
    PktRun s (emitSlices g k m s) := emit_run _ _ _ _ _

theorem emitGroups_run (g : Picture) (l : List Packing) (s : State) : PktRun s (emitGroups g l s) := by
  induction l generalizing s with
  | nil => exact .refl s
  | cons k l ih => exact (emitSlices_run g k _ s).trans (ih _)

theorem packSlices_run (g : Picture) (list : List (Nat × Nat)) (s : State) :
    PktRun s (packSlices g list s) := emitGroups_run _ _ _

theorem sequenceHeaderBody_run (raw : List Byte) (s : State) : PktRun s (sequenceHeaderBody raw s) := by
  unfold sequenceHeaderBody
  split
  · exact raisePkt_run _ _
  · rename_i i h
    refine PktRun.trans ?_ (emit_run _ _ _ _ _)
    split
    · exact replaceCache_run raw i s h
    · exact .refl s

/-- After the unit's bytes are taken (44_packetizer.md R175). -/
theorem unitSequenceHeader_consumed (n : Nat) (s : State) : PktRun (consume n s) (unitSequenceHeader n s) := by
  unfold unitSequenceHeader
  split
  · exact raisePkt_run _ _
  · exact sequenceHeaderBody_run _ _

theorem hqPictureBody_run (pn : Word) (body : List Byte) (s : State) :
    PktRun s (hqPictureBody pn body s) := by
  unfold hqPictureBody
  split
  · exact raisePkt_run _ _
  · split
    · exact raisePkt_run _ _
    · exact (emitParams_run _ s).trans (packSlices_run _ _ _)

/-- After the unit's bytes are taken (44_packetizer.md R175). -/
theorem unitHqPicture_consumed (n : Nat) (s : State) : PktRun (consume n s) (unitHqPicture n s) := by
  unfold unitHqPicture
  split
  · exact raisePkt_run _ _
  · exact hqPictureBody_run _ _ _

/-- After the 13 bytes of the header are taken (44_packetizer.md R186). -/
theorem unitEndOfSequence_consumed (s : State) :
    PktRun (consume Config.hdrLen s) (unitEndOfSequence s) :=
  (setSync_run _ _).trans ((dropCache_run _).trans (emit_run _ _ _ _ _))

/-- After the unit's bytes are taken (44_packetizer.md R175). -/
theorem unitSkip_consumed (n : Nat) (s : State) : PktRun (consume n s) (unitSkip n s) := by
  unfold unitSkip
  split
  · exact raisePkt_run _ _
  · exact .refl _

/-- The bytes a unit of a kind takes: its validated offset, or 13 for an end of sequence (44_packetizer.md
R175, R186). -/
def unitBytes (kind : UnitKind) (n : Nat) : Nat :=
  match kind with
  | .sequenceHeader => n
  | .endOfSequence => Config.hdrLen
  | .auxiliary => n
  | .padding => n
  | .hqPicture => n
  | .unknown => n

/-- A unit operation first takes the unit's bytes (44_packetizer.md R175). -/
theorem unitOp_consumed (kind : UnitKind) (n : Nat) (s : State) :
    PktRun (consume (unitBytes kind n) s) (unitOp kind n s) := by
  cases kind
  · exact unitSequenceHeader_consumed n s
  · exact unitEndOfSequence_consumed s
  · exact unitSkip_consumed n s
  · exact unitSkip_consumed n s
  · exact unitHqPicture_consumed n s
  · exact unitSkip_consumed n s

theorem unitOp_run (kind : UnitKind) (n : Nat) (s : State) : PktRun s (unitOp kind n s) :=
  (consume_run _ s).trans (unitOp_consumed kind n s)

theorem rejectHead_run (policy : RejectPolicy) (cause : Malformed) (s : State) :
    PktRun s (turnState (rejectHead policy cause s)) := by
  cases policy
  · exact (raisePkt_run _ s).trans ((consume_run 1 _).trans (setSync_run _ _))
  · exact raisePkt_run _ s

theorem stepDecoded_run (policy : RejectPolicy) (code : Byte) (npo : Word) (s : State) :
    PktRun s (turnState (stepDecoded policy code npo s)) := by
  unfold stepDecoded
  split
  · exact raisePkt_run _ s
  · split
    · exact raisePkt_run _ s
    · exact rejectHead_run policy _ s
    · exact unitOp_run _ _ s

theorem stepUnit_run (policy : RejectPolicy) (s : State) : PktRun s (turnState (stepUnit policy s)) := by
  unfold stepUnit
  split
  · exact raisePkt_run _ s
  · exact rejectHead_run policy _ s
  · exact unitOp_run _ _ s

theorem acquire_run (s : State) : PktRun s (turnState (acquire s)) := by
  unfold acquire
  split
  · exact raisePkt_run _ s
  · exact (consume_run _ s).trans (setSync_run _ _)

theorem turn_run (policy : RejectPolicy) (s : State) : PktRun s (turnState (turn policy s)) := by
  unfold turn
  split
  · exact acquire_run s
  · split
    · exact .refl s
    · exact stepUnit_run policy s

/-- Any number of turns. -/
theorem runTurns_run (policy : RejectPolicy) (fuel : Nat) (s : State) :
    PktRun s (runTurns policy fuel s) := by
  induction fuel generalizing s with
  | zero => exact .refl s
  | succ fuel ih =>
    have h := turn_run policy s
    unfold runTurns
    split <;> rename_i t heq <;> rw [heq] at h
    · exact h
    · exact h.trans (ih t)

/-! ### Why the loop ends (46_arithmetic_and_control.md R293, log 23) -/

/-- What decreases from turn to turn: an acquisition leaves UNSYNC, every other turn takes a byte. -/
def turnMeasure (s : State) : Nat := 2 * s.pkt.buf.length + (if s.pkt.state = .unsync then 1 else 0)

/-- Equal kinds are equal codes, for an end of sequence (30_encoding.md R66). -/
theorem unitKind_endOfSequence {code : Byte} (h : unitKind code = .endOfSequence) : code = 0x10#8 := by
  unfold unitKind at h
  split at h <;> cases h
  rename_i hc
  exact BitVec.eq_of_toNat_eq hc

/-- A found unit takes at least one of the bytes there are. -/
theorem found_unitBytes (s : State) (u : ParseUnit)
    (h : puExtract s.pkt.buf s.pkt.buf.length 0 = .found u) :
    0 < unitBytes (unitKind u.parseCode) u.nextParseOffset.toNat ∧ 0 < s.pkt.buf.length := by
  rcases puExtract_cases s.pkt.buf s.pkt.buf.length 0 with
    ⟨_, h2⟩ | ⟨_, _, h2⟩ | ⟨hlen, _, ⟨n, hl, h2⟩ | ⟨_, h2⟩ | ⟨_, h2⟩⟩ <;> rw [h2] at h <;> cases h
  refine ⟨?_, by omega⟩
  simp only
  by_cases hc : byteAt s.pkt.buf (0 + 4) = 0x10#8
  · rw [hc]; exact Nat.succ_pos 12
  · have := (linkOf_good _ _ _ _ _ _ (Nat.le_refl _) hc hl).1
    cases hk : unitKind (byteAt s.pkt.buf (0 + 4)) <;> simp only [unitBytes] <;> first
      | exact this
      | exact absurd (unitKind_endOfSequence hk) hc

/-- Every turn that goes on makes the measure smaller. -/
theorem turn_decreases (policy : RejectPolicy) (s t : State) (h : turn policy s = .more t) :
    turnMeasure t < turnMeasure s := by
  have sync : ∀ {u : State}, (if u.pkt.state = .unsync then 1 else 0) ≤ 1 := by
    intro u; split <;> omega
  unfold turn at h
  split at h
  · rename_i hs
    unfold acquire at h
    split at h
    · cases h
    · rename_i p _
      cases h
      simp [turnMeasure, hs, setSync]
  · rename_i hs
    split at h
    · cases h
    · rename_i hlen
      have hlen2 : 13 ≤ s.pkt.buf.length := by simpa [Config.hdrLen] using hlen
      unfold stepUnit at h
      split at h
      · cases h
      · cases policy
        · simp only [rejectHead] at h
          cases h
          simp [turnMeasure, hs, setSync]
          omega
        · simp [rejectHead] at h
      · rename_i u hu
        cases h
        obtain ⟨h1, h2⟩ := found_unitBytes s u hu
        have h3 := (unitOp_consumed (unitKind u.parseCode) u.nextParseOffset.toNat s).buf.length_le
        simp only [consume_pkt, List.length_drop] at h3
        have h4 := @sync (unitOp (unitKind u.parseCode) u.nextParseOffset.toNat s)
        simp only [turnMeasure, hs]
        split at h4 <;> simp_all <;> omega

/-- With fuel beyond the measure, the loop ends at a turn that waits: the bound is never what ends it. -/
theorem runTurns_waits (policy : RejectPolicy) (fuel : Nat) (s : State) (h : turnMeasure s < fuel) :
    ∃ t, turn policy t = .wait (runTurns policy fuel s) ∧ PktRun s t := by
  induction fuel generalizing s with
  | zero => omega
  | succ fuel ih =>
    have hr := turn_run policy s
    unfold runTurns
    split <;> rename_i t heq <;> rw [heq] at hr
    · exact ⟨s, heq, .refl s⟩
    · obtain ⟨u, hu, hru⟩ := ih t (by have := turn_decreases policy s t heq; omega)
      exact ⟨u, hu, hr.trans hru⟩

/-- The fuel of PKT.PUSH is beyond the measure. -/
theorem turnMeasure_lt_fuel (s : State) : turnMeasure s < turnFuel s := by
  unfold turnMeasure turnFuel
  split <;> omega

end Sys2Proof.Machine
end

