-- ==== Sys2Proof/Laws/Depacketizer.lean ====
section
/-! SUPPORT. What an operation of the depacketizer can do, said once. -/

namespace Sys2Proof.Machine

/-- From `s` to `t` by operations of DPK: the other units, the request queue, the fragments and the free
values stay; events are only appended and the event register follows them. -/
structure DpkRun (s t : State) : Prop where
  br : t.br = s.br
  pkt : t.pkt = s.pkt
  inbox : t.inbox = s.inbox
  tx : t.tx = s.tx
  freeCount : t.freeCount = s.freeCount
  ok : s.dpk.ok → t.dpk.ok
  diag : ∃ e, t.diag = s.diag ++ e ∧ t.dpk.event = lastEvent s.dpk.event e

theorem DpkRun.refl (s : State) : DpkRun s s :=
  ⟨rfl, rfl, rfl, rfl, rfl, id, ⟨[], by simp [lastEvent]⟩⟩

theorem DpkRun.trans {s t u : State} (a : DpkRun s t) (b : DpkRun t u) : DpkRun s u := by
  obtain ⟨e, he, hev⟩ := a.diag
  obtain ⟨e2, he2, hev2⟩ := b.diag
  refine ⟨b.br.trans a.br, b.pkt.trans a.pkt, b.inbox.trans a.inbox, b.tx.trans a.tx,
    b.freeCount.trans a.freeCount, fun h => b.ok (a.ok h), ⟨e ++ e2, ?_, ?_⟩⟩
  · rw [he2, he, List.append_assoc]
  · rw [hev2, hev, lastEvent_append]

/-- A change of the depacketizer's registers alone. -/
theorem DpkRun.of_dpk {s : State} {d : Dpk} (he : d.event = s.dpk.event) (hok : s.dpk.ok → d.ok) :
    DpkRun s (s.withDpk d) :=
  ⟨rfl, rfl, rfl, rfl, rfl, hok, ⟨[], by simp [lastEvent, he]⟩⟩

theorem reply_dpkRun (r : Response) (s : State) : DpkRun s (s.reply r) :=
  ⟨rfl, rfl, rfl, rfl, rfl, id, ⟨[], by simp [lastEvent]⟩⟩

theorem raiseDpk_run (e : Event) (s : State) : DpkRun s (raiseDpk e s) :=
  ⟨rfl, rfl, rfl, rfl, rfl, id, ⟨[e], by simp [lastEvent]⟩⟩

theorem u32_length_append (a b : List Byte) : u32 (a ++ b).length = u32 a.length + u32 b.length := by
  simp [u32, BitVec.ofNat_add]

/-- Data reaches the accumulator only inside a picture (45_depacketizer.md R208, R209). -/
theorem appendData_run (data : List Byte) (s : State) (h : s.dpk.inPicture = true) :
    DpkRun s (appendData data s) := by
  refine .of_dpk rfl fun hok => ⟨?_, fun h2 => ?_⟩
  · rw [u32_length_append, ← hok.1]
  · simp [h] at h2

theorem abort_run (s : State) : DpkRun s (abort s) := .of_dpk rfl fun _ => ⟨rfl, fun _ => rfl⟩

theorem startPicture_run (pn : Word) (s : State) : DpkRun s (startPicture pn s) :=
  .of_dpk rfl fun _ => ⟨rfl, fun _ => rfl⟩

theorem discontinuity_run (cause : Gap) (s : State) : DpkRun s (discontinuity cause s) :=
  DpkRun.trans (t := s.withDpk { (discontinuity cause s).dpk with event := s.dpk.event })
    (.of_dpk rfl fun _ => ⟨rfl, fun _ => rfl⟩) (raiseDpk_run (.discontinuity cause) _)

theorem emitPicture_run (s : State) : DpkRun s (emitPicture s) :=
  DpkRun.trans (t := s.withDpk (emitPicture s).dpk) (.of_dpk rfl fun _ => ⟨rfl, fun _ => rfl⟩)
    (reply_dpkRun _ _)

theorem noUnit_run (s : State) : DpkRun s (noUnit s) := reply_dpkRun _ s

theorem mismatch_run (cause : Mismatch) (s : State) : DpkRun s (mismatch cause s) :=
  (raiseDpk_run _ s).trans ((abort_run _).trans (noUnit_run _))

theorem shortFragment_run (s : State) : DpkRun s (shortFragment s) :=
  (raiseDpk_run _ s).trans (noUnit_run _)

theorem fragSequenceHeader_run (p : List Byte) (s : State) : DpkRun s (fragSequenceHeader p s) :=
  DpkRun.trans (t := s.withDpk (fragSequenceHeader p s).dpk) (.of_dpk rfl fun h => h) (reply_dpkRun _ _)

theorem fragEndOfSequence_run (s : State) : DpkRun s (fragEndOfSequence s) :=
  DpkRun.trans (t := s.withDpk (fragEndOfSequence s).dpk) (.of_dpk rfl fun h => h) (reply_dpkRun _ _)

theorem takeData_run (data : List Byte) (marker : Bool) (s : State) (h : s.dpk.inPicture = true) :
    DpkRun s (takeData data marker s) := by
  unfold takeData
  split
  · exact (appendData_run data s h).trans (emitPicture_run _)
  · exact (appendData_run data s h).trans (noUnit_run _)

theorem fragHqParams_run (hq : HqHead) (rest : List Byte) (marker : Bool) (s : State) :
    DpkRun s (fragHqParams hq rest marker s) := by
  unfold fragHqParams
  split
  · exact mismatch_run _ s
  · exact (startPicture_run _ s).trans (takeData_run _ _ _ rfl)

theorem fragHqSlices_run (hq : HqHead) (rest : List Byte) (marker : Bool) (s : State) :
    DpkRun s (fragHqSlices hq rest marker s) := by
  unfold fragHqSlices
  split
  · exact mismatch_run _ s
  · split
    · exact mismatch_run _ s
    · rename_i h
      split
      · exact mismatch_run _ s
      · exact takeData_run _ _ s (by simpa using h)

theorem fragOp_run (payload : List Byte) (marker : Bool) (s : State) :
    DpkRun s (fragOp payload marker s) := by
  unfold fragOp
  split
  · exact shortFragment_run s
  · exact shortFragment_run s
  · exact fragSequenceHeader_run _ s
  · exact fragEndOfSequence_run s
  · exact fragHqParams_run _ _ _ s
  · exact fragHqSlices_run _ _ _ s
  · exact noUnit_run s

end Sys2Proof.Machine
end

