-- ==== Sys2Proof/Laws/Units.lean ====
section
/-! SUPPORT. The scans of PUS in terms of the buffer, and the unit at the buffer head of PKT. -/

namespace Sys2Proof.Machine

/-- The two ways to say that the magic lies at a position. -/
theorem magicAt_iff (buf : List Byte) (p : Nat) : magicAt buf p ↔ hasMagic (buf.drop p) = true := by
  unfold magicAt hasMagic slice
  rw [List.drop_take]
  simp

/-- A word inside a slice. -/
theorem be32_slice (buf : List Byte) (i j k : Nat) (h : i + k + 4 ≤ j) : be32 (slice buf i j) k = be32 buf
    (i + k) := by
  unfold slice; rw [be32_drop, be32_take _ _ _ (by omega)]

/-- The forward scan finds the first validating position (43_parse_unit_scanner.md R148). -/
theorem scanLink_spec (offset c : Nat) (l : List Byte) (hc : offset ≤ c) :
    (∀ p, links l p (c + p - offset) → (∀ q < p, ¬ links l q (c + q - offset)) → scanLink offset c l = .good
        (u32 (c + p - offset))) ∧
    ((∀ p, ¬ links l p (c + p - offset)) → scanLink offset c l = .more) := by
  induction l generalizing c with
  | nil =>
    refine ⟨fun p hp => ?_, fun _ => rfl⟩
    have := hp.2.1; simp at this
  | cons b l ih =>
    have shift : ∀ p d, links (b :: l) (p + 1) d ↔ links l p d := by
      intro p d
      have e : be32 (b :: l) (p + 1 + 9) = be32 l (p + 9) := by
        have := be32_drop (b :: l) 1 (p + 9)
        simpa [Nat.add_comm, Nat.add_left_comm, Nat.add_assoc] using this.symm
      unfold links
      rw [e]
      simp only [List.drop_succ_cons, List.length_cons]
      constructor
      · rintro ⟨a, b, c⟩; exact ⟨a, by omega, c⟩
      · rintro ⟨a, b, c⟩; exact ⟨a, by omega, c⟩
    have a2 : ∀ p, c + (p + 1) - offset = c + 1 + p - offset := fun p => by omega
    have later : (¬ links (b :: l) 0 (c + 0 - offset)) → scanLink offset c (b :: l) = scanLink offset
        (c + 1) l →
      (∀ p, links (b :: l) p (c + p - offset) → (∀ q < p, ¬ links (b :: l) q (c + q - offset)) →
          scanLink offset c (b :: l) = .good (u32 (c + p - offset))) ∧
      ((∀ p, ¬ links (b :: l) p (c + p - offset)) → scanLink offset c (b :: l) = .more) := by
      intro h0 hs
      obtain ⟨i1, i2⟩ := ih (c + 1) (by omega)
      constructor
      · intro p hp hmin
        cases p with
        | zero => exact absurd hp h0
        | succ p =>
          rw [shift, a2] at hp
          rw [hs, a2]
          refine i1 p hp fun q hq hl => ?_
          refine hmin (q + 1) (by omega) ?_
          rw [shift, a2]; exact hl
      · intro hn
        rw [hs]
        refine i2 fun p hp => hn (p + 1) ?_
        rw [shift, a2]; exact hp
    have z : links (b :: l) 0 (c + 0 - offset) ↔ hasMagic (b :: l) = true ∧ 13 ≤ (b :: l).length ∧ (be32
        (b :: l) 9).toNat = c - offset := by
      simp [links]
    by_cases hm : hasMagic (b :: l) = true
    · by_cases hl : (b :: l).length < Config.hdrLen
      · have hs : scanLink offset c (b :: l) = .more := by
          unfold scanLink; rw [if_pos hm, if_pos hl]
        refine ⟨fun p hp => ?_, fun _ => hs⟩
        have := hp.2.1; simp [Config.hdrLen] at hl this; omega
      · by_cases hb : (be32 (b :: l) 9).toNat = c - offset
        · have hs : scanLink offset c (b :: l) = .good (u32 (c - offset)) := by
            unfold scanLink; rw [if_pos hm, if_neg hl, if_pos hb]
          have h0 : links (b :: l) 0 (c + 0 - offset) := z.mpr ⟨hm, by simpa [Config.hdrLen] using hl, hb⟩
          refine ⟨fun p hp hmin => ?_, fun hn => absurd h0 (hn 0)⟩
          cases p with
          | zero => exact hs
          | succ p => exact absurd h0 (hmin 0 (by omega))
        · refine later (fun h => hb (z.mp h).2.2) ?_
          conv_lhs => unfold scanLink
          rw [if_pos hm, if_neg hl, if_neg hb]
    · refine later (fun h => hm (z.mp h).1) ?_
      conv_lhs => unfold scanLink
      rw [if_neg hm]

/-- A validating position of the bytes scanned, in terms of the buffer. -/
theorem links_slice (buf : List Byte) (size base p d : Nat) (hs : size ≤ buf.length) :
    links (slice buf base size) p d ↔ (base + p + 13 ≤ size ∧ magicAt buf (base + p) ∧ (be32 buf
        (base + p + 9)).toNat = d) := by
  have hd : (slice buf base size).drop p = (buf.take size).drop (base + p) := by simp [slice]
  unfold links
  rw [hd, magicAt_iff, slice_length]
  constructor
  · rintro ⟨a, b, c⟩
    have hb : base + p + 13 ≤ size := by omega
    rw [List.drop_take, hasMagic_take _ _ (by omega)] at a
    rw [be32_slice _ _ _ _ (by omega)] at c
    exact ⟨hb, a, c⟩
  · rintro ⟨b, a, c⟩
    rw [List.drop_take, hasMagic_take _ _ (by omega)]
    rw [be32_slice _ _ _ _ (by omega)]
    exact ⟨a, by omega, c⟩

/-- The search of PU.FIND finds the first accepted position (43_parse_unit_scanner.md R150). -/
theorem scanUnits_spec (buf : List Byte) (size p : Nat) (l : List Byte) :
    (∀ q, q < l.length → hasMagic (l.drop q) = true ∧ isFound (puExtract buf size (p + q)) = true →
      (∀ r < q, ¬ (hasMagic (l.drop r) = true ∧ isFound (puExtract buf size (p + r)) = true)) →
          scanUnits buf size p l = some (p + q)) ∧
    ((∀ q < l.length, ¬ (hasMagic (l.drop q) = true ∧ isFound (puExtract buf size (p + q)) = true)) →
        scanUnits buf size p l = none) := by
  induction l generalizing p with
  | nil => exact ⟨fun q h => by simp at h, fun _ => rfl⟩
  | cons b l ih =>
    obtain ⟨i1, i2⟩ := ih (p + 1)
    by_cases h : (hasMagic (b :: l) && isFound (puExtract buf size p)) = true
    · have hs : scanUnits buf size p (b :: l) = some p := by unfold scanUnits; rw [if_pos h]
      simp only [Bool.and_eq_true] at h
      refine ⟨fun q hq hp hmin => ?_, fun hn => absurd h (hn 0 (by simp))⟩
      cases q with
      | zero => exact hs
      | succ q => exact absurd h (hmin 0 (by omega))
    · have hs : scanUnits buf size p (b :: l) = scanUnits buf size (p + 1) l := by
        conv_lhs => unfold scanUnits
        rw [if_neg h]
      simp only [Bool.and_eq_true] at h
      have a : ∀ q, p + 1 + q = p + (q + 1) := fun q => by omega
      constructor
      · intro q hq hp hmin
        cases q with
        | zero => exact absurd hp h
        | succ q =>
          rw [hs, ← a q]
          exact i1 q (by simpa using hq) (by rw [a]; exact hp)
              (fun r hr => by rw [a]; exact hmin (r + 1) (by omega))
      · intro hn
        rw [hs]
        exact i2 fun q hq => by rw [a]; exact hn (q + 1) (by simpa using hq)

/-- What it is to be found. -/
theorem isFound_iff (e : Extracted) : isFound e = true ↔ ∃ u, e = .found u := by
  cases e <;> simp [isFound]

/-- An accepted header lies inside `size` (43_parse_unit_scanner.md R142). -/
theorem found_inside {buf : List Byte} {size p : Nat} (h : isFound (puExtract buf size p) =
    true) : p + 13 ≤ size := by
  rcases puExtract_cases buf size p with ⟨_, e⟩ | ⟨h2, _⟩ | ⟨h2, _⟩
  · rw [e] at h; cases h
  · exact h2
  · exact h2

/-- A byte below `size` of buffers that agree below `size`. -/
theorem byteAt_same (a b : List Byte) (size i : Nat) (h : a.take size = b.take size)
    (hi : i < size) : byteAt a i = byteAt b i := by
  rw [← byteAt_take a size i hi, h, byteAt_take b size i hi]

/-- A word below `size` of buffers that agree below `size`. -/
theorem be32_same (a b : List Byte) (size i : Nat) (h : a.take size = b.take size)
    (hi : i + 4 ≤ size) : be32 a i = be32 b i := by
  rw [← be32_take a size i hi, h, be32_take b size i hi]

/-- The magic below `size` of buffers that agree below `size`. -/
theorem hasMagic_same (a b : List Byte) (size i : Nat) (h : a.take size = b.take size)
    (hi : i + 4 ≤ size) : hasMagic (a.drop i) = hasMagic (b.drop i) := by
  have h1 := hasMagic_take (a.drop i) (size - i) (by omega)
  have h2 := hasMagic_take (b.drop i) (size - i) (by omega)
  rw [← h1, ← h2, ← List.drop_take, ← List.drop_take, h]

/-- The fields of the header at the buffer head (30_encoding.md R65). -/
theorem headFields {code : Byte} {npo ppo : Word} {l : List Byte} (h : l.take 13 = parseInfo code npo ppo) :
    13 ≤ l.length ∧ hasMagic l = true ∧ byteAt l 4 = code ∧ be32 l 5 = npo ∧ be32 l 9 = ppo := by
  have hl : 13 ≤ l.length := by
    have := congrArg List.length h; simp at this; omega
  have e : l = parseInfo code npo ppo ++ l.drop 13 := by rw [← h, List.take_append_drop]
  obtain ⟨a, b, c, d⟩ := parseInfo_fields code npo ppo (l.drop 13)
  rw [← e] at a b c d
  exact ⟨hl, a, b, c, d⟩

/-- The link of an accepted unit at the buffer head. -/
theorem unitAtHead_link {code : Byte} {npo ppo n : Word} {s : State} (h : unitAtHead code npo ppo n s) :
    13 ≤ s.pkt.buf.length ∧ linkOf s.pkt.buf s.pkt.buf.length 0 code npo = .good n := by
  obtain ⟨h1, h2⟩ := h
  obtain ⟨hl, hm, hc, hn, hp⟩ := headFields h1
  refine ⟨hl, ?_⟩
  rcases puExtract_cases s.pkt.buf s.pkt.buf.length 0 with
    ⟨_, e⟩ | ⟨_, _, e⟩ | ⟨_, _, ⟨m, hlk, e⟩ | ⟨_, e⟩ | ⟨_, e⟩⟩ <;> rw [e] at h2 <;> cases h2
  simpa [hc, hn] using hlk

/-- An accepted unit at the buffer head runs its unit operation (44_packetizer.md R172). -/
theorem stepDecoded_good {code : Byte} {npo ppo n : Word} {s : State} (h : unitAtHead code npo ppo n s) :
    stepDecoded Config.encRejectPolicy code npo s = .more (unitOp (unitKind code) n.toNat s) := by
  obtain ⟨h1, h2⟩ := unitAtHead_link h
  unfold stepDecoded
  rw [if_neg (by simp [Config.hdrLen]; omega), h2]

/-- A header's instruction is one `StepUnit` (44_packetizer.md R172). -/
theorem exec_unitInstr (code : Byte) (npo ppo : Word) (s : State) :
    exec (unitInstr code npo ppo) s = .next (turnState (stepDecoded Config.encRejectPolicy code npo s)) := by
  unfold unitInstr
  have k : ∀ kd c, unitKind code = kd → (∀ x, unitKind x = kd → x = c) → code = c := fun kd c h1 h2 => h2 _ h1
  have z : ∀ (n : Nat) (x : Byte), x.toNat = n → x = BitVec.ofNat 8 n := fun n x h => by rw [← h]; simp
  unfold unitKind
  split <;> (rename_i h; split at h <;> cases h) <;> first
    | rfl
    | (rename_i h; rw [z _ _ h]; rfl)

/-- The picture number and the body of a long enough picture unit (44_packetizer.md R179). -/
theorem unitHqPicture_body {n : Nat} {s : State} (hn : 17 ≤ n) : unitHqPicture n s =
    hqPictureBody (be32 s.pkt.buf 13) (slice s.pkt.buf 17 n) (consume n s) := by
  unfold unitHqPicture
  rw [if_neg (by simp [Config.picHdrLen]; omega)]
  have raw : (headUnit n s).drop Config.picHdrLen = slice s.pkt.buf 17 n := by
    simp [headUnit, slice, Config.picHdrLen]
  rw [raw]
  have : be32 (headUnit n s) 13 = be32 s.pkt.buf 13 := by
    unfold headUnit; rw [be32_slice _ _ _ _ (by omega)]
  rw [this]

/-- What lies behind a written header. -/
theorem drop_parseInfo (code npo ppo) (l : List Byte) (n : Nat) : (parseInfo code npo ppo ++ l).drop (13 + n) =
    l.drop n := by
  rw [Nat.add_comm]; rfl

/-- A unit that another header follows where its offset says is accepted (43_parse_unit_scanner.md R146). -/
theorem puExtract_next (code : Byte) (npo ppo : Word) (x y : List Byte) (c2 : Byte) (n2 : Word)
    (buf : List Byte)
    (hbuf : buf = parseInfo code npo ppo ++ (x ++ (parseInfo c2 n2 npo ++ y)))
    (hn : npo.toNat = 13 + x.length) (hc : code ≠ 0x10#8) : puExtract buf buf.length 0 = .found ⟨0, code, npo,
        ppo⟩ := by
  subst hbuf
  generalize hbuf : parseInfo code npo ppo ++ (x ++ (parseInfo c2 n2 npo ++ y)) = buf
  obtain ⟨a, b, c, d⟩ := parseInfo_fields code npo ppo (x ++ (parseInfo c2 n2 npo ++ y))
  rw [hbuf] at a b c d
  have hlen : buf.length = 13 + x.length + 13 + y.length := by rw [← hbuf]; simp; omega
  have hd : buf.drop npo.toNat = parseInfo c2 n2 npo ++ y := by
    rw [← hbuf, hn, drop_parseInfo, List.drop_left]
  obtain ⟨a2, b2, c2', d2⟩ := parseInfo_fields c2 n2 npo y
  have hl : linkOf buf buf.length 0 code npo = .good npo := by
    unfold linkOf
    rw [if_neg hc]
    have hz : npo ≠ 0#32 := by rintro rfl; simp at hn; omega
    rw [if_pos hz]
    dsimp only
    rw [if_neg (by show ¬ _ < 0 + npo.toNat + 13; omega), Nat.zero_add, hd, a2]
    have : be32 buf (npo.toNat + 9) = npo := by rw [← be32_drop, hd, d2]
    rw [this]; simp
  unfold puExtract
  rw [if_neg (by show ¬ _ < 0 + 13; omega)]
  simp only [List.drop_zero, a, Nat.zero_add, b, c, d, hl]
  rfl

/-- A turn that goes on. -/
theorem runTurns_more (n : Nat) (s t : State) (h : turn Config.encRejectPolicy s = .more t) :
    runTurns Config.encRejectPolicy (n+1) s = runTurns Config.encRejectPolicy n t := by
  conv_lhs => unfold runTurns
  rw [h]

/-- A turn that waits. -/
theorem runTurns_wait (n : Nat) (s t : State) (h : turn Config.encRejectPolicy s = .wait t) :
    runTurns Config.encRejectPolicy (n+1) s = t := by
  conv_lhs => unfold runTurns
  rw [h]

end Sys2Proof.Machine
end

