-- ==== Sys2Proof/Laws/Packing.lean ====
section
/-! SUPPORT. The walk over the slices of a picture, and the greedy packing of them into fragments. -/

namespace Sys2Proof.Machine

/-- A slice has at least its quantisation index and three length bytes (30_encoding.md R69). -/
theorem sliceLen_ge_four {body o tp n} (h : Config.sliceLen body o tp = some n) : 4 ≤ n := by
  unfold Config.sliceLen sliceLen at h
  split at h
  · rename_i p hp
    cases h
    unfold skipComponents skipComponents skipComponents skipComponents at hp
    split at hp; · cases hp
    split at hp; · cases hp
    split at hp; · cases hp
    split at hp; · cases hp
    split at hp; · cases hp
    split at hp; · cases hp
    cases hp
    omega
  · cases h

variable {measure : SliceLength}

/-- The first slice that fails decides, in any layout (44_packetizer.md R180, check 5). -/
theorem sliceWalk_fails (body : List Byte) (tp : TransformInfo) (mtu : Nat) (l : List (Nat × Nat)) (o e N : Nat)
    (h : walked measure body tp mtu o l e) (hN : l.length < N) :
    (measure body e tp = none → sliceWalk measure body tp mtu N o = .error .sliceBounds) ∧
    (∀ k, measure body e tp = some k → mtu < k + 16 → sliceWalk measure body tp mtu N o = .error .mtuTooSmall) := by
  induction l generalizing o N with
  | nil =>
    cases N with
    | zero => simp at hN
    | succ N =>
      simp only [walked] at h; subst h
      refine ⟨fun hs => ?_, fun k hs hk => ?_⟩
      · unfold sliceWalk; rw [hs]
      · unfold sliceWalk; rw [hs]; dsimp only; rw [if_pos (by simpa [Config.fragOverhead] using hk)]
  | cons x l ih =>
    obtain ⟨st, n⟩ := x
    cases N with
    | zero => simp at hN
    | succ N =>
      obtain ⟨rfl, hs, hm, hw⟩ := h
      obtain ⟨i1, i2⟩ := ih _ N hw (by simpa using hN)
      have hne : ¬ mtu < n + Config.fragOverhead := by simp [Config.fragOverhead]; omega
      refine ⟨fun hh => ?_, fun k hh hk => ?_⟩
      · unfold sliceWalk; rw [hs]; dsimp only; rw [if_neg hne, i1 hh]
      · unfold sliceWalk; rw [hs]; dsimp only; rw [if_neg hne, i2 k hh hk]

/-- Slices that lie one behind the other are walked. -/
theorem sliceWalk_walked (body : List Byte) (tp : TransformInfo) (mtu : Nat) (l : List (Nat × Nat)) (o e : Nat)
    (h : walked measure body tp mtu o l e) : sliceWalk measure body tp mtu l.length o = .ok l := by
  induction l generalizing o with
  | nil => rfl
  | cons x l ih =>
    obtain ⟨st, n⟩ := x
    obtain ⟨rfl, hs, hm, hw⟩ := h
    have hne : ¬ mtu < n + Config.fragOverhead := by simp [Config.fragOverhead]; omega
    rw [List.length_cons]
    unfold sliceWalk; rw [hs]; dsimp only; rw [if_neg hne, ih _ hw]

/-- What was walked lies one behind the other. -/
theorem walked_of_sliceWalk (body : List Byte) (tp : TransformInfo) (mtu : Nat) (N o : Nat) (l : List
    (Nat × Nat))
    (h : sliceWalk measure body tp mtu N o = .ok l) : l.length = N ∧ ∃ e, walked measure body tp mtu o l e := by
  induction N generalizing o l with
  | zero => cases h; exact ⟨rfl, o, rfl⟩
  | succ N ih =>
    unfold sliceWalk at h
    split at h
    · cases h
    · rename_i len hs
      split at h
      · cases h
      · rename_i hm
        split at h
        · rename_i l2 h2
          cases h
          obtain ⟨a, e, b⟩ := ih _ _ h2
          exact ⟨by simp [a], e, rfl, hs, by simpa [Config.fragOverhead] using hm, b⟩
        · cases h

/-- The checks behind the field ranges and the slice counts (44_packetizer.md R180). -/
theorem validate_fits {body tp mtu} (h : fieldsFit tp) (hx : tp.slicesX ≠ 0#32) (hy : tp.slicesY ≠ 0#32) :
    validate measure body tp mtu = if mtu < tp.codedSize + 12 then .error .mtuTooSmall
      else sliceWalk measure body tp mtu (tp.slicesX.toNat * tp.slicesY.toNat) tp.codedSize := by
  obtain ⟨a, b, c, d⟩ := h
  unfold validate
  rw [if_neg (by omega), if_neg (by simp [hx, hy])]

/-- Each slice walked fits the budget. -/
theorem walked_fits {body tp mtu l o e} (h : walked measure body tp mtu o l e) : ∀ x ∈ l, x.2 + 16 ≤ mtu := by
  induction l generalizing o with
  | nil => simp
  | cons x l ih =>
    obtain ⟨st, n⟩ := x
    obtain ⟨_, _, hm, hw⟩ := h
    intro y hy
    simp at hy
    rcases hy with rfl | hy
    · exact hm
    · exact ih hw y hy

/-- A walk cut in two. -/
theorem walked_append {body tp mtu} : ∀ (a b : List (Nat × Nat)) (o e : Nat),
    walked measure body tp mtu o (a ++ b) e →
    ∃ m, walked measure body tp mtu o a m ∧ walked measure body tp mtu m b e ∧ m = o + groupBytes a := by
  intro a
  induction a with
  | nil => intro b o e h; exact ⟨o, rfl, h, by simp [groupBytes]⟩
  | cons x a ih =>
    obtain ⟨st, n⟩ := x
    rintro b o e ⟨rfl, h2, h3, h4⟩
    obtain ⟨m, i1, i2, i3⟩ := ih _ _ _ h4
    exact ⟨m, ⟨rfl, h2, h3, i1⟩, i2, by simp [groupBytes] at *; omega⟩

/-- A walk begins with its first slice. -/
theorem walked_head {body tp mtu o x l e} (h : walked measure body tp mtu o (x :: l) e) : x.1 = o := h.1

/-- Each slice walked has at least four bytes, in the configured layout. -/
theorem walked_length {body tp mtu} : ∀ (l : List (Nat × Nat)) (o e : Nat),
    walked Config.sliceLen body tp mtu o l e →
    4 * l.length ≤ groupBytes l := by
  intro l
  induction l with
  | nil => intro o e _; simp
  | cons x l ih =>
    obtain ⟨st, n⟩ := x
    rintro o e ⟨rfl, h2, h3, h4⟩
    have := ih _ _ h4
    have h5 := sliceLen_ge_four h2
    simp [groupBytes] at *; omega

/-- Column and row of the next slice in raster order. -/
theorem mod_div_succ (X a : Nat) (h : 0 < X) :
    (a % X + 1 = X → (a+1) % X = 0 ∧ (a+1)/X = a / X + 1) ∧ (a % X + 1 ≠ X → (a+1) % X = a % X + 1 ∧ (a+1)/X =
        a/X) := by
  have hm := Nat.mod_lt a h
  have hd := Nat.div_add_mod a X
  constructor
  · intro hh
    have : a + 1 = X * (a / X + 1) := by rw [Nat.mul_add]; omega
    rw [this]; simp [h]
  · intro hh
    have e : a + 1 = (a % X + 1) + X * (a / X) := by omega
    constructor
    · conv_lhs => rw [e, Nat.add_mul_mod_self_left, Nat.mod_eq_of_lt (by omega)]
    · conv_lhs => rw [e, Nat.add_mul_div_left _ _ h, Nat.div_eq_of_lt (by omega)]
      omega

/-- A packing whose open fragment holds the slices `gr`, the first of index `first`. -/
structure OpenGroup (X first : Nat) (gr : List (Nat × Nat)) (k : Packing) : Prop where
  bytes : k.bytes = groupBytes gr
  count : k.count = gr.length
  xy : gr ≠ [] → k.x = first % X ∧ k.y = first / X ∧ k.start = (gr.head?.map Prod.fst).getD 0
  sxy : k.sx = (first + gr.length) % X ∧ k.sy = (first + gr.length) / X

/-- One more slice in the open fragment (44_packetizer.md R183). -/
theorem OpenGroup.add {X first gr k} (hX : 0 < X) (h : OpenGroup X first gr k) (st n : Nat) :
    OpenGroup X first (gr ++ [(st, n)]) (addSlice X st n k) := by
  obtain ⟨hb, hc, hxy, hsx, hsy⟩ := h
  have hstep := mod_div_succ X (first + gr.length) hX
  unfold addSlice
  by_cases h0 : k.count = 0
  · have hg : gr = [] := by rw [hc] at h0; exact List.length_eq_zero_iff.mp h0
    subst hg
    simp only [h0, if_true]
    simp only [List.length_nil, Nat.add_zero] at hsx hsy hstep
    by_cases h1 : k.sx + 1 = X
    · rw [if_pos h1]
      have := hstep.1 (by rw [← hsx]; exact h1)
      refine ⟨?_, by simp, fun _ => ⟨hsx, hsy, rfl⟩, ?_, ?_⟩
      · simp [hb, groupBytes]
      · simp [this.1]
      · simp [this.2, hsy]
    · rw [if_neg h1]
      have := hstep.2 (by rw [← hsx]; exact h1)
      refine ⟨?_, by simp, fun _ => ⟨hsx, hsy, rfl⟩, ?_, ?_⟩
      · simp [hb, groupBytes]
      · simp [this.1, hsx]
      · simp [this.2, hsy]
  · have hg : gr ≠ [] := by rintro rfl; exact h0 (by simpa using hc)
    obtain ⟨x1, y1, s1⟩ := hxy hg
    have hh : ((gr ++ [(st, n)]).head?.map Prod.fst).getD 0 = (gr.head?.map Prod.fst).getD 0 := by
      cases gr with
      | nil => exact absurd rfl hg
      | cons a l => rfl
    simp only [h0, if_false]
    by_cases h1 : k.sx + 1 = X
    · rw [if_pos h1]
      have := hstep.1 (by rw [← hsx]; exact h1)
      refine ⟨?_, by simp [hc], fun _ => ⟨x1, y1, by rw [hh]; exact s1⟩, ?_, ?_⟩
      · simp [hb, groupBytes]
      · simp [← Nat.add_assoc, this.1]
      · simp [← Nat.add_assoc, this.2, hsy]
    · rw [if_neg h1]
      have := hstep.2 (by rw [← hsx]; exact h1)
      refine ⟨?_, by simp [hc], fun _ => ⟨x1, y1, by rw [hh]; exact s1⟩, ?_, ?_⟩
      · simp [hb, groupBytes]
      · simp [← Nat.add_assoc, this.1, hsx]
      · simp [← Nat.add_assoc, this.2, hsy]

/-- Emitting the open fragment (44_packetizer.md R183). -/
theorem emitSlices_open (g : Picture) (k : Packing) (first : Nat) (gr : List (Nat × Nat)) (m : Bool) (s : State)
    (h : OpenGroup g.tp.slicesX.toNat first gr k) (hg : gr ≠ []) :
    emitSlices g k m s = { s with
      pkt := { s.pkt with extSeq := s.pkt.extSeq + 1#16 }
      tx := s.tx ++ [sliceFragment g s.pkt.extSeq first gr m s.pkt.pts s.pkt.dts] } := by
  obtain ⟨hb, hc, hxy, -, -⟩ := h
  obtain ⟨hx, hy, hs⟩ := hxy hg
  unfold emitSlices emit
  congr 3
  unfold sliceFragment
  have w : ∀ v : Word, v.setWidth 16 = u16 v.toNat := fun v => by
    apply BitVec.eq_of_toNat_eq; simp [u16]
  simp only [wirePrefix, hqHeader, pictureHead, pictureBytes, hb, hc, hx, hy, hs, List.append_assoc, w]

/-- Emitting the parameters fragment (44_packetizer.md R182). -/
theorem emitParams_eq (g : Picture) (s : State) : emitParams g s = { s with
      pkt := { s.pkt with extSeq := s.pkt.extSeq + 1#16 }
      tx := s.tx ++ [paramsFragment g s.pkt.extSeq s.pkt.pts s.pkt.dts] } := by
  unfold emitParams emit
  congr 3

/-- The packing closes at least one fragment. -/
theorem packGroups_ne_nil (mtu X l k) : packGroups mtu X l k ≠ [] := by
  induction l generalizing k with
  | nil => simp [packGroups]
  | cons x l ih =>
    obtain ⟨a, b⟩ := x
    unfold packGroups
    split
    · simp
    · exact ih _

/-- The first slice is the first of the first group. -/
theorem greedy_head {mtu groups x l} (hg : greedy mtu groups) (hf : groups.flatten = x :: l) :
    ∃ g0 rest, groups = g0 :: rest ∧ g0.head? = some x := by
  cases groups with
  | nil => simp at hf
  | cons g0 rest =>
    refine ⟨g0, rest, rfl, ?_⟩
    have := hg.1
    cases g0 with
    | nil => exact absurd rfl this
    | cons a t => simp at hf; simp [hf.1]

/-- The fragments packed are greedy groups of the slices, in order (44_packetizer.md R183). -/
theorem packGroups_greedy (g : Picture) (mtu : Nat) (hX : 0 < g.tp.slicesX.toNat) (l : List (Nat × Nat)) :
    ∀ (first : Nat) (gr : List (Nat × Nat)) (k : Packing) (s : State), OpenGroup g.tp.slicesX.toNat first gr k →
    gr ++ l ≠ [] → (gr ≠ [] → groupBytes gr + 16 ≤ mtu) → (∀ x ∈ l, x.2 + 16 ≤ mtu) →
    ∃ groups, groups.flatten = gr ++ l ∧ greedy mtu groups ∧
      emitGroups g (packGroups mtu g.tp.slicesX.toNat l k) s = { s with
          pkt := { s.pkt with extSeq := s.pkt.extSeq + BitVec.ofNat 16 groups.length }
          tx := s.tx ++ sliceFragments g s.pkt.pts s.pkt.dts s.pkt.extSeq first groups } := by
  induction l with
  | nil =>
    intro first gr k s ho hne hfit _
    rw [List.append_nil] at hne
    refine ⟨[gr], by simp, ⟨hne, hfit hne, by simp, trivial⟩, ?_⟩
    simp only [packGroups, emitGroups, List.isEmpty_nil]
    rw [emitSlices_open g k first gr true s ho hne]
    rfl
  | cons x l ih =>
    obtain ⟨st, n⟩ := x
    intro first gr k s ho hne hfit hl
    have hn : n + 16 ≤ mtu := hl (st, n) (by simp)
    unfold packGroups
    by_cases hov : overflows mtu n k = true
    · rw [if_pos hov]
      simp only [overflows, Bool.and_eq_true, decide_eq_true_eq] at hov
      have fo : Config.fragOverhead = 16 := rfl
      rw [fo] at hov
      have hgr : gr ≠ [] := by
        rintro rfl; have := ho.count; simp at this; omega
      have ho2 : OpenGroup g.tp.slicesX.toNat (first + gr.length) [] (reopen k) :=
        ⟨by simp [reopen, groupBytes], by simp [reopen], fun h => absurd rfl h, by simpa [reopen] using ho.sxy⟩
      have ho3 := OpenGroup.add hX ho2 st n
      rw [List.nil_append] at ho3
      let s2 : State := { s with
        pkt := { s.pkt with extSeq := s.pkt.extSeq + 1#16 }
        tx := s.tx ++ [sliceFragment g s.pkt.extSeq first gr false s.pkt.pts s.pkt.dts] }
      obtain ⟨groups, hf, hgd, he⟩ := ih _ _ _ s2 ho3 (by simp) (fun _ => by simpa [groupBytes] using hn)
          (fun x hx => hl x (by simp [hx]))
      rw [List.singleton_append] at hf
      obtain ⟨g0, rest, hg0, hh0⟩ := greedy_head hgd hf
      refine ⟨gr :: groups, by simp [hf], ⟨hgr, hfit hgr, ?_, hgd⟩, ?_⟩
      · intro next hnx x hx
        rw [hg0] at hnx; simp at hnx; subst hnx
        rw [hh0] at hx; simp at hx; subst hx
        have := ho.bytes; simp only; omega
      · simp only [emitGroups]
        have hem : (packGroups mtu g.tp.slicesX.toNat l (addSlice g.tp.slicesX.toNat st n (reopen k))).isEmpty =
            false := by
          rw [List.isEmpty_eq_false_iff]; exact packGroups_ne_nil _ _ _ _
        rw [hem, emitSlices_open g k first gr false s ho hgr]
        rw [show ({ s with
        pkt := { s.pkt with extSeq := s.pkt.extSeq + 1#16 }
        tx := s.tx ++ [sliceFragment g s.pkt.extSeq first gr false s.pkt.pts s.pkt.dts] } : State) =
            s2 from rfl, he]
        have hge : groups.isEmpty = false := by rw [hg0]; rfl
        simp only [sliceFragments, hge, s2, List.length_cons, List.append_assoc, List.singleton_append,
            BitVec.add_assoc]
        congr 3
        rw [Nat.add_comm groups.length 1, BitVec.ofNat_add]
    · rw [if_neg hov]
      simp only [overflows, Bool.and_eq_true, decide_eq_true_eq] at hov
      have fo : Config.fragOverhead = 16 := rfl
      rw [fo] at hov
      have ho3 := OpenGroup.add hX ho st n
      obtain ⟨groups, hf, hgd, he⟩ := ih _ _ _ s ho3 (by simp) (fun _ => by
        have hb := ho.bytes; have hc := ho.count
        have : groupBytes (gr ++ [(st, n)]) = groupBytes gr + n := by simp [groupBytes]
        rw [this]
        by_cases hg : gr = []
        · subst hg; simp [groupBytes]; omega
        · have : 0 < gr.length := List.length_pos_iff.mpr hg
          omega) (fun x hx => hl x (by simp [hx]))
      exact ⟨groups, by simpa using hf, hgd, he⟩

/-- A nonzero word is positive. -/
theorem toNat_pos_of_ne {v : Word} (h : v ≠ 0#32) : 0 < v.toNat := by
  rcases Nat.eq_zero_or_pos v.toNat with h0 | h0
  · exact absurd (BitVec.eq_of_toNat_eq (by simpa using h0)) h
  · exact h0

/-- The bytes of slices of one length. -/
theorem groupBytes_const {l : List (Nat × Nat)} {k : Nat} (h : ∀ x ∈ l, x.2 = k) : groupBytes l =
    l.length * k := by
  induction l with
  | nil => simp [groupBytes]
  | cons a l ih =>
    have := ih (fun x hx => h x (by simp [hx]))
    have h2 := h a (by simp)
    simp [groupBytes] at *; rw [this, h2]; ring

/-- One fragment for each group. -/
theorem sliceFragments_length (g pts dts seq first groups) :
    (sliceFragments g pts dts seq first groups).length = groups.length := by
  induction groups generalizing seq first with
  | nil => rfl
  | cons a l ih => simp [sliceFragments, ih]

/-- The 16 bytes before a picture fragment's data. -/
theorem pictureBytes_length (g seq a b) : (pictureBytes g seq a b).length = 16 := by simp [pictureBytes]

/-- They are the prefix and the header of 30_encoding.md R70 and R73. -/
theorem pictureBytes_eq (g seq size count) : pictureBytes g seq size count = wirePrefix ⟨seq,
    g.il⟩ 0xEC#8 ++ hqHeader ⟨g.pn, u16 g.tp.slicePrefixBytes.toNat, u16 g.tp.sliceSizeScalar.toNat, u16 size⟩
        (u16 count) := by
  simp [pictureBytes, wirePrefix, hqHeader]

end Sys2Proof.Machine
end

