-- ==== Sys2Proof/Laws/PerInstr.lean ====
section
/-! SUPPORT. The one family of statements made per instruction: what the decoder answers is well-formed, or it
is one of the two commands whose operand the spec leaves to the caller. -/

namespace Sys2Proof.Laws.DecodedIsWellFormed

/-- PU.EXTRACT and PU.FIND with `size` beyond the buffer: the decoder reads them, since the bound is the
caller's (43_parse_unit_scanner.md R140, log 17). -/
def oversized : Instr → Prop
  | .puExtract buf size _ => buf.length < size
  | .puFind buf size _ => buf.length < size
  | _ => False

/-- Whatever words decode to `i`, `i` is well-formed or oversized. -/
def Statement (i : Instr) : Prop := ∀ w, decode w = .ok i → i.wellFormed = true ∨ oversized i

theorem decodeCommand_code {c : Byte} {o : Operands} {i : Instr} (h : decodeCommand c o = some i) :
    i.wellFormed = true ∨ oversized i := by
  unfold decodeCommand at h
  split at h <;> cases h <;> first
    | exact .inl rfl
    | skip
  · simp only [Instr.wellFormed, decide_eq_true_eq, oversized]; omega
  · simp only [Instr.wellFormed, decide_eq_true_eq, oversized]; omega

theorem unitInstr_wellFormed (code : Byte) (npo ppo : Word) :
    (unitInstr code npo ppo).wellFormed = true := by
  unfold unitInstr
  split <;> try rfl
  rename_i h
  simp only [Instr.wellFormed, Bool.not_eq_true', knownParseCodes]
  unfold unitKind at h
  split at h <;> cases h
  rename_i h1 h2 h3 h4 h5
  simp only [List.contains_eq_mem, List.mem_cons, List.not_mem_nil, or_false, decide_eq_false_iff_not]
  rintro (rfl | rfl | rfl | rfl | rfl) <;> simp_all

theorem decodeFragment_wellFormed {payload : List Byte} {marker : Bool} {i : Instr}
    (h : decodeFragment payload marker = .ok i) : i.wellFormed = true := by
  unfold decodeFragment at h
  split at h <;> cases h <;> first | rfl | skip
  all_goals rename_i h
  all_goals simp only [parseFrag] at h
  all_goals split at h <;> try (solve | cases h)
  all_goals split at h <;> try (solve | cases h)
  · unfold parseHq at h
    split at h
    · cases h
    · split at h <;> cases h
      rename_i hn
      simpa [Instr.wellFormed] using hn
  · unfold parseHq at h
    split at h
    · cases h
    · split at h <;> cases h
  · cases h
    rename_i h1 h2 h3
    simp only [Instr.wellFormed, Bool.not_eq_true', knownTags, List.contains_eq_mem, List.mem_cons,
      List.not_mem_nil, or_false, decide_eq_false_iff_not]
    rintro (hc | hc | hc) <;> rw [hc] at h1 h2 h3
    · exact h1 rfl
    · exact h2 rfl
    · exact h3 rfl

/-- What the decoder answers is well-formed, or oversized. -/
theorem of_decode (i : Instr) : Statement i := by
  intro w h
  cases w with
  | command code o =>
    simp only [decode] at h
    split at h <;> cases h
    exact decodeCommand_code (by assumption)
  | unit bytes =>
    simp only [decode, decodeUnit] at h
    split at h
    · cases h
    · split at h <;> cases h
      exact .inl (unitInstr_wellFormed _ _ _)
  | fragment payload marker =>
    exact .inl (decodeFragment_wellFormed h)
  | boolCode bits => cases h; exact .inl rfl
  | uintCode bits => cases h; exact .inl rfl

/-! ### One lemma per constructor -/

theorem brInit (span : List Byte) : Statement (.brInit span) := of_decode _

theorem brReadBit : Statement (.brReadBit) := of_decode _

theorem brReadBool : Statement (.brReadBool) := of_decode _

theorem brReadUint : Statement (.brReadUint) := of_decode _

theorem brLength : Statement (.brLength) := of_decode _

theorem brOverrun : Statement (.brOverrun) := of_decode _

theorem shParse (data : List Byte) : Statement (.shParse data) := of_decode _

theorem shEqual (a b : List Byte) : Statement (.shEqual a b) := of_decode _

theorem tpParse (data : List Byte) : Statement (.tpParse data) := of_decode _

theorem puExtract (buf : List Byte) (size offset : Nat) : Statement (.puExtract buf size offset) := of_decode _

theorem puFind (buf : List Byte) (size fromOffset : Nat) : Statement (.puFind buf size fromOffset) := of_decode _

theorem pktPush (data : List Byte) (pts dts : Nat) : Statement (.pktPush data pts dts) := of_decode _

theorem pktReset : Statement (.pktReset) := of_decode _

theorem pktSetMtu (m : Half) : Statement (.pktSetMtu m) := of_decode _

theorem dpkFrag (payload : List Byte) (marker disc : Bool) : Statement (.dpkFrag payload marker disc) := of_decode _

theorem dpkReset : Statement (.dpkReset) := of_decode _

theorem unitSequenceHeader (npo ppo : Word) : Statement (.unitSequenceHeader npo ppo) := of_decode _

theorem unitEndOfSequence (npo ppo : Word) : Statement (.unitEndOfSequence npo ppo) := of_decode _

theorem unitAuxiliary (npo ppo : Word) : Statement (.unitAuxiliary npo ppo) := of_decode _

theorem unitPadding (npo ppo : Word) : Statement (.unitPadding npo ppo) := of_decode _

theorem unitHqPicture (npo ppo : Word) : Statement (.unitHqPicture npo ppo) := of_decode _

theorem unitUnknown (code : Byte) (npo ppo : Word) : Statement (.unitUnknown code npo ppo) := of_decode _

theorem fragSequenceHeader (head : WireHead) (p : List Byte) : Statement (.fragSequenceHeader head p) := of_decode _

theorem fragEndOfSequence (head : WireHead) (p : List Byte) : Statement (.fragEndOfSequence head p) := of_decode _

theorem fragHqParams (head : WireHead) (hq : HqHead) (rest : List Byte) (marker : Bool) : Statement (.fragHqParams head hq rest marker) := of_decode _

theorem fragHqSlices (head : WireHead) (hq : HqHead) (sliceCount : Half) (rest : List Byte) (marker : Bool) : Statement (.fragHqSlices head hq sliceCount rest marker) := of_decode _

theorem fragUnknown (head : WireHead) (tag : Byte) (p : List Byte) : Statement (.fragUnknown head tag p) := of_decode _

theorem vlcBool (b : Bool) : Statement (.vlcBool b) := of_decode _

theorem vlcUint (x : List Bool) : Statement (.vlcUint x) := of_decode _

end Sys2Proof.Laws.DecodedIsWellFormed
end

