-- ==== Sys2Proof/Laws/Texts.lean ====
section
/-! SUPPORT. What each block of the two grammars consumes of a text, and that a text cut short overruns. -/

namespace Sys2Proof.Machine

/-- The reader some bits further on. -/
def advance (n : Nat) (r : Reader) : Reader := { r with pos := r.pos + n }

/-- The bits left further on. -/
theorem bitsLeft_advance (n : Nat) (r : Reader) : bitsLeft (advance n r) = (bitsLeft r).drop n := by
  simp [bitsLeft, advance, List.drop_drop]

/-- Advancing twice. -/
theorem advance_advance (m n : Nat) (r : Reader) : advance n (advance m r) = advance (m + n) r := by simp
    [advance, Nat.add_assoc]

/-- Advancing over bits that are there stays in the span. -/
theorem advance_ok {r : Reader} {bits rest : List Bool} (h : r.ok) (hb : bitsLeft r = bits ++ rest) :
    (advance bits.length r).ok ∧ bitsLeft (advance bits.length r) = rest := by
  have hl := bitsLeft_length_ok r h
  rw [hb, List.length_append] at hl
  have := h.2
  refine ⟨⟨h.1, ?_⟩, by rw [bitsLeft_advance, hb, List.drop_left]⟩
  simp only [advance]; omega

/-- A block that reads exactly these bits where the bits left begin with them. -/
def Consumes (f : Reader → Reader) (bits : List Bool) : Prop :=
  ∀ r rest, r.ok → bitsLeft r = bits ++ rest → f r = advance bits.length r

/-- A block that overruns where the bits left are a proper beginning of these. -/
def Cuts (f : Reader → Reader) (bits : List Bool) : Prop :=
  ∀ r cut, r.ok → bitsLeft r ++ cut = bits → cut ≠ [] → (f r).ovr = true

/-- Two blocks in a row. -/
theorem Consumes.comp {f g a b} (hf : Consumes f a) (hg : Consumes g b) : Consumes (fun r => g (f r))
    (a ++ b) := by
  intro r rest h hb
  rw [List.append_assoc] at hb
  have := advance_ok h hb
  show g (f r) = _
  rw [hf r _ h hb, hg _ rest this.1 this.2, advance_advance, List.length_append]

/-- Two blocks in a row, cut in the first or in the second. -/
theorem Cuts.comp {f g a b} (hfa : Consumes f a) (hf : Cuts f a) (hg : Cuts g b) (sg : ∀ r, Reads r (g r)) :
    Cuts (fun r => g (f r)) (a ++ b) := by
  intro r cut h hb hc
  rcases List.append_eq_append_iff.mp hb with ⟨x, h1, h2⟩ | ⟨x, h1, h2⟩
  · -- a = left ++ x, cut = x ++ b
    by_cases hx : x = []
    · subst hx
      have h1' : bitsLeft r = a ++ [] := by rw [h1]; simp
      have := advance_ok h h1'
      show (g (f r)).ovr = true
      rw [hfa r [] h h1']
      exact hg _ cut this.1 (by rw [this.2]; simpa using h2) hc
    · exact (sg _).ovr (hf r x h h1.symm hx)
  · have := advance_ok h h1
    show (g (f r)).ovr = true
    rw [hfa r x h h1]
    exact hg _ cut this.1 (by rw [this.2]; exact h2.symm) hc

/-- Reading a value as 30_encoding.md R63 writes it. -/
theorem readUint_ue (r : Reader) (v : Nat) (rest : List Bool) (h : r.ok) (hb : bitsLeft r = ue v ++ rest) :
    readUint r = (u32 v, advance (ue v).length r) := by
  have hb2 : bitsLeft r = codePairs (dataBits v) ++ true :: rest := by rw [hb]; simp [ue]
  have hl := bitsLeft_length_ok r h
  have h2 := h.2
  rw [hb2] at hl; simp [codePairs_length] at hl
  rw [readUint_code r h, hb2, uintCodeBits_full, codeAcc_value, (dataBits_value v).1, (dataBits_value v).2]
  unfold afterCode
  rw [if_pos (by rw [← (dataBits_value v).1]; omega)]
  simp [ue, codePairs_length, (dataBits_value v).1, advance]

/-- One value read for its bits. -/
theorem skipUint_consumes (v : Nat) : Consumes skipUint (ue v) := by
  intro r rest h hb
  unfold skipUint; rw [readUint_ue r v rest h hb]

/-- A proper beginning of a code is some pairs, or some pairs and a 0. -/
theorem cut_code (x l cut : List Bool) (h : l ++ cut = codePairs x ++ [true]) (hc : cut ≠ []) :
    ∃ y, (l = codePairs y) ∨ (l = codePairs y ++ [false]) := by
  induction x generalizing l with
  | nil =>
    simp [codePairs] at h
    cases l with
    | nil => exact ⟨[], .inl rfl⟩
    | cons b l => simp at h; exact absurd h.2.2 hc
  | cons b x ih =>
    have e : codePairs (b :: x) ++ [true] = false :: b :: (codePairs x ++ [true]) := by simp [codePairs]
    rw [e] at h
    rcases l with _ | ⟨b0, _ | ⟨b1, l⟩⟩
    · exact ⟨[], .inl rfl⟩
    · simp at h; exact ⟨[], .inr (by simp [codePairs, h.1])⟩
    · simp at h
      obtain ⟨rfl, rfl, h⟩ := h
      obtain ⟨y, hy | hy⟩ := ih l h
      · exact ⟨b1 :: y, .inl (by simp [codePairs] at *; exact hy)⟩
      · exact ⟨b1 :: y, .inr (by simp [codePairs] at *; exact hy)⟩

/-- One value cut short. -/
theorem skipUint_cuts (v : Nat) : Cuts skipUint (ue v) := by
  intro r cut h hb hc
  have hl := bitsLeft_length_ok r h
  have h2 := h.2
  unfold skipUint; rw [readUint_code r h]
  simp only [afterCode]
  obtain ⟨y, hy | hy⟩ := cut_code _ _ _ hb hc
  · rw [hy, uintCodeBits_cut, if_neg]
    rw [hy, codePairs_length] at hl; omega
  · rw [hy, uintCodeBits_cutInPair, if_neg]
    rw [hy] at hl; simp [codePairs_length] at hl ⊢; omega

/-- Nothing read. -/
theorem id_consumes : Consumes (fun r => r) [] := fun _ _ _ _ => rfl

/-- Nothing cut. -/
theorem id_cuts : Cuts (fun r => r) [] := fun _ _ _ hb hc => by simp at hb; exact absurd hb.2 hc

/-- Several values read for their bits. -/
theorem skipUints_consumes (l : List Nat) : Consumes (skipUints l.length) (ues l) := by
  induction l with
  | nil => exact id_consumes
  | cons v l ih => exact (skipUint_consumes v).comp ih

/-- Several values cut short. -/
theorem skipUints_cuts (l : List Nat) : Cuts (skipUints l.length) (ues l) := by
  induction l with
  | nil => exact id_cuts
  | cons v l ih =>
    exact Cuts.comp (f := skipUint) (g := skipUints l.length) (skipUint_consumes v) (skipUint_cuts v) ih
        (skipUints_reads _)

/-- A flagged block. -/
theorem ifFlag_consumes {block : Reader → Reader} (o : Option (List Bool)) (hb : ∀ x ∈ o, Consumes block x) :
    Consumes (ifFlag block) (flagged o) := by
  intro r rest h hl
  unfold ifFlag
  rw [readBit_code r h]
  cases o with
  | none =>
    rw [hl]
    simp only [flagged, List.singleton_append, boolCodeBit]
    have := bitsLeft_length_ok r h
    rw [hl] at this; simp [flagged] at this
    unfold afterCode; rw [if_pos (by omega)]; rfl
  | some x =>
    have hl2 : bitsLeft r = [true] ++ (x ++ rest) := by rw [hl]; rfl
    have a := advance_ok h hl2
    rw [hl2]
    have := bitsLeft_length_ok r h
    rw [hl2] at this; simp at this
    simp only [List.singleton_append, boolCodeBit]
    have e : afterCode 1 r = advance 1 r := by unfold afterCode; rw [if_pos (by omega)]; rfl
    have e2 := hb x rfl _ rest a.1 a.2
    simp only [List.length_singleton] at e2
    rw [e]
    rw [e2]
    simp only [advance_advance, flagged, List.length_cons]
    congr 1; omega

/-- A flagged block cut short. -/
theorem ifFlag_cuts {block : Reader → Reader} (o : Option (List Bool)) (hb : ∀ x ∈ o, Cuts block x)
    (sb : ∀ r, Reads r (block r)) :
    Cuts (ifFlag block) (flagged o) := by
  intro r cut h hl hc
  unfold ifFlag
  rw [readBit_code r h]
  have hlen := bitsLeft_length_ok r h
  have h2 := h.2
  rcases hbl : bitsLeft r with _ | ⟨b, l⟩
  · rw [hbl] at hlen; simp at hlen
    simp only [boolCodeBit]
    apply (sb _).ovr
    rw [afterCode_over _ 1 (by omega) (by omega)]
  · rw [hbl] at hl
    cases o with
    | none => simp [flagged] at hl; exact absurd hl.2.2 hc
    | some x =>
      simp [flagged] at hl
      obtain ⟨rfl, hl⟩ := hl
      have a := advance_ok (bits := [true]) (rest := l) h hbl
      simp only [boolCodeBit]
      have e : afterCode 1 r = advance 1 r := by
        unfold afterCode; rw [hbl] at hlen; simp at hlen; rw [if_pos (by omega)]; rfl
      rw [e]
      exact hb x rfl _ cut a.1 (by rw [show advance 1 r = advance [true].length r from rfl, a.2]; exact hl) hc

/-- Codable values differ as words where they differ. -/
theorem u32_inj {a b : Nat} (ha : codable a) (hb : codable b) : u32 a = u32 b ↔ a = b := by
  constructor
  · intro e
    have := congrArg BitVec.toNat e
    simp [u32] at this; unfold codable at *; omega
  · rintro rfl; rfl

/-- A codable value as a word and back. -/
theorem u32_toNat {a : Nat} (ha : codable a) : (u32 a).toNat = a := by
  unfold codable at ha
  simp [u32]; omega

/-- A codable value is the word 0 only if it is 0. -/
theorem u32_zero_iff (v : Nat) (h : codable v) : u32 v = 0#32 ↔ v = 0 := by
  constructor
  · intro e
    have := congrArg BitVec.toNat e
    simp [u32] at this; unfold codable at h; omega
  · rintro rfl; rfl

/-- An indexed block (41_sequence_header.md R115). -/
theorem ifIndexZero_consumes {block : Reader → Reader} (v : Nat) (x : List Bool) (hv : codable v)
    (h0 : v = 0 → Consumes block x) (h1 : v ≠ 0 → x = []) :
    Consumes (ifIndexZero block) (ue v ++ x) := by
  intro r rest h hl
  rw [List.append_assoc] at hl
  have a := advance_ok h hl
  unfold ifIndexZero
  rw [readUint_ue r v _ h hl]
  dsimp only
  by_cases hz : v = 0
  · rw [if_pos ((u32_zero_iff v hv).mpr hz), h0 hz _ _ a.1 a.2, advance_advance, List.length_append]
  · rw [if_neg (fun e => hz ((u32_zero_iff v hv).mp e)), h1 hz, List.append_nil]

/-- An indexed block cut short. -/
theorem ifIndexZero_cuts {block : Reader → Reader} (v : Nat) (x : List Bool) (hv : codable v)
    (h0 : v = 0 → Cuts block x) (h1 : v ≠ 0 → x = []) (sb : ∀ r, Reads r (block r)) :
    Cuts (ifIndexZero block) (ue v ++ x) := by
  intro r cut h hl hc
  unfold ifIndexZero
  rcases List.append_eq_append_iff.mp hl with ⟨y, e1, e2⟩ | ⟨y, e1, e2⟩
  · by_cases hy : y = []
    · subst hy
      have e1' : bitsLeft r = ue v ++ [] := by rw [e1]; simp
      have a := advance_ok h e1'
      rw [readUint_ue r v _ h e1']
      dsimp only
      by_cases hz : v = 0
      · rw [if_pos ((u32_zero_iff v hv).mpr hz)]
        exact h0 hz _ cut a.1 (by rw [a.2]; simpa using e2) hc
      · simp [h1 hz] at e2; exact absurd e2 hc
    · have ho := skipUint_cuts v r y h e1.symm hy
      unfold skipUint at ho
      rcases hr : readUint r with ⟨i, r1⟩
      rw [hr] at ho
      dsimp only at ho ⊢
      split
      · exact (sb _).ovr ho
      · exact ho
  · have a := advance_ok h e1
    rw [readUint_ue r v _ h e1]
    dsimp only
    by_cases hz : v = 0
    · rw [if_pos ((u32_zero_iff v hv).mpr hz)]
      exact h0 hz _ cut a.1 (by rw [a.2]; exact e2.symm) hc
    · simp [h1 hz] at e2; exact absurd e2.2 hc

/-- The three flagged values of block 8. -/
theorem skipSignalRange_text (l : List (Option Nat)) (hl : l.length = 3) :
    Consumes skipSignalRange (l.flatMap fun o => flagged (o.map ue)) ∧
    Cuts skipSignalRange (l.flatMap fun o => flagged (o.map ue)) := by
  match l, hl with
  | [a, b, c], _ =>
    have f : ∀ o : Option Nat, Consumes (ifFlag (skipUints 1)) (flagged (o.map ue)) := fun o =>
      ifFlag_consumes _ fun x hx => by
        cases o with
        | none => simp at hx
        | some v => simp at hx; subst hx; simpa [ues] using skipUints_consumes [v]
    have g : ∀ o : Option Nat, Cuts (ifFlag (skipUints 1)) (flagged (o.map ue)) := fun o =>
      ifFlag_cuts _ (fun x hx => by
        cases o with
        | none => simp at hx
        | some v => simp at hx; subst hx; simpa [ues] using skipUints_cuts [v]) (skipUints_reads 1)
    have s := ifFlag_reads _ (skipUints_reads 1)
    have e : ([a,b,c].flatMap fun o => flagged (o.map ue)) = flagged (a.map ue) ++ (flagged
        (b.map ue) ++ flagged (c.map ue)) := by
      simp
    rw [e]
    have x1 := (f a).comp ((f b).comp (f c))
    have x2 := Cuts.comp (f b) (g b) (g c) s
    have x3 := Cuts.comp (f a) (g a) x2 fun r => (s r).trans (s _)
    exact ⟨x1, x3⟩

/-- A flagged value. -/
theorem uintBlock_text (o : Option Nat) : Consumes (ifFlag (skipUints 1)) (flagged (o.map ue)) ∧
    Cuts (ifFlag (skipUints 1)) (flagged (o.map ue)) := by
  constructor
  · refine ifFlag_consumes _ fun x hx => ?_
    cases o with
    | none => simp at hx
    | some v => simp at hx; subst hx; simpa [ues] using skipUints_consumes [v]
  · refine ifFlag_cuts _ (fun x hx => ?_) (skipUints_reads 1)
    cases o with
    | none => simp at hx
    | some v => simp at hx; subst hx; simpa [ues] using skipUints_cuts [v]

/-- A flagged indexed block. -/
theorem indexBlock_text (n : Nat) (o : Option (Nat × List Nat)) (ho : ∀ b ∈ o, indexOk n b) :
    Consumes (ifFlag (ifIndexZero (skipUints n))) (flagged (o.map fun b => ue b.1 ++ ues b.2)) ∧
    Cuts (ifFlag (ifIndexZero (skipUints n))) (flagged (o.map fun b => ue b.1 ++ ues b.2)) := by
  constructor
  · refine ifFlag_consumes _ fun x hx => ?_
    cases o with
    | none => simp at hx
    | some b =>
      simp at hx; subst hx
      obtain ⟨h1, h2, h3⟩ := ho b rfl
      refine ifIndexZero_consumes _ _ h1 (fun hz => ?_) (fun hz => ?_)
      · rw [if_pos hz] at h2; rw [← h2]; exact skipUints_consumes _
      · rw [if_neg hz] at h2; rw [List.length_eq_zero_iff.mp h2]; rfl
  · refine ifFlag_cuts _ (fun x hx => ?_) (ifIndexZero_reads _ (skipUints_reads n))
    cases o with
    | none => simp at hx
    | some b =>
      simp at hx; subst hx
      obtain ⟨h1, h2, h3⟩ := ho b rfl
      refine ifIndexZero_cuts _ _ h1 (fun hz => ?_) (fun hz => ?_) (skipUints_reads n)
      · rw [if_pos hz] at h2; rw [← h2]; exact skipUints_cuts _
      · rw [if_neg hz] at h2; rw [List.length_eq_zero_iff.mp h2]; rfl

/-- A flagged list of values. -/
theorem uintsBlock_text (n : Nat) (o : Option (List Nat)) (ho : ∀ l ∈ o, l.length = n) :
    Consumes (ifFlag (skipUints n)) (flagged (o.map ues)) ∧ Cuts (ifFlag (skipUints n)) (flagged (o.map ues)) :=
        by
  constructor
  · refine ifFlag_consumes _ fun x hx => ?_
    cases o with
    | none => simp at hx
    | some l => simp at hx; subst hx; rw [← ho l rfl]; exact skipUints_consumes _
  · refine ifFlag_cuts _ (fun x hx => ?_) (skipUints_reads n)
    cases o with
    | none => simp at hx
    | some l => simp at hx; subst hx; rw [← ho l rfl]; exact skipUints_cuts _

/-- The custom dimensions. -/
theorem dimsBlock_text (o : Option (Nat × Nat)) : Consumes (ifFlag (skipUints 2)) (flagged (o.map fun d => ues
    [d.1, d.2])) ∧
   Cuts (ifFlag (skipUints 2)) (flagged (o.map fun d => ues [d.1, d.2])) := by
  have := uintsBlock_text 2 (o.map fun d => [d.1, d.2]) (by intro l hl; cases o <;> simp at hl; subst hl; rfl)
  simpa [Option.map_map, Function.comp_def] using this

/-- The bits of blocks 2 to 8. -/
def overrideBits (h : HeaderText) : List Bool :=
  flagged (h.colourFormat.map ue) ++ (flagged (h.scanFormat.map ue) ++
  (flagged (h.frameRate.map fun b => ue b.1 ++ ues b.2) ++
  (flagged (h.aspect.map fun b => ue b.1 ++ ues b.2) ++
  (flagged (h.cleanArea.map ues) ++
  (flagged (h.signalRange.map fun b => ue b.1 ++ ues b.2) ++
  flagged (h.colourSpec.map fun b => ue b.1 ++ b.2.flatMap fun o => flagged (o.map ue)))))))

/-- Blocks 2 to 8 (41_sequence_header.md R112). -/
theorem skipOverrides_text (h : HeaderText) (ho : h.ok) : Consumes skipOverrides (overrideBits h) ∧
    Cuts skipOverrides (overrideBits h) := by
  obtain ⟨_, _, _, _, _, _, _, _, h4, h5, h6, h7, h8, _⟩ := ho
  have b2 := uintBlock_text h.colourFormat
  have b3 := uintBlock_text h.scanFormat
  have b4 := indexBlock_text 2 h.frameRate h4
  have b5 := indexBlock_text 2 h.aspect h5
  have b6 := uintsBlock_text 4 h.cleanArea (fun l hl => (h6 l hl).1)
  have b7 := indexBlock_text 4 h.signalRange h7
  have b8 : Consumes (ifFlag (ifIndexZero skipSignalRange)) (flagged
      (h.colourSpec.map fun b => ue b.1 ++ b.2.flatMap fun o => flagged (o.map ue))) ∧
      Cuts (ifFlag (ifIndexZero skipSignalRange)) (flagged
          (h.colourSpec.map fun b => ue b.1 ++ b.2.flatMap fun o => flagged (o.map ue))) := by
    constructor
    · refine ifFlag_consumes _ fun x hx => ?_
      cases hc : h.colourSpec with
      | none => rw [hc] at hx; simp at hx
      | some b =>
        rw [hc] at hx; simp at hx; subst hx
        obtain ⟨g1, g2, g3⟩ := h8 b hc
        refine ifIndexZero_consumes _ _ g1 (fun hz => ?_) (fun hz => ?_)
        · rw [if_pos hz] at g2; exact (skipSignalRange_text _ g2).1
        · rw [if_neg hz] at g2; rw [List.length_eq_zero_iff.mp g2]; rfl
    · refine ifFlag_cuts _ (fun x hx => ?_) (ifIndexZero_reads _ skipSignalRange_reads)
      cases hc : h.colourSpec with
      | none => rw [hc] at hx; simp at hx
      | some b =>
        rw [hc] at hx; simp at hx; subst hx
        obtain ⟨g1, g2, g3⟩ := h8 b hc
        refine ifIndexZero_cuts _ _ g1 (fun hz => ?_) (fun hz => ?_) skipSignalRange_reads
        · rw [if_pos hz] at g2; exact (skipSignalRange_text _ g2).2
        · rw [if_neg hz] at g2; rw [List.length_eq_zero_iff.mp g2]; rfl
  have u := fun n => ifFlag_reads _ (skipUints_reads n)
  have i := fun n => ifFlag_reads _ (ifIndexZero_reads _ (skipUints_reads n))
  have i8 := ifFlag_reads _ (ifIndexZero_reads _ skipSignalRange_reads)
  have e : skipOverrides = fun r => ifFlag (ifIndexZero skipSignalRange) (ifFlag (ifIndexZero (skipUints 4))
      (ifFlag (skipUints 4)
      (ifFlag (ifIndexZero (skipUints 2)) (ifFlag (ifIndexZero (skipUints 2)) (ifFlag (skipUints 1) (ifFlag
          (skipUints 1) r)))))) := by
    funext r; unfold skipOverrides; rfl
  rw [e]
  constructor
  · have x := b2.1.comp (b3.1.comp (b4.1.comp (b5.1.comp (b6.1.comp (b7.1.comp b8.1)))))
    exact x
  · have c7 := Cuts.comp b7.1 b7.2 b8.2 i8
    have r7 := fun r => (i 4 r).trans (i8 _)
    have c6 := Cuts.comp b6.1 b6.2 c7 r7
    have r6 := fun r => (u 4 r).trans (r7 _)
    have c5 := Cuts.comp b5.1 b5.2 c6 r6
    have r5 := fun r => (i 2 r).trans (r6 _)
    have c4 := Cuts.comp b4.1 b4.2 c5 r5
    have r4 := fun r => (i 2 r).trans (r5 _)
    have c3 := Cuts.comp b3.1 b3.2 c4 r4
    have r3 := fun r => (u 1 r).trans (r4 _)
    have x := Cuts.comp b2.1 b2.2 c3 r3
    exact x

/-- The bits of a header, block by block. -/
theorem headerBits_eq (h : HeaderText) : h.bits = ue h.major ++ (ue h.minor ++ (ue h.profile ++ (ue h.level ++
    (ue h.base ++
    (flagged (h.dims.map fun d => ues [d.1, d.2]) ++ (overrideBits h ++ ue h.mode)))))) := by
  simp [HeaderText.bits, overrideBits, ues, List.append_assoc]

/-- The frame size that block 1 leaves (41_sequence_header.md R114). -/
def pickSize (sz : Word × Word) : Option (Nat × Nat) → Word × Word
  | some d => (u32 d.1, u32 d.2)
  | none => sz

/-- Block 1. -/
theorem frameSize_text (sz : Word × Word) (o : Option (Nat × Nat)) (r : Reader) (rest : List Bool) (h : r.ok)
    (hb : bitsLeft r = flagged (o.map fun d => ues [d.1, d.2]) ++ rest) :
    frameSize sz r = (pickSize sz o, advance (flagged (o.map fun d => ues [d.1, d.2])).length r) := by
  have hlen := bitsLeft_length_ok r h
  unfold frameSize
  rw [readBit_code r h]
  cases o with
  | none =>
    rw [hb] at hlen ⊢; simp [flagged] at hlen ⊢
    simp only [boolCodeBit]
    unfold afterCode; rw [if_pos (by omega)]; rfl
  | some d =>
    have hb2 : bitsLeft r = [true] ++ (ue d.1 ++ (ue d.2 ++ rest)) := by rw [hb]; simp [flagged, ues]
    have a := advance_ok h hb2
    have a2 := advance_ok a.1 a.2
    rw [hb2] at hlen ⊢; simp at hlen
    simp only [List.singleton_append, boolCodeBit]
    have e : afterCode 1 r = advance [true].length r := by unfold afterCode; rw [if_pos (by omega)]; rfl
    rw [e]
    rw [readUint_ue _ _ _ a.1 a.2]
    dsimp only
    rw [readUint_ue _ _ _ a2.1 a2.2]
    dsimp only
    rw [advance_advance, advance_advance]
    simp [flagged, ues, pickSize]
    rw [show 1 + ((ue d.1).length + (ue d.2).length) = (ue d.1).length + (ue d.2).length + 1 by omega]

/-- A fresh reader has the whole span left. -/
theorem bitsLeft_fresh (data : List Byte) : bitsLeft (freshReader data) = spanBits data := by
  simp [bitsLeft, freshReader]

/-- The grammar on a text of a header (41_sequence_header.md R112). -/
theorem seqGrammar_text (h : HeaderText) (data : List Byte) (rest : List Bool) (ho : h.ok) (hb : spanBits data =
    h.bits ++ rest) :
    ∃ r, r.ovr = false ∧ seqGrammar data = ⟨u32 h.major, u32 h.profile, u32 h.base,
      pickSize (presetSize (u32 h.base)) h.dims, u32 h.mode, r⟩ := by
  rw [← bitsLeft_fresh, headerBits_eq] at hb
  simp only [List.append_assoc] at hb
  have a0 := freshReader_ok data
  have a1 := advance_ok a0 hb
  have a2 := advance_ok a1.1 a1.2
  have a3 := advance_ok a2.1 a2.2
  have a4 := advance_ok a3.1 a3.2
  have a5 := advance_ok a4.1 a4.2
  have a6 := advance_ok a5.1 a5.2
  have a7 := advance_ok a6.1 a6.2
  unfold seqGrammar
  rw [readUint_ue _ _ _ a0 hb]
  dsimp only
  rw [skipUint_consumes _ _ _ a1.1 a1.2, readUint_ue _ _ _ a2.1 a2.2]
  dsimp only
  rw [skipUint_consumes _ _ _ a3.1 a3.2, readUint_ue _ _ _ a4.1 a4.2]
  dsimp only
  rw [frameSize_text _ _ _ _ a5.1 a5.2]
  dsimp only
  rw [(skipOverrides_text h ho).1 _ _ a6.1 a6.2, readUint_ue _ _ _ a7.1 a7.2]
  exact ⟨_, rfl, rfl⟩

/-- The matrix values (42_transform_parameters.md R131). -/
theorem skipUntilOverrun_text (l : List Nat) (r : Reader) (rest : List Bool) (h : r.ok) (ho : r.ovr = false)
    (hb : bitsLeft r = ues l ++ rest) :
    skipUntilOverrun l.length r = advance (ues l).length r := by
  induction l generalizing r with
  | nil => rfl
  | cons v l ih =>
    have hb2 : bitsLeft r = ue v ++ (ues l ++ rest) := by rw [hb]; simp [ues]
    have a := advance_ok h hb2
    simp only [List.length_cons, skipUntilOverrun, ho]
    rw [if_neg (by simp), skipUint_consumes v r _ h hb2, ih _ a.1 ho a.2, advance_advance]
    simp [ues]

/-- The reader the header grammar leaves, block by block. -/
theorem seqGrammar_reader (data : List Byte) : (seqGrammar data).reader =
    skipUint (skipOverrides (ifFlag (skipUints 2) (skipUint (skipUint (skipUint (skipUint (skipUint
        (freshReader data)))))))) := by
  have hf : ∀ sz r, (frameSize sz r).2 = ifFlag (skipUints 2) r := by
    intro sz r
    unfold frameSize ifFlag
    rcases readBit r with ⟨b, r1⟩
    cases b
    · rfl
    · rfl
  unfold seqGrammar
  rcases h1 : readUint (freshReader data) with ⟨a, r1⟩
  dsimp only
  rcases h2 : readUint (skipUint r1) with ⟨b, r2⟩
  dsimp only
  rcases h3 : readUint (skipUint r2) with ⟨c, r3⟩
  dsimp only
  rcases h4 : frameSize (presetSize c) r3 with ⟨d, r4⟩
  dsimp only
  rcases h5 : readUint (skipOverrides r4) with ⟨e, r5⟩
  dsimp only
  have e1 : skipUint (freshReader data) = r1 := by unfold skipUint; rw [h1]
  have e2 : skipUint (skipUint r1) = r2 := by conv_lhs => unfold skipUint
                                              rw [show (readUint r1).2 = skipUint r1 from rfl, h2]
  have e3 : skipUint (skipUint r2) = r3 := by conv_lhs => unfold skipUint
                                              rw [show (readUint r2).2 = skipUint r2 from rfl, h3]
  have e4 : ifFlag (skipUints 2) r3 = r4 := by rw [← hf (presetSize c), h4]
  rw [e1, e2, e3, e4]
  conv_rhs => unfold skipUint
  rw [h5]

end Sys2Proof.Machine
end

