-- ==== Sys2Proof/Tests/Slice0.lean ====
section
/-! SUPPORT. Tests: ill-formed terms, written words, one step per test with the results of 95_test_vectors.md
(V<n>, P<n>) and of the rules' examples, and for each statement with hypotheses a witness that meets them. -/

namespace Sys2Proof.Tests
open Sys2Proof Sys2Proof.Machine

-- One thread for the theorems below: each waits on the kernel, and a thread for each is more than a sandbox gives.
set_option Elab.async false

/-! ### Helpers -/

/-- The next state of an outcome. -/
def after : Host.Outcome State Fault Refusal → Option State
  | .next t => some t
  | .fault _ => none
  | .refused _ => none

/-- The response of an outcome. -/
def answer (o : Host.Outcome State Fault Refusal) : Option Response := (after o).map (·.resp)

/-- Payload and marker of each fragment an outcome emitted. -/
def sent (o : Host.Outcome State Fault Refusal) : Option (List (List Byte × Bool)) :=
  (after o).map fun t => t.tx.map fun f => (f.payload, f.marker)

/-- The events of an outcome. -/
def events (o : Host.Outcome State Fault Refusal) : Option (List Event) := (after o).map (·.diag)

/-- Reset with a reader over `span` at bit `pos`. -/
def brAt (span : List Byte) (pos : Nat) : State :=
  { State.reset with br := ⟨span, span.length, pos, false⟩ }

/-- Reset with a packetizer in SYNC over `buf`. -/
def synced (buf : List Byte) : State :=
  { State.reset with pkt := { State.reset.pkt with state := .sync, buf := buf } }

/-- The cached header of V10. -/
def cached (s : State) : State := replaceCache [0x70, 0xC4, 0x80, 0x40] ⟨1280#32, 720#32, false⟩ s

/-- Reset with a depacketizer in picture 7, with 6 bytes and `last_off` 17 (V60 after its second call). -/
def inPicture : State :=
  { State.reset with
    dpk := ⟨false, true, 7#32, [0x21, 0x66, 0x63, 0x6C, 0x8C, 0x6C], 6#32, 17#32, 0#16⟩ }

/-- The sequence header of V10. -/
def header : List Byte := [0x70, 0xC4, 0x80, 0x40]

/-- The sequence header of V11. -/
def headerInterlaced : List Byte := [0x70, 0xC1, 0x80, 0x10]

/-- The picture body of V47: transform parameters of V24, one slice of 7 bytes. -/
def pictureBody : List Byte := [0xC9, 0x90, 0x09, 0x01, 0x11, 0x00, 0x02, 0x33, 0x44]

/-- The stream of P2. -/
def stream : List Byte :=
  parseInfo 0x00 17 0 ++ header ++ parseInfo 0xE8 103 17 ++ [0, 0, 0, 7, 0x21, 0x66, 0x63, 0x6C, 0x8C, 0x6C] ++
  [0x05, 0x0C] ++ List.replicate 12 0xA0 ++ [0x0C] ++ List.replicate 12 0xA1 ++ [0x0C] ++ List.replicate 12 0xA2 ++
  [0x06, 0x0C] ++ List.replicate 12 0xB0 ++ [0x0C] ++ List.replicate 12 0xB1 ++ [0x0C] ++ List.replicate 12 0xB2 ++
  parseInfo 0x10 0 103

/-! ### Ill-formed terms -/

theorem test_unknown_unit_is_no_known_one :
    (∀ c ∈ [0x00, 0x10, 0x20, 0x30, 0xE8], (Instr.unitUnknown c 13 0).wellFormed = false) ∧
    (Instr.unitUnknown 0xEC 13 0).wellFormed = true := by decide
theorem test_unknown_fragment_is_no_known_one :
    (∀ c ∈ [0x00, 0x10, 0xEC], (Instr.fragUnknown ⟨0, 0⟩ c []).wellFormed = false) ∧
    (Instr.fragUnknown ⟨0, 0⟩ 0xE8 []).wellFormed = true := by decide
theorem test_slice_fragment_counts_slices :
    (Instr.fragHqSlices ⟨0, 0⟩ ⟨7, 0, 1, 4⟩ 0 [] false).wellFormed = false ∧
    (Instr.fragHqSlices ⟨0, 0⟩ ⟨7, 0, 1, 4⟩ 1 [] false).wellFormed = true := by decide
theorem test_extract_stays_in_its_buffer :
    (Instr.puExtract [1] 2 0).wellFormed = false ∧ (Instr.puExtract [1] 1 0).wellFormed = true := by decide
theorem test_find_stays_in_its_buffer :
    (Instr.puFind [1] 2 0).wellFormed = false ∧ (Instr.puFind [1] 1 0).wellFormed = true := by decide

/-! ### Written words (30_encoding.md R61 to R74, R80; opcode_table.json) -/

theorem test_decode_commands :
    decodeTableWord 8 0x10 = some (.brInit []) ∧ decodeTableWord 8 0x11 = some .brReadBit ∧
    decodeTableWord 8 0x12 = some .brReadBool ∧ decodeTableWord 8 0x13 = some .brReadUint ∧
    decodeTableWord 8 0x14 = some .brLength ∧ decodeTableWord 8 0x15 = some .brOverrun ∧
    decodeTableWord 8 0x20 = some (.shParse []) ∧ decodeTableWord 8 0x21 = some (.shEqual [] []) ∧
    decodeTableWord 8 0x30 = some (.tpParse []) ∧ decodeTableWord 8 0x40 = some (.puExtract [] 0 0) ∧
    decodeTableWord 8 0x41 = some (.puFind [] 0 0) ∧ decodeTableWord 8 0x50 = some (.pktPush [] 0 0) ∧
    decodeTableWord 8 0x51 = some .pktReset ∧ decodeTableWord 8 0x52 = some (.pktSetMtu 0) ∧
    decodeTableWord 8 0x60 = some (.dpkFrag [] false false) ∧ decodeTableWord 8 0x61 = some .dpkReset ∧
    decodeTableWord 8 0x16 = none := by decide
theorem test_decode_units :
    decodeTableWord 40 0x4242434400 = some (.unitSequenceHeader 0 0) ∧
    decodeTableWord 40 0x4242434410 = some (.unitEndOfSequence 0 0) ∧
    decodeTableWord 40 0x4242434420 = some (.unitAuxiliary 0 0) ∧
    decodeTableWord 40 0x4242434430 = some (.unitPadding 0 0) ∧
    decodeTableWord 40 0x42424344E8 = some (.unitHqPicture 0 0) ∧
    decodeTableWord 40 0x42424344C8 = some (.unitUnknown 0xC8 0 0) ∧
    decodeTableWord 40 0x4242434500 = none := by decide +kernel
theorem test_decode_unit_fields :
    decode (.unit [0x42, 0x42, 0x43, 0x44, 0x20, 0x01, 0x02, 0x03, 0x04, 0x0A, 0x0B, 0x0C, 0x0D]) =
      .ok (.unitAuxiliary 0x01020304 0x0A0B0C0D) := by decide
theorem test_decode_fragments :
    decode (.fragment [0x12, 0x34, 0x00, 0x00, 0x70, 0xC4] true) =
      .ok (.fragSequenceHeader ⟨0x1234, 0⟩ [0x70, 0xC4]) ∧
    decode (.fragment [0x00, 0x03, 0x00, 0x10] false) = .ok (.fragEndOfSequence ⟨3, 0⟩ []) ∧
    decode (.fragment [0, 1, 2, 0xEC, 0, 0, 0, 7, 1, 2, 3, 4, 0, 2, 0, 0, 0xC9, 0x90] false) =
      .ok (.fragHqParams ⟨1, 2⟩ ⟨7, 0x0102, 0x0304, 2⟩ [0xC9, 0x90] false) ∧
    decode (.fragment [0, 2, 3, 0xEC, 0, 0, 0, 8, 0, 0, 0, 1, 0, 1, 1, 0, 0, 5, 0, 6, 9] true) =
      .ok (.fragHqSlices ⟨2, 3⟩ ⟨8, 0, 1, 1⟩ 0x0100 [0, 5, 0, 6, 9] true) ∧
    decode (.fragment [0, 0, 0, 0xE8, 1, 2, 3] true) = .ok (.fragUnknown ⟨0, 0⟩ 0xE8 [1, 2, 3]) := by decide
theorem test_decode_rejects_by_name :
    decode (.fragment [0, 1, 0] true) = .rejected .shortPayload ∧
    decode (.fragment [0, 1, 0, 0xEC, 0, 0, 0, 7, 0, 0, 0] true) = .rejected .shortHqFragment ∧
    decode (.unit [0x42, 0x42, 0x43, 0x44, 0x10]) = .rejected .shortHeader ∧
    decode (.unit [0x42, 0x42, 0x43, 0x45, 0, 0, 0, 0, 0, 0, 0, 0, 0]) = .rejected .badMagic := by decide
theorem test_decode_codes :
    decode (.boolCode [false, true]) = .ok (.vlcBool false) ∧
    decode (.uintCode [false, true, false, false, true, true]) = .ok (.vlcUint [true, false]) := by decide

/-! ### Unit BR -/

theorem test_init_example : after (exec (.brInit [0x2C]) (brAt [0xFF] 5)) = some (brAt [0x2C] 0) := by decide
theorem test_readbit_v3 :
    answer (exec .brReadBit (brAt [0xA5] 1)) = some (.bit false) ∧
    answer (exec .brReadBit (brAt [0xA5] 2)) = some (.bit true) := by decide
theorem test_readbit_v4 :
    after (exec .brReadBit (brAt [] 0)) =
      some { State.reset with br := ⟨[], 0, 0, true⟩, resp := .bit true } := by decide
theorem test_readbool_v2 :
    answer (exec .brReadBool (brAt [0x40] 0)) = some (.bool false) ∧
    answer (exec .brReadBool (brAt [0x40] 1)) = some (.bool true) := by decide
theorem test_readuint_v1 :
    answer (exec .brReadUint (brAt [0x12] 0)) = some (.uint 9) ∧
    answer (exec .brReadUint (brAt [0x54, 0x00, 0x08] 0)) = some (.uint 1919) := by decide +kernel
theorem test_readuint_v5 :
    (after (exec .brReadUint (brAt [0xAA] 1))).map (fun t => (t.resp, t.br)) =
      some (.uint 30, ⟨[0xAA], 1, 8, true⟩) := by decide +kernel
theorem test_readuint_v6 :
    (after (exec .brReadUint (brAt [0x55, 0x55, 0x55, 0x55, 0x55, 0x55, 0x55, 0x55, 0x80] 0))).map
      (fun t => (t.resp, t.br.pos, t.br.ovr)) = some (.uint 0xFFFFFFFE, 65, false) := by decide +kernel
theorem test_length_v7 :
    [0, 1, 7, 8, 9, 16, 17].map (fun p => answer (exec .brLength (brAt [0, 0, 0] p))) =
      [0, 1, 1, 1, 2, 2, 3].map fun n => some (.byteCount n) := by decide
theorem test_overrun_keeps_the_flag :
    after (exec .brOverrun { State.reset with br := ⟨[], 0, 0, true⟩ }) =
      some { State.reset with br := ⟨[], 0, 0, true⟩, resp := .bool true } := by decide
theorem test_vlc_bool_v2 :
    after (exec (.vlcBool false) (brAt [0x40] 0)) = some { brAt [0x40] 1 with resp := .bool false } := by decide
theorem test_vlc_uint_v1 :
    after (exec (.vlcUint [true, false]) (brAt [0x48] 0)) =
      some { brAt [0x48] 5 with resp := .uint 5 } := by decide +kernel

/-! ### Units SHP and TPP -/

theorem test_parse_v10_v11 :
    answer (exec (.shParse header) State.reset) = some (.seqInfo (some ⟨1280, 720, false⟩)) ∧
    answer (exec (.shParse headerInterlaced) State.reset) = some (.seqInfo (some ⟨720, 288, true⟩)) := by
  decide +kernel
theorem test_parse_v13_v17 :
    shParse [0x64, 0x29, 0xD0, 0x46, 0x82, 0xEE, 0x74, 0x49, 0x9A, 0x00, 0xD0, 0x1B, 0x38, 0x0D, 0x15, 0x08,
      0x00, 0x35, 0x00, 0x7C, 0xAE] = .ok ⟨100, 50, false⟩ ∧
    events (exec (.shParse [0x70, 0xC4, 0x80]) State.reset) = some [.malformedHeader .vlcOverrun] := by
  decide +kernel
theorem test_equal_v21 :
    answer (exec (.shEqual header (header ++ [0])) State.reset) = some (.bool true) ∧
    answer (exec (.shEqual header [0x70, 0xC4, 0x80, 0x41]) State.reset) = some (.bool false) := by decide
theorem test_transform_v22_v23 :
    answer (exec (.tpParse [0x21, 0x66, 0x40]) State.reset) =
      some (.transformInfo (some ⟨1, 3, 2, 1, 0, 1, 3⟩)) ∧
    answer (exec (.tpParse [0x21, 0x66, 0x63, 0x6C, 0x8C, 0x6C]) State.reset) =
      some (.transformInfo (some ⟨1, 3, 2, 1, 0, 1, 6⟩)) := by decide +kernel
theorem test_transform_v25_v29 :
    (tpParse 1 [0x36, 0x66, 0x30]).map (·.codedSize) = some 3 ∧
    events (exec (.tpParse [0x84, 0x99]) State.reset) = some [.malformedHeader .vlcOverrun] := by decide +kernel

/-! ### Unit PUS -/

theorem test_extract_v33 :
    answer (exec (.puExtract (parseInfo 0x20 13 0 ++ parseInfo 0x10 0 12) 26 0) State.reset) =
      some (.extracted (.reject .badLink)) := by decide +kernel
theorem test_extract_v34 :
    answer (exec (.puExtract (parseInfo 0xE8 0 17 ++ [1, 2, 3] ++ parseInfo 0x10 0 16) 29 0) State.reset) =
      some (.extracted (.found ⟨0, 0xE8, 16, 17⟩)) := by decide +kernel
theorem test_find_v32 :
    answer (exec (.puFind ([0x00, 0x42, 0x42] ++ parseInfo 0x20 13 0 ++ parseInfo 0x10 0 13) 29 0) State.reset) =
      some (.foundAt (some 3)) := by decide +kernel
theorem test_find_too_short :
    events (exec (.puFind [0x42, 0x42, 0x43] 3 0) State.reset) = some [.needMore] := by decide +kernel

/-! ### Unit PKT -/

theorem test_push_p2 :
    sent (exec (.pktPush stream 5 6) State.reset) = some
      [([0, 0, 0, 0] ++ header, false),
       ([0, 1, 0, 0xEC, 0, 0, 0, 7, 0, 0, 0, 1, 0, 6, 0, 0, 0x21, 0x66, 0x63, 0x6C, 0x8C, 0x6C], false),
       ([0, 2, 0, 0xEC, 0, 0, 0, 7, 0, 0, 0, 1, 0, 0x50, 0, 2, 0, 0, 0, 0] ++ (stream.drop 40).take 80, true),
       ([0, 3, 0, 0x10], false)] := by decide +kernel
theorem test_push_v35 :
    (after (exec (.pktPush (parseInfo 0x20 9 0x42424344 ++ [0x10, 0, 0, 0, 0, 0, 0, 0, 9]) 0 0) State.reset)).map
      (fun t => (t.diag, t.tx.map (·.payload), t.pkt.buf)) =
    some ([.malformedHeader .shortUnit, .needMore], [[0, 0, 0, 0x10]], []) := by decide +kernel
theorem test_reset_v54 :
    (after (exec .pktReset (synced header))).map (fun t => (t.pkt.buf, t.pkt.event, t.pkt.mtu)) =
      some ([], 0x0204, 1500) := by decide
theorem test_setmtu_range :
    (after (exec (.pktSetMtu 15) State.reset)).map (·.pkt.mtu) = some 1500 ∧
    (after (exec (.pktSetMtu 16) State.reset)).map (·.pkt.mtu) = some 16 := by decide
theorem test_sequence_header_unit_example :
    (after (exec (.unitSequenceHeader 17 0) (synced (parseInfo 0x00 17 0 ++ header ++ parseInfo 0x10 0 17)))).map
      (fun t => (t.tx.map (·.payload), t.pkt.cache, t.pkt.cacheIl, t.pkt.extSeq)) =
    some ([[0, 0, 0, 0] ++ header], header, false, 1) := by decide +kernel
theorem test_sequence_header_unit_v41 :
    sent (exec (.unitSequenceHeader 18 17)
      (cached (synced (parseInfo 0x00 18 17 ++ header ++ [0] ++ parseInfo 0x10 0 18)))) =
    some [([0, 0, 0, 0] ++ header, false)] := by decide +kernel
theorem test_end_of_sequence_unit :
    (after (exec (.unitEndOfSequence 99 103) (cached (synced (parseInfo 0x10 99 103 ++ [7]))))).map
      (fun t => (t.tx.map (·.payload), t.pkt.state, t.pkt.cacheValid, t.pkt.buf)) =
    some ([[0, 0, 0, 0x10]], .unsync, false, [7]) := by decide +kernel
theorem test_auxiliary_unit_v48 :
    (after (exec (.unitAuxiliary 16 0) (synced (parseInfo 0x20 16 0 ++ [0x61, 0x62, 0x63] ++
      parseInfo 0x10 0 16)))).map (fun t => (t.pkt.buf, t.tx, t.diag)) =
    some (parseInfo 0x10 0 16, [], []) := by decide +kernel
theorem test_padding_unit_v48 :
    (after (exec (.unitPadding 0 16) (synced (parseInfo 0x30 0 16 ++ [0] ++ parseInfo 0x10 0 14)))).map
      (fun t => (t.pkt.buf, t.tx, t.diag)) = some (parseInfo 0x10 0 14, [], []) := by decide +kernel
theorem test_unknown_unit_v48 :
    (after (exec (.unitUnknown 0xEC 13 14) (synced (parseInfo 0xEC 13 14 ++ parseInfo 0x10 0 13)))).map
      (fun t => (t.pkt.buf, t.tx, t.diag)) = some (parseInfo 0x10 0 13, [], []) := by decide +kernel
theorem test_picture_unit_v47 :
    sent (exec (.unitHqPicture 26 17)
      (replaceCache headerInterlaced ⟨720, 288, true⟩
        (synced (parseInfo 0xE8 26 17 ++ [0, 0, 0, 7] ++ pictureBody ++ parseInfo 0x10 0 26)))) =
    some
      [([0, 0, 3, 0xEC, 0, 0, 0, 7, 0, 0, 0, 1, 0, 2, 0, 0, 0xC9, 0x90], false),
       ([0, 1, 3, 0xEC, 0, 0, 0, 7, 0, 0, 0, 1, 0, 7, 0, 1, 0, 0, 0, 0, 9, 1, 0x11, 0, 2, 0x33, 0x44], true)] := by
  decide +kernel
/-- Another layout: every slice has 4 bytes. The packing rules follow it (30_encoding.md R69, D46). -/
theorem test_slice_layout_is_a_parameter :
    (sliceWalk (fun _ _ _ => some 4) [] ⟨0, 0, 2, 1, 0, 1, 2⟩ 20 2 2).toOption = some [(2, 4), (6, 4)] ∧
    (sliceWalk (fun _ _ _ => none) [] ⟨0, 0, 2, 1, 0, 1, 2⟩ 20 2 2).toOption = none := by decide
theorem test_picture_unit_v49 :
    (after (exec (.unitHqPicture 26 0) (synced (parseInfo 0xE8 26 0 ++
      [0, 0, 0, 1, 0xC9, 0x90, 9, 1, 0x11, 0, 5, 0x33, 0x44] ++ parseInfo 0x10 0 26)))).map
      (fun t => (t.pkt.buf, t.tx, t.pkt.event)) = some (parseInfo 0x10 0 26, [], 0x0A01) := by decide +kernel

/-! ### Unit DPK -/

theorem test_frag_v64 :
    (after (exec (.dpkFrag ([0, 3, 0, 0xEC, 0, 0, 0, 7, 0, 0, 0, 1, 0, 1, 0, 1, 0, 1, 0, 0, 9]) true true)
      inPicture)).map (fun t => (t.resp, t.diag, t.dpk.waiting, t.dpk.lastOff, t.dpk.event)) =
    some (.parseUnit none, [.discontinuity .transportFlag, .sequenceMismatch .notInPicture], true, 0, 0x0303) := by
  decide +kernel
theorem test_frag_v67 :
    (after (exec (.dpkFrag [0, 1, 0, 0xEC, 0, 0, 0, 7, 0, 0, 0] true false) inPicture)).map
      (fun t => (t.resp, t.dpk)) =
    some (.parseUnit none, { inPicture.dpk with event := 0x0C01 }) := by decide +kernel
theorem test_dpk_reset_v73 :
    (after (exec .dpkReset inPicture)).map (·.dpk) = some ⟨true, false, 7, [], 0, 0, 0x0204⟩ := by decide
theorem test_frag_sequence_header_example :
    (after (exec (.fragSequenceHeader ⟨0, 0⟩ header) State.reset)).map (fun t => (t.resp, t.dpk.lastOff)) =
    some (.parseUnit (some ([0x42, 0x42, 0x43, 0x44, 0, 0, 0, 0, 0x11, 0, 0, 0, 0] ++ header)), 17) := by
  decide +kernel
theorem test_frag_end_of_sequence_example :
    answer (exec (.fragEndOfSequence ⟨3, 0⟩ [])
      { State.reset with dpk := { State.reset.dpk with lastOff := 103 } }) =
    some (.parseUnit (some [0x42, 0x42, 0x43, 0x44, 0x10, 0, 0, 0, 0, 0, 0, 0, 0x67])) := by decide +kernel
theorem test_frag_params_v70 :
    answer (exec (.fragHqParams ⟨1, 0⟩ ⟨7, 0, 1, 6⟩ [0x21, 0x66, 0x63, 0x6C, 0x8C, 0x6C] true) State.reset) =
    some (.parseUnit (some [0x42, 0x42, 0x43, 0x44, 0xE8, 0, 0, 0, 0x17, 0, 0, 0, 0, 0, 0, 0, 7, 0x21, 0x66, 0x63,
      0x6C, 0x8C, 0x6C])) := by decide +kernel
theorem test_frag_params_v72 :
    (after (exec (.fragHqParams ⟨1, 0⟩ ⟨7, 0, 1, 2⟩ [0xC9, 0x90, 0xFF, 0xFF] false) inPicture)).map
      (fun t => (t.dpk.acc, t.dpk.accBytes)) = some ([0xC9, 0x90], 2) := by decide +kernel
theorem test_frag_slices_put_the_picture_out :
    (after (exec (.fragHqSlices ⟨2, 0⟩ ⟨7, 0, 1, 2⟩ 1 [0, 0, 0, 0, 8, 9] true) inPicture)).map
      (fun t => (t.resp, t.dpk.acc, t.dpk.lastOff)) =
    some (.parseUnit (some [0x42, 0x42, 0x43, 0x44, 0xE8, 0, 0, 0, 0x19, 0, 0, 0, 0x11, 0, 0, 0, 7, 0x21, 0x66,
      0x63, 0x6C, 0x8C, 0x6C, 8, 9]), [], 25) := by decide +kernel
theorem test_frag_slices_v65 :
    (after (exec (.fragHqSlices ⟨2, 0⟩ ⟨7, 0, 1, 3⟩ 1 [0, 0, 0, 0, 8, 9] false) inPicture)).map
      (fun t => (t.dpk.inPicture, t.dpk.acc, t.dpk.event)) = some (false, [], 0x0103) := by decide +kernel
theorem test_frag_unknown_v68 :
    after (exec (.fragUnknown ⟨0, 0⟩ 0xE8 [1, 2, 3]) inPicture) =
      some { inPicture with resp := .parseUnit none } := by decide

/-! ### Steps -/

theorem test_step_runs_a_table_word :
    answer (step (State.reset.withFetchWord 8 0x14)) = some (.byteCount 0) := by decide +kernel
theorem test_step_runs_a_unit_first :
    (after (step (State.reset.withFetchWord 40 0x4242434420))).map (fun t => (t.pkt.buf, t.diag)) =
      some (successorHeader, []) := by decide +kernel
theorem test_step_idles : step State.reset = .next State.reset := rfl
theorem test_unknown_command_is_ignored :
    after (step { State.reset with inbox := [.command 0x16 Operands.zero] }) = some State.reset := by decide +kernel

/-! ### Witnesses: states and operands that meet the hypotheses of the statements -/

theorem test_witness_BrInitMakesAFreshReader :
    ∃ i s t, (∀ span, i ≠ .brInit span) ∧ exec i s = .next t :=
  ⟨.brReadBit, State.reset, _, fun _ => Instr.noConfusion, rfl⟩
theorem test_witness_BrReadUintReadsACode :
    (brAt [0x48] 0).br.ok ∧ bitsLeft (brAt [0x48] 0).br = codePairs [true, false] ++ true :: [false, false, false] ∧
    [true, false].length ≤ 31 := by decide
theorem test_witness_BrReadUintMeetsTheEndOfTheSpan :
    (brAt [0x55] 0).br.ok ∧ bitsLeft (brAt [0x55] 0).br = codePairs [true, true, true, true] ∧
    (brAt [0xAA] 1).br.ok ∧ bitsLeft (brAt [0xAA] 1).br = codePairs [true, true, true] ++ [false] ∧
    (brAt [0xAA] 8).br.ok ∧ (brAt [0xAA] 8).br.pos = 8 * (brAt [0xAA] 8).br.len := by decide
theorem test_witness_VlcRoundTrip :
    (brAt [0x40, 0x80] 0).br.ok ∧ 23 ≤ 0xFFFFFFFE ∧
    bitsLeft (brAt [0x40, 0x80] 0).br = ue 23 ++ List.replicate 7 false := by decide +kernel
theorem test_witness_VlcRoundTrip_largest :
    (brAt [0x55, 0x55, 0x55, 0x55, 0x55, 0x55, 0x55, 0x56] 0).br.ok ∧
    bitsLeft (brAt [0x55, 0x55, 0x55, 0x55, 0x55, 0x55, 0x55, 0x56] 0).br = ue 0xFFFFFFFE ++ [false] := by
  decide +kernel
theorem test_witness_BrLengthCountsWholeBytes : (brAt [0x55] 8).br.ok := by decide
theorem test_witness_VlcCodeAtTheCursorIsTheRead :
    (brAt [0x48] 0).br.ok ∧ decode (.boolCode (bitsLeft (brAt [0x48] 0).br)) = .ok (.vlcBool false) ∧
    decode (.uintCode (bitsLeft (brAt [0x48] 0).br)) = .ok (.vlcUint [true, false]) := by decide
theorem test_witness_VlcBoolIsOneBit :
    (brAt [0x48] 7).br.ok ∧ bitsLeft (brAt [0x48] 7).br = false :: [] ∧
    (brAt [0x48] 8).br.ok ∧ bitsLeft (brAt [0x48] 8).br = [] := by decide
theorem test_witness_VlcUintIsASelfTerminatingCode :
    (brAt [0x02] 0).br.ok ∧ bitsLeft (brAt [0x02] 0).br = codePairs [false, false, false] ++ true :: [false] ∧
    (brAt [0x00] 0).br.ok ∧ bitsLeft (brAt [0x00] 0).br = codePairs [false, false, false, false] ∧
    (brAt [0x00] 1).br.ok ∧ bitsLeft (brAt [0x00] 1).br = codePairs [false, false, false] ++ [false] := by decide
theorem test_witness_ShParseChecksInOrder :
    (seqGrammar [0x70, 0xC4]).reader.ovr = true ∧
    ((seqGrammar [0x30, 0xC4, 0x80, 0x40]).reader.ovr = false ∧
      (seqGrammar [0x30, 0xC4, 0x80, 0x40]).majorVersion ≠ 2#32) ∧
    ((seqGrammar [0x7C, 0x48, 0x04]).reader.ovr = false ∧ (seqGrammar [0x7C, 0x48, 0x04]).majorVersion = 2#32 ∧
      (seqGrammar [0x7C, 0x48, 0x04]).profile ≠ 3#32) := by decide +kernel
theorem test_witness_ShParseChecksInOrder_base_format :
    (let f := seqGrammar [0x70, 0xD0, 0x20, 0x10];
      f.reader.ovr = false ∧ f.majorVersion = 2#32 ∧ f.profile = 3#32 ∧ f.baseVideoFormat = 23#32) ∧
    (let f := seqGrammar [0x70, 0xC5, 0x60, 0x10];
      f.reader.ovr = false ∧ f.majorVersion = 2#32 ∧ f.profile = 3#32 ∧ f.baseVideoFormat = 22#32) := by
  decide +kernel
/-- The text of V13. -/
def fullText : HeaderText :=
  ⟨2, 1, 3, 5, 0, some (100, 50), some 2, some 1, some (0, [25, 1]), some (1, []), some [96, 48, 2, 1],
    some (0, [16, 219, 128, 224]), some (0, [some 1, none, some 2]), 0⟩
/-- The text of V10. -/
def plainText : HeaderText := ⟨2, 0, 3, 0, 9, none, none, none, none, none, none, none, none, 0⟩
theorem test_witness_HeaderTextParsesToItsFields :
    fullText.ok ∧ spanBits [0x64, 0x29, 0xD0, 0x46, 0x82, 0xEE, 0x74, 0x49, 0x9A, 0x00, 0xD0, 0x1B, 0x38, 0x0D,
      0x15, 0x08, 0x00, 0x35, 0x00, 0x7C, 0xAE] = fullText.bits ++ [false] := by decide +kernel
/-- The text of the bytes of V23 (its list of matrix values writes 54 bits, its bytes and its 46 bits these). -/
def matrixText : TransformText := ⟨1, 3, 2, 1, 0, 1, some [4, 2, 2, 1, 4, 4, 2]⟩
theorem test_witness_TransformTextParsesToItsRecord :
    matrixText.ok ∧ spanBits [0x21, 0x66, 0x63, 0x6C, 0x8C, 0x6C] = matrixText.bits ++ [false, false] := by
  decide +kernel
theorem test_witness_TpParseFailsOnlyByOverrun :
    (tpGrammar Config.qmSub [0x21, 0x66]).2.ovr = true ∧
    (tpGrammar Config.qmSub [0x21, 0x66, 0x40]).2.ovr = false := by decide +kernel
theorem test_witness_TruncatedTextsOverrun :
    plainText.ok ∧ spanBits [0x70, 0xC4, 0x80] ++ [false, true] = plainText.bits ∧
    (⟨1, 3, 2, 1, 0, 1, none⟩ : TransformText).ok ∧
    spanBits [0x21, 0x66] ++ [false, true, false] = (⟨1, 3, 2, 1, 0, 1, none⟩ : TransformText).bits := by
  decide +kernel
theorem test_witness_StoppingAtTheFirstOverrunIsInvisible :
    (skipUints 2 (brAt [0xC0] 0).br).ovr = false := by decide +kernel
theorem test_witness_PuExtractChecksInOrder :
    let b := parseInfo 0x20 13 0 ++ parseInfo 0x10 0 13
    26 ≤ b.length ∧ 13 < 1 + 13 ∧ 0 + 13 ≤ 13 ∧ magicAt b 0 ∧ ¬magicAt b 1 ∧ 13 + 13 ≤ 26 ∧ magicAt b 13 ∧
    byteAt b (13 + 4) = 0x10#8 ∧ byteAt b 4 ≠ 0x10#8 ∧ be32 b 5 ≠ 0#32 ∧
    25 < 0 + (be32 b 5).toNat + 13 ∧ 0 + (be32 b 5).toNat + 13 ≤ 26 ∧ magicAt b (0 + (be32 b 5).toNat) ∧
    be32 b (0 + (be32 b 5).toNat + 9) = be32 b 5 := by decide +kernel
theorem test_witness_PuExtractChecksInOrder_bad_link :
    let b := parseInfo 0x20 13 0 ++ parseInfo 0x10 0 12
    26 ≤ b.length ∧ magicAt b 0 ∧ byteAt b 4 ≠ 0x10#8 ∧ be32 b 5 ≠ 0#32 ∧
    0 + (be32 b 5).toNat + 13 ≤ 26 ∧ be32 b (0 + (be32 b 5).toNat + 9) ≠ be32 b 5 := by decide +kernel
theorem test_witness_PuExtractScansForTheSuccessor :
    let b := parseInfo 0x20 0 0 ++ [0x42] ++ parseInfo 0x10 0 14
    27 ≤ b.length ∧ 0 + 13 ≤ 27 ∧ magicAt b 0 ∧ byteAt b 4 ≠ 0x10#8 ∧ be32 b 5 = 0#32 ∧ isSuccessor b 27 0 14 ∧
    ∀ d < 14, ¬isSuccessor b 27 0 d := by decide +kernel
theorem test_witness_PuExtractScansForTheSuccessor_none :
    let b := parseInfo 0x20 0 0
    13 ≤ b.length ∧ 0 + 13 ≤ 13 ∧ magicAt b 0 ∧ byteAt b 4 ≠ 0x10#8 ∧ be32 b 5 = 0#32 ∧
    ∀ c, ¬isSuccessor b 13 0 c :=
  ⟨by decide, by decide, by decide, by decide, by decide, fun c h => by have h1 := h.1; have h2 := h.2.1; omega⟩
theorem test_witness_PuFindGivesTheFirstAcceptedUnit :
    let b := [0x00] ++ parseInfo 0x10 0 0
    let passes := fun p => 0 ≤ p ∧ p + 4 ≤ 14 ∧ magicAt b p ∧ ∃ u, puExtract b 14 p = .found u
    14 ≤ b.length ∧ passes 1 ∧ ∀ q < 1, ¬passes q := by
  refine ⟨by decide, ⟨by decide, by decide, by decide, ⟨1, 0x10, 0, 0⟩, by decide +kernel⟩, ?_⟩
  intro q hq h
  obtain rfl : q = 0 := by omega
  exact absurd h.2.2.1 (by decide)
theorem test_witness_PuFindGivesTheFirstAcceptedUnit_none :
    0 ≤ ([] : List Byte).length ∧
    ∀ p, ¬(0 ≤ p ∧ p + 4 ≤ 0 ∧ magicAt [] p ∧ ∃ u, puExtract [] 0 p = .found u) :=
  ⟨by decide, fun p h => by have := h.2.1; omega⟩
theorem test_witness_PusReadsNothingBeyondSize :
    1 ≤ [0x42#8, 1#8].length ∧ 1 ≤ [0x42#8, 2#8].length ∧ [0x42#8, 1#8].take 1 = [0x42#8, 2#8].take 1 := by decide
theorem test_witness_EndOfSequenceUnitEndsTheSequence :
    13 ≤ (synced (parseInfo 0x10 0 103)).pkt.buf.length := by decide
theorem test_witness_SkippedUnitsAreOnlyConsumed :
    unitAtHead 0x20 13 0 13 (synced (parseInfo 0x20 13 0 ++ parseInfo 0x10 0 13)) ∧
    unitAtHead 0x30 0 0 13 (synced (parseInfo 0x30 0 0 ++ parseInfo 0x10 0 13)) ∧
    unitAtHead 0xEC 13 0 13 (synced (parseInfo 0xEC 13 0 ++ parseInfo 0x10 0 13)) ∧
    0xEC#8 ∉ [0x00#8, 0x10#8, 0x20#8, 0x30#8, 0xE8#8] ∧
    unitAtHead 0x20 9 0x42424344 9 (synced (parseInfo 0x20 9 0x42424344 ++ [0x10, 0, 0, 0, 0, 0, 0, 0, 9])) := by
  decide +kernel
theorem test_witness_UndecidedUnitsWaitAndWrongOnesResync :
    (let b := parseInfo 0x20 13 0;
      b.take 13 = parseInfo 0x20 13 0 ∧ puExtract b b.length 0 = .more) ∧
    (let b := parseInfo 0x20 13 0 ++ parseInfo 0x10 0 12;
      b.take 13 = parseInfo 0x20 13 0 ∧ puExtract b b.length 0 = .reject .badLink) := by decide +kernel
theorem test_witness_SequenceHeaderUnitCachesAndEmits :
    (unitAtHead 0x00 9 0x42424344 9 (synced (parseInfo 0x00 9 0x42424344 ++ [0x10, 0, 0, 0, 0, 0, 0, 0, 9])) ∧
      (9#32).toNat < 13) ∧
    (unitAtHead 0x00 13 0 13 (synced (parseInfo 0x00 13 0 ++ parseInfo 0x10 0 13)) ∧ 13 ≤ (13#32).toNat ∧
      shParse [] = .error .vlcOverrun) ∧
    (let s := synced (parseInfo 0x00 17 0 ++ header ++ parseInfo 0x10 0 17);
      unitAtHead 0x00 17 0 17 s ∧ slice s.pkt.buf 13 (17#32).toNat = header ∧
      shParse header = .ok ⟨1280, 720, false⟩ ∧ s.pkt.cacheValid = false ∧ (cached s).pkt.cacheValid = true ∧
      unitAtHead 0x00 17 0 17 (cached s) ∧ shEqual (cached s).pkt.cache header = true ∧
      shEqual headerInterlaced header = false) := by decide +kernel
/-- A buffer with one picture of body `body`, picture number 1, and its successor. -/
def picture (body : List Byte) : State :=
  let n := u32 (body.length + 17)
  synced (parseInfo 0xE8 n 0 ++ [0, 0, 0, 1] ++ body ++ parseInfo 0x10 0 n)
theorem test_witness_HqPictureUnitFailsAsAWhole :
    (unitAtHead 0xE8 15 0 15 (synced (parseInfo 0xE8 15 0 ++ [0, 0] ++ parseInfo 0x10 0 15)) ∧ (15#32).toNat < 17) ∧
    (unitAtHead 0xE8 18 0 18 (picture [0xC9]) ∧ tpParse Config.qmSub [0xC9] = none) ∧
    (unitAtHead 0xE8 19 0 19 (picture [0xE6, 0x40]) ∧
      tpParse Config.qmSub [0xE6, 0x40] = some ⟨0, 0, 0, 1, 0, 1, 2⟩ ∧ fieldsFit ⟨0, 0, 0, 1, 0, 1, 2⟩) := by
  decide +kernel
/-- Transform parameters with `slices_x` 65535 and `slices_y` 65536. -/
def wideBody : List Byte := [0xc0, 0x0, 0x0, 0x0, 0x20, 0x0, 0x0, 0x0, 0x39, 0x0]
theorem test_witness_HqPictureUnitFailsAsAWhole_range :
    unitAtHead 0xE8 27 0 27 (picture wideBody) ∧
    tpParse Config.qmSub wideBody = some ⟨0, 0, 65535, 65536, 0, 1, 10⟩ ∧
    ¬fieldsFit ⟨0, 0, 65535, 65536, 0, 1, 10⟩ ∧ fieldsFit ⟨0, 0, 65535, 65535, 0, 1, 10⟩ := by decide +kernel
/-- `s` with the budget `mtu`. -/
def budget (mtu : Half) (s : State) : State := { s with pkt := { s.pkt with mtu := mtu } }
theorem test_witness_HqPictureUnitFailsAsAWhole_params :
    let body := [0x21#8, 0x66#8, 0x63#8, 0x6C#8, 0x8C#8, 0x6C#8]
    let s := budget 17 (picture body)
    unitAtHead 0xE8 23 0 23 s ∧ slice s.pkt.buf 17 23 = body ∧
    tpParse Config.qmSub body = some ⟨1, 3, 2, 1, 0, 1, 6⟩ ∧ fieldsFit ⟨1, 3, 2, 1, 0, 1, 6⟩ ∧
    s.pkt.mtu.toNat < 6 + 12 ∧ 6 + 12 ≤ (budget 18 s).pkt.mtu.toNat := by decide +kernel
theorem test_witness_HqPictureUnitFailsAsAWhole_bounds :
    let body := [0xC9#8, 0x90#8, 0x09#8, 0x01#8, 0x11#8, 0x00#8, 0x05#8, 0x33#8, 0x44#8]
    unitAtHead 0xE8 26 0 26 (picture body) ∧ slice (picture body).pkt.buf 17 26 = body ∧
    tpParse Config.qmSub body = some ⟨0, 0, 1, 1, 0, 1, 2⟩ ∧
    Config.sliceLen body 2 ⟨0, 0, 1, 1, 0, 1, 2⟩ = none := by
  decide +kernel
theorem test_witness_HqPictureUnitFailsAsAWhole_slice :
    let s := budget 22 (picture pictureBody)
    unitAtHead 0xE8 26 0 26 s ∧ slice s.pkt.buf 17 26 = pictureBody ∧
    tpParse Config.qmSub pictureBody = some ⟨0, 0, 1, 1, 0, 1, 2⟩ ∧ fieldsFit ⟨0, 0, 1, 1, 0, 1, 2⟩ ∧
    2 + 12 ≤ s.pkt.mtu.toNat ∧ Config.sliceLen pictureBody 2 ⟨0, 0, 1, 1, 0, 1, 2⟩ = some 7 ∧
    s.pkt.mtu.toNat < 7 + 16 ∧ ([] : List (Nat × Nat)).length < 1 * 1 := by decide +kernel
theorem test_witness_HqPictureUnitFailsAsAWhole_walked :
    walked Config.sliceLen pictureBody ⟨0, 0, 1, 1, 0, 1, 2⟩ 22 2 [] 2 := rfl
theorem test_witness_HqPictureUnitIsPackedGreedily :
    unitAtHead 0xE8 26 0 26 (picture pictureBody) ∧ 17 ≤ (26#32).toNat ∧
    slice (picture pictureBody).pkt.buf 17 (26#32).toNat = pictureBody ∧
    tpParse Config.qmSub pictureBody = some ⟨0, 0, 1, 1, 0, 1, 2⟩ ∧ fieldsFit ⟨0, 0, 1, 1, 0, 1, 2⟩ ∧
    2 + 12 ≤ (picture pictureBody).pkt.mtu.toNat ∧
    (Config.sliceLen pictureBody 2 ⟨0, 0, 1, 1, 0, 1, 2⟩ = some 7 ∧
      7 + 16 ≤ (picture pictureBody).pkt.mtu.toNat) ∧
    [(2, 7)].length = 1 * 1 ∧ ∀ x ∈ [(2, 7)], x.2 = 7 := by decide +kernel
theorem test_witness_EqualSlicesGiveTheCeilingCount :
    walked Config.sliceLen pictureBody ⟨0, 0, 1, 1, 0, 1, 2⟩ 23 2 [(2, 7)] 9 :=
  ⟨rfl, by decide +kernel, by decide, rfl⟩
theorem test_witness_HqFragmentsFitTheBudgetButForThePrefix :
    unitAtHead 0xE8 26 0 26 (picture pictureBody) := by decide +kernel
theorem test_witness_CounterNumbersEveryFragment :
    Instr.pktPush [] 0 0 ≠ .pktReset ∧ ∃ t, exec (.pktPush [] 0 0) State.reset = .next t := ⟨by decide, _, rfl⟩
theorem test_witness_ATurnRunsTheUnitAtTheHead :
    (State.reset.pkt.state = .unsync ∧ puFind [] 0 0 = none) ∧
    puFind (0x00 :: parseInfo 0x10 0 0) 14 0 = some 1 ∧
    ((synced (header ++ header ++ header)).pkt.state = .sync ∧
      (synced (header ++ header ++ header)).pkt.buf.length < 13) ∧
    (13 ≤ (synced (0x00 :: parseInfo 0x10 0 0)).pkt.buf.length ∧ ¬magicAt (0x00 :: parseInfo 0x10 0 0) 0) ∧
    (13 ≤ (synced (parseInfo 0x10 0 0)).pkt.buf.length ∧ magicAt (parseInfo 0x10 0 0) 0) := by decide +kernel
theorem test_witness_AnEmptyPushChangesNothing :
    ∃ t, exec (.pktPush header 1 2) State.reset = .next t := ⟨_, rfl⟩
theorem test_witness_ParamsFragmentStartsAPicture :
    [1#8].length < (2#16).toNat ∧ (2#16).toNat ≤ [1#8, 2#8].length ∧ (0#16).toNat ≤ ([] : List Byte).length := by
  decide
theorem test_witness_SliceFragmentContinuesThePicture :
    1#16 ≠ 0#16 ∧ [0#8, 0#8, 0#8, 0#8, 9#8].length < 4 + (2#16).toNat ∧
    4 + (1#16).toNat ≤ [0#8, 0#8, 0#8, 0#8, 9#8].length ∧ State.reset.dpk.inPicture = false ∧
    inPicture.dpk.inPicture = true ∧ 8#32 ≠ inPicture.dpk.curPn ∧ 7#32 = inPicture.dpk.curPn := by decide
theorem test_witness_UnknownFragmentIsIgnored : 0xE8#8 ∉ [0x00#8, 0x10#8, 0xEC#8] := by decide
theorem test_witness_DpkFragRunsTheDecodedFragment :
    decode (.fragment [0, 3, 0, 0x10] false) = .ok (.fragEndOfSequence ⟨3, 0⟩ []) ∧
    decode (.fragment [0, 3, 0] false) = .rejected .shortPayload := by decide
theorem test_witness_OutputUnitsFormOneChain : State.reset.dpk.ok ∧ inPicture.dpk.ok := by decide
theorem test_witness_StreamRoundTrip :
    State.reset.pkt.state = .unsync ∧ State.reset.pkt.buf = [] ∧ State.reset.pkt.cacheValid = false ∧
    State.reset.tx = [] ∧ State.reset.dpk.lastOff = 0#32 ∧ header.length + 13 < 2 ^ 32 ∧
    pictureBody.length + 17 < 2 ^ 32 ∧ shParse header = .ok ⟨1280, 720, false⟩ ∧
    tpParse Config.qmSub pictureBody = some ⟨0, 0, 1, 1, 0, 1, 2⟩ ∧ fieldsFit ⟨0, 0, 1, 1, 0, 1, 2⟩ ∧
    1#32 ≠ 0#32 ∧ 2 + 12 ≤ State.reset.pkt.mtu.toNat ∧
    (Config.sliceLen pictureBody 2 ⟨0, 0, 1, 1, 0, 1, 2⟩ = some 7 ∧ 7 + 16 ≤ State.reset.pkt.mtu.toNat ∧
      2 + 7 = pictureBody.length) ∧ [(2, 7)].length = 1 * 1 := by decide +kernel
theorem test_witness_EachUnitWritesItsOwnState :
    (∃ t, exec .dpkReset State.reset = .next t) ∧ ownerOf .dpkReset ≠ .br ∧ ownerOf .dpkReset ≠ .pkt ∧
    (∃ t, exec .brReadBit State.reset = .next t) ∧ ownerOf .brReadBit ≠ .dpk :=
  ⟨⟨_, rfl⟩, by decide, by decide, ⟨_, rfl⟩, by decide⟩
theorem test_witness_NoUnitReadsAnother :
    (∃ t, exec .brReadBit State.reset = .next t) ∧ ownerOf .brReadBit = .br ∧
    (∃ t, exec (.shEqual [] []) State.reset = .next t) ∧ ownerOf (.shEqual [] []) = .stateless ∧
    (∃ t, exec .pktReset State.reset = .next t) ∧ ownerOf .pktReset = .pkt ∧
    (∃ t, exec .dpkReset State.reset = .next t) ∧ ownerOf .dpkReset = .dpk :=
  ⟨⟨_, rfl⟩, rfl, ⟨_, rfl⟩, rfl, ⟨_, rfl⟩, rfl, ⟨_, rfl⟩, rfl⟩
theorem test_witness_EventRegistersHoldTheLastEvent :
    ∃ t, exec .pktReset State.reset = .next t ∧ t.pkt.event = 0x0204#16 := ⟨_, rfl, rfl⟩
theorem test_witness_NoInstructionFails :
    (Instr.puExtract [1] 1 0).wellFormed = true ∧ [1#8].length < 2 := by decide
theorem test_witness_StepKeepsTheInvariant :
    (State.reset.withFetchWord 8 0x51).ok ∧ ∃ t, step (State.reset.withFetchWord 8 0x51) = .next t :=
  ⟨by decide, _, rfl⟩
theorem test_witness_DecodeUndoesEncode : (Instr.unitUnknown 0xEC 13 0).wellFormed = true := by decide
theorem test_witness_WrittenWordsDecode :
    0x16#8 ∉ [0x10#8, 0x11#8, 0x12#8, 0x13#8, 0x14#8, 0x15#8, 0x20#8, 0x21#8, 0x30#8, 0x40#8, 0x41#8, 0x50#8,
      0x51#8, 0x52#8, 0x60#8, 0x61#8] := by decide
theorem test_witness_StepRunsTheDecodedInstruction :
    decode (.command 0x11 Operands.zero) = .ok .brReadBit ∧
    decode (.unit ((synced (parseInfo 0x10 0 0)).pkt.buf.take 13)) = .ok (.unitEndOfSequence 0 0) ∧
    (synced (parseInfo 0x10 0 0)).pkt.state = .sync ∧
    decode (.fragment [0, 3, 0, 0x10] true) = .ok (.fragEndOfSequence ⟨3, 0⟩ []) ∧
    decode (.boolCode (bitsLeft State.reset.br)) = .ok (.vlcBool true) ∧
    decode (.uintCode (bitsLeft State.reset.br)) = .ok (.vlcUint []) := by decide
theorem test_witness_StepWithoutAnInstruction :
    State.reset.inbox = [] ∧ decodeCommand 0x16 Operands.zero = none ∧ State.reset.pkt.state = .unsync ∧
    (synced header).pkt.state = .sync ∧ (synced header).pkt.buf.length < 13 := by decide
theorem test_witness_StepWithoutAnInstruction_rejected :
    (let s := synced (0x00 :: parseInfo 0x10 0 0);
      s.pkt.state = .sync ∧ 13 ≤ s.pkt.buf.length ∧ ¬magicAt s.pkt.buf 0) ∧
    decode (.fragment [0, 3, 0] true) = .rejected .shortPayload ∧
    decode (.fragment [0, 1, 0, 0xEC, 0, 0, 0, 7, 0, 0, 0] true) = .rejected .shortHqFragment := by decide +kernel

end Sys2Proof.Tests
end

section
/-! PROOFS. The family of 00_scope.md: how a step finds the instruction that it runs. -/

namespace Sys2Proof.Proofs.Scope
open Sys2Proof Sys2Proof.Machine

/-! ### Where a request's words lie: not in what taking the request changes -/

/-- Taking a request drops only outputs and the request itself, and no words lie in either. -/
@[simp] theorem fetch_accept (q : Request) (s : State) (rest : List Request) :
    fetch q (s.accept rest) = fetch q s := by
  cases q <;> rfl

@[simp] theorem fetch_command (code : Byte) (ops : Operands) (s : State) :
    fetch (.command code ops) s = some (.command code ops) := rfl

/-- A unit request has words only in SYNC: the loop looks at a header once it has acquired one
(44_packetizer.md R170). -/
theorem fetch_unit_of_sync {s : State} (h : s.pkt.state = .sync) :
    fetch .unit s = some (.unit (s.pkt.buf.take 13)) := by
  simp [fetch, h, Config.hdrLen]

@[simp] theorem fetch_fragment (payload : List Byte) (marker : Bool) (s : State) :
    fetch (.fragment payload marker) s = some (.fragment payload marker) := rfl

@[simp] theorem fetch_boolCode (s : State) : fetch .boolCode s = some (.boolCode (bitsLeft s.br)) := rfl

@[simp] theorem fetch_uintCode (s : State) : fetch .uintCode s = some (.uintCode (bitsLeft s.br)) := rfl

/-! ### The step -/

/-- Every door leads through the same three stages: the oldest request, its words, their instruction. -/
theorem step_eq_exec {s : State} {q : Request} {rest : List Request} {w : Words} {i : Instr}
    (hq : s.inbox = q :: rest) (hw : fetch q s = some w) (hi : decode w = .ok i) :
    step s = exec i (s.accept rest) := by
  simp [step, hq, hw, hi]

/-- Settles O56: each door is `step_eq_exec` with the words that its request fetches. -/
theorem stepRunsTheDecodedInstruction : Obligations.StepRunsTheDecodedInstruction := by
  intro s rest i taken
  refine ⟨?command, ?unit, ?fragment, ?boolCode, ?uintCode⟩
  case command => exact fun code ops hq hi => step_eq_exec hq (fetch_command code ops s) hi
  case unit => exact fun hq hsync hi => step_eq_exec hq (fetch_unit_of_sync hsync) hi
  case fragment => exact fun payload marker hq hi => step_eq_exec hq (fetch_fragment payload marker s) hi
  case boolCode => exact fun hq hi => step_eq_exec hq (fetch_boolCode s) hi
  case uintCode => exact fun hq hi => step_eq_exec hq (fetch_uintCode s) hi

end Sys2Proof.Proofs.Scope
end

section
/-! PROOFS. The family of 10_state.md: which state an instruction reads and writes, and what every step
keeps. -/

namespace Sys2Proof.Proofs.Registers
open Sys2Proof Sys2Proof.Machine

/-! ### What reset leaves, and what the status views and the event registers show -/

/-- Settles O52, one unit at a time; the reset reader is a fresh one over no bytes. -/
theorem resetMeetsTheInvariant : Obligations.ResetMeetsTheInvariant :=
  have hbr : State.reset.br.ok := freshReader_ok []
  have hpkt : State.reset.pkt.ok := ⟨fun _ => rfl, nofun, by decide⟩
  have hdpk : State.reset.dpk.ok := ⟨rfl, fun _ => rfl⟩
  ⟨hbr, hpkt, hdpk⟩

/-- Settles O58: each value is a field of `State.reset`. -/
theorem resetGivesTheListedValues : Obligations.ResetGivesTheListedValues :=
  ⟨rfl, rfl, rfl, rfl, rfl, rfl, rfl, rfl, rfl, rfl, rfl, rfl, rfl, rfl⟩

theorem brStatus_eq (r : Reader) : brStatus r = if r.ovr then 1 else 0 := by
  cases h : r.ovr <;> simp [brStatus, h]

/-- `cache_il` shows only above `cache_valid` (10_state.md R17, R23). -/
theorem pktStatus_eq (p : Pkt) :
    pktStatus p = (if p.state = .sync then 1 else 0) +
      (if p.cacheValid then (if p.cacheIl then 6 else 2) else 0) := by
  have hsync : (syncBit p.state).toNat = if p.state = .sync then 1 else 0 := by
    cases p.state <;> rfl
  have hcache : 2 * p.cacheValid.toNat + 4 * (cachedInterlaced p).toNat =
      if p.cacheValid then (if p.cacheIl then 6 else 2) else 0 := by
    unfold cachedInterlaced
    cases p.cacheValid <;> cases p.cacheIl <;> rfl
  rw [pktStatus, Nat.add_assoc, hsync, hcache]

theorem dpkStatus_eq (d : Dpk) :
    dpkStatus d = (if d.waiting then 1 else 0) + (if d.inPicture then 2 else 0) := by
  unfold dpkStatus
  cases d.waiting <;> cases d.inPicture <;> rfl

/-- Settles O59: ten views are registers, the three status words are the sums above. -/
theorem statusViewsShowTheRegisters : Obligations.StatusViewsShowTheRegisters := by
  intro s
  have hbr : statusView 0x12#8 s = some (if s.br.ovr then 1 else 0) := congrArg some (brStatus_eq s.br)
  have hpkt := congrArg some (pktStatus_eq s.pkt)
  have hdpk := congrArg some (dpkStatus_eq s.dpk)
  exact ⟨rfl, rfl, hbr, rfl, hpkt, rfl, rfl, rfl, hdpk, rfl, rfl, rfl, rfl⟩

/-- Settles O60: a closed fact for each cause, by evaluating the two code tables. -/
theorem eventWordsAreCodeAndCause : Obligations.EventWordsAreCodeAndCause := by
  unfold Obligations.EventWordsAreCodeAndCause
  decide

/-! ### What an owner can see -/

/-- The state `o`, with everything an instruction of owner `w` may read or write taken from `s`: the registers
of its unit, the response and the events, and for PKT also the fragments and the free values. -/
def graft (w : Owner) (s o : State) : State :=
  match w with
  | .br => { o with br := s.br, resp := s.resp, diag := s.diag }
  | .stateless => { o with resp := s.resp, diag := s.diag }
  | .pkt => { o with pkt := s.pkt, resp := s.resp, tx := s.tx, diag := s.diag, freeCount := s.freeCount }
  | .dpk => { o with dpk := s.dpk, resp := s.resp, diag := s.diag }

@[simp] theorem graft_self (w : Owner) (s : State) : graft w s s = s := by cases w <;> rfl

/-- An operation whose owner is `w`: it does the same beside any other state `o` of what `w` cannot see. -/
def OwnedBy (w : Owner) (f : State → State) : Prop := ∀ s o, f (graft w s o) = graft w (f s) o

/-- What an owner cannot see it leaves unchanged: put the state itself beside the operation. -/
theorem OwnedBy.frame {w : Owner} {f : State → State} (h : OwnedBy w f) (s : State) :
    f s = graft w (f s) s := by
  simpa using h s s

theorem OwnedBy.comp {w : Owner} {f g : State → State} (hg : OwnedBy w g) (hf : OwnedBy w f) :
    OwnedBy w fun s => g (f s) := fun s o => by
  dsimp only
  rw [hf s o, hg (f s) o]

/-- A choice by a condition that the owner can see. -/
theorem OwnedBy.ite {w : Owner} {c : State → Prop} [DecidablePred c] {f g : State → State}
    (hc : ∀ s o, c (graft w s o) ↔ c s) (hf : OwnedBy w f) (hg : OwnedBy w g) :
    OwnedBy w fun s => if c s then f s else g s := fun s o => by
  by_cases h : c s
  · simpa only [hc, h, if_true] using hf s o
  · simpa only [hc, h, if_false] using hg s o

/-! ### The operations of PKT

The primitives of Machine/Ops.lean by computation, everything above them along its branches: a condition reads
`s.pkt`, which the graft keeps. -/

@[simp] theorem graft_pkt (s o : State) : (graft .pkt s o).pkt = s.pkt := rfl

theorem raisePkt_owned (e : Event) : OwnedBy .pkt (raisePkt e) := fun _ _ => rfl

theorem emit_owned (il tag : Byte) (body : List Byte) (m : Bool) : OwnedBy .pkt (emit il tag body m) :=
  fun _ _ => rfl

theorem emitGroups_owned (g : Picture) (l : List Packing) : OwnedBy .pkt (emitGroups g l) := by
  induction l with
  | nil => exact fun _ _ => rfl
  | cons k l ih => exact ih.comp (emit_owned _ _ _ _)

/-- The cache before the fragment of a sequence header (44_packetizer.md R178). -/
theorem recache_owned (raw : List Byte) (i : SeqInfo) : OwnedBy .pkt fun s =>
    if !s.pkt.cacheValid || !shEqual s.pkt.cache raw then replaceCache raw i s else s :=
  .ite (fun _ _ => Iff.rfl) (fun _ _ => rfl) (fun _ _ => rfl)

theorem emitCache_owned : OwnedBy .pkt fun s => emit 0x00#8 0x00#8 s.pkt.cache false s := fun _ _ => rfl

theorem sequenceHeaderBody_owned (raw : List Byte) : OwnedBy .pkt (sequenceHeaderBody raw) := by
  unfold sequenceHeaderBody
  cases shParse raw with
  | error cause => exact raisePkt_owned _
  | ok i => exact emitCache_owned.comp (recache_owned raw i)

theorem unitSequenceHeader_owned (n : Nat) : OwnedBy .pkt (unitSequenceHeader n) := by
  intro s o
  unfold unitSequenceHeader
  split
  · rfl
  · exact sequenceHeaderBody_owned _ (consume n s) o

theorem hqPictureBody_owned (pn : Word) (body : List Byte) : OwnedBy .pkt (hqPictureBody pn body) := by
  intro s o
  unfold hqPictureBody
  simp only [graft_pkt]
  split
  · rfl
  · split
    · rfl
    · exact emitGroups_owned _ _ (emitParams _ s) o

theorem unitHqPicture_owned (n : Nat) : OwnedBy .pkt (unitHqPicture n) := by
  intro s o
  unfold unitHqPicture
  split
  · rfl
  · exact hqPictureBody_owned _ _ (consume n s) o

theorem unitSkip_owned (n : Nat) : OwnedBy .pkt (unitSkip n) := by
  intro s o
  unfold unitSkip
  split <;> rfl

theorem unitOp_owned (kind : UnitKind) (n : Nat) : OwnedBy .pkt (unitOp kind n) := by
  cases kind with
  | sequenceHeader => exact unitSequenceHeader_owned n
  | endOfSequence => exact fun _ _ => rfl
  | hqPicture => exact unitHqPicture_owned n
  | auxiliary | padding | unknown => exact unitSkip_owned n

/-- A turn with another state left. -/
def mapTurn (g : State → State) : Turn → Turn
  | .wait s => .wait (g s)
  | .more s => .more (g s)

@[simp] theorem turnState_mapTurn (g : State → State) (t : Turn) :
    turnState (mapTurn g t) = g (turnState t) := by cases t <;> rfl

theorem rejectHead_graft (policy : RejectPolicy) (cause : Malformed) (s o : State) :
    rejectHead policy cause (graft .pkt s o) = mapTurn (graft .pkt · o) (rejectHead policy cause s) := by
  cases policy <;> rfl

theorem stepDecoded_graft (policy : RejectPolicy) (code : Byte) (npo : Word) (s o : State) :
    stepDecoded policy code npo (graft .pkt s o) =
      mapTurn (graft .pkt · o) (stepDecoded policy code npo s) := by
  unfold stepDecoded
  by_cases h : s.pkt.buf.length < Config.hdrLen
  · simp only [graft_pkt, h, if_true]
    rfl
  · simp only [graft_pkt, h, if_false]
    split
    · rfl
    · exact rejectHead_graft policy _ s o
    · exact congrArg Turn.more (unitOp_owned _ _ s o)

theorem stepUnit_graft (policy : RejectPolicy) (s o : State) :
    stepUnit policy (graft .pkt s o) = mapTurn (graft .pkt · o) (stepUnit policy s) := by
  unfold stepUnit
  simp only [graft_pkt]
  split
  · rfl
  · exact rejectHead_graft policy _ s o
  · exact congrArg Turn.more (unitOp_owned _ _ s o)

theorem acquire_graft (s o : State) :
    acquire (graft .pkt s o) = mapTurn (graft .pkt · o) (acquire s) := by
  unfold acquire
  rw [graft_pkt]
  split <;> rfl

theorem turn_graft (policy : RejectPolicy) (s o : State) :
    turn policy (graft .pkt s o) = mapTurn (graft .pkt · o) (turn policy s) := by
  unfold turn
  simp only [graft_pkt]
  split
  · exact acquire_graft s o
  · by_cases h : s.pkt.buf.length < Config.hdrLen
    · simp only [h, if_true]
      rfl
    · simp only [h, if_false]
      exact stepUnit_graft policy s o

theorem runTurns_owned (policy : RejectPolicy) (fuel : Nat) : OwnedBy .pkt (runTurns policy fuel) := by
  intro s o
  induction fuel generalizing s with
  | zero => rfl
  | succ fuel ih =>
    unfold runTurns
    rw [turn_graft]
    cases turn policy s with
    | wait t => rfl
    | more t => exact ih t

theorem pktPush_owned (policy : RejectPolicy) (data : List Byte) (pts dts : Nat) :
    OwnedBy .pkt (pktPush policy data pts dts) := by
  intro s o
  have loop := runTurns_owned policy (turnFuel (appendBuf data pts dts s)) (appendBuf data pts dts s) o
  exact congrArg (fun u : State => u.reply (.fragments (u.tx.drop s.tx.length))) loop

/-- The meaning that the six rows UNIT.* share (44_packetizer.md R172). -/
theorem unitRow_owned (code : Byte) (npo : Word) :
    OwnedBy .pkt fun s => turnState (stepDecoded Config.encRejectPolicy code npo s) := fun s o => by
  dsimp only
  rw [stepDecoded_graft, turnState_mapTurn]

/-! ### The operations of DPK -/

theorem mismatch_owned (cause : Mismatch) : OwnedBy .dpk (mismatch cause) := fun _ _ => rfl

theorem takeData_owned (data : List Byte) (marker : Bool) : OwnedBy .dpk (takeData data marker) := by
  cases marker <;> exact fun _ _ => rfl

theorem fragHqParams_owned (hq : HqHead) (rest : List Byte) (marker : Bool) :
    OwnedBy .dpk (fragHqParams hq rest marker) := by
  intro s o
  unfold fragHqParams
  split
  · rfl
  · exact takeData_owned _ _ (startPicture _ s) o

theorem fragHqSlices_owned (hq : HqHead) (rest : List Byte) (marker : Bool) :
    OwnedBy .dpk (fragHqSlices hq rest marker) := by
  unfold fragHqSlices
  split
  · exact mismatch_owned _
  · exact .ite (fun _ _ => Iff.rfl) (mismatch_owned _)
      (.ite (fun _ _ => Iff.rfl) (mismatch_owned _) (takeData_owned _ _))

theorem fragOp_owned (payload : List Byte) (marker : Bool) : OwnedBy .dpk (fragOp payload marker) := by
  intro s o
  unfold fragOp
  cases parseFrag payload with
  | hqParams head hq rest => exact fragHqParams_owned hq rest marker s o
  | hqSlices head hq n rest => exact fragHqSlices_owned hq rest marker s o
  | short | shortHq | sequenceHeader | endOfSequence | unknown => rfl

/-- The discontinuity of DPK.FRAG (45_depacketizer.md R201). -/
theorem disc_owned (disc : Bool) :
    OwnedBy .dpk fun s => if disc then discontinuity .transportFlag s else s := by
  cases disc <;> exact fun _ _ => rfl

/-! ### The meaning of each instruction, by its owner -/

/-- The part of the invariant that speaks of an owner's registers. -/
def unitOk (w : Owner) (s : State) : Prop :=
  match w with
  | .br => s.br.ok
  | .stateless => True
  | .pkt => s.pkt.ok
  | .dpk => s.dpk.ok

theorem unitOk_of_ok (w : Owner) {s : State} (h : s.ok) : unitOk w s := by
  obtain ⟨hbr, hpkt, hdpk⟩ := h
  cases w with
  | br => exact hbr
  | stateless => trivial
  | pkt => exact hpkt
  | dpk => exact hdpk

theorem graft_ok {w : Owner} {s o : State} (hs : unitOk w s) (ho : o.ok) : (graft w s o).ok := by
  obtain ⟨hbr, hpkt, hdpk⟩ := ho
  cases w with
  | br => exact ⟨hs, hpkt, hdpk⟩
  | stateless => exact ⟨hbr, hpkt, hdpk⟩
  | pkt => exact ⟨hbr, hs, hdpk⟩
  | dpk => exact ⟨hbr, hpkt, hs⟩

/-- What a meaning of owner `w` is: nothing but the owner's state takes part, and its invariant is kept. -/
structure Meaning (w : Owner) (f : State → State) : Prop where
  owned : OwnedBy w f
  unit : ∀ s, unitOk w s → unitOk w (f s)

theorem Meaning.ok {w : Owner} {f : State → State} (h : Meaning w f) {s : State} (hs : s.ok) : (f s).ok := by
  rw [h.owned.frame s]
  exact graft_ok (h.unit s (unitOk_of_ok w hs)) hs

/-- An instruction of BR is a function of the reader. -/
theorem br_meaning {f : Reader → Reader} (a : Reader → Response) (hf : ∀ r, r.ok → (f r).ok) :
    Meaning .br fun s => (s.withBr (f s.br)).reply (a s.br) :=
  ⟨fun _ _ => rfl, fun s => hf s.br⟩

/-- An instruction of SHP, TPP or PUS answers, and raises at most one event without a register. -/
theorem stateless_meaning (e : Option Event) (a : Response) :
    Meaning .stateless fun s => (noteOption e s).reply a :=
  ⟨fun _ _ => by cases e <;> rfl, fun _ => id⟩

theorem pktPush_meaning (policy : RejectPolicy) (data : List Byte) (pts dts : Nat) :
    Meaning .pkt (pktPush policy data pts dts) :=
  ⟨pktPush_owned policy data pts dts, fun s => (runTurns_run policy _ (appendBuf data pts dts s)).ok⟩

theorem pktReset_meaning : Meaning .pkt fun s =>
    (raisePkt (.discontinuity .resetOp) (clearPkt s)).reply .nothing :=
  ⟨fun _ _ => rfl, fun _ ⟨_, _, hmtu⟩ => ⟨fun _ => rfl, nofun, hmtu⟩⟩

/-- PKT.SETMTU with a value that it takes (44_packetizer.md R191). -/
theorem setMtu_meaning {m : Half} (hm : Config.mtuMin ≤ m.toNat) : Meaning .pkt fun s =>
    (s.withPkt { s.pkt with mtu := m }).reply .nothing :=
  ⟨fun _ _ => rfl, fun _ ⟨hempty, hfields, _⟩ => ⟨hempty, hfields, hm⟩⟩

/-- The six rows UNIT.* (44_packetizer.md R172). -/
theorem unitRow_meaning (code : Byte) (npo : Word) : Meaning .pkt fun s =>
    turnState (stepDecoded Config.encRejectPolicy code npo s) :=
  ⟨unitRow_owned code npo, fun s => (stepDecoded_run _ code npo s).ok⟩

theorem dpk_meaning {f : State → State} (hf : OwnedBy .dpk f) (hr : ∀ s, DpkRun s (f s)) : Meaning .dpk f :=
  ⟨hf, fun s => (hr s).ok⟩

/-- DPK.FRAG: the discontinuity, then the dispatch (45_depacketizer.md R201). -/
theorem dpkFrag_meaning (payload : List Byte) (marker disc : Bool) : Meaning .dpk fun s =>
    fragOp payload marker (if disc then discontinuity .transportFlag s else s) := by
  refine dpk_meaning ((fragOp_owned payload marker).comp (disc_owned disc)) fun s => ?_
  refine DpkRun.trans ?_ (fragOp_run payload marker _)
  cases disc with
  | false => exact .refl s
  | true => exact discontinuity_run _ s

/-- A code at the cursor is a read (40_bitreader_vlc.md R92, R98). -/
theorem afterCode_reads (n : Nat) (r : Reader) : Reads r (afterCode n r) := by
  unfold afterCode
  split
  · exact ⟨rfl, rfl, id, Nat.le_add_right _ _, fun _ => ‹_›⟩
  · exact ⟨rfl, rfl, fun _ => rfl, Nat.le_max_left _ _, fun h => Nat.max_le.mpr ⟨h, le_refl _⟩⟩

/-- The instruction runs, in every state, as a meaning of its owner. -/
def Runs (i : Instr) : Prop := ∃ f, Meaning (ownerOf i) f ∧ ∀ s, exec i s = .next (f s)

/-- An instruction of SHP, TPP or PUS whose event and answer are found from its operands alone. -/
def Answers (i : Instr) : Prop := ∃ e a, ∀ s, exec i s = .next ((noteOption e s).reply a)

theorem Answers.runs {i : Instr} (h : Answers i) (hw : ownerOf i = .stateless) : Runs i := by
  obtain ⟨e, a, hexec⟩ := h
  exact ⟨_, hw ▸ stateless_meaning e a, hexec⟩

/-- The instruction is its meaning of Machine/SeqHeader.lean. -/
theorem exec_shParse (data : List Byte) (s : State) : exec (.shParse data) s = execShParse data s := rfl

theorem shParse_answers (data : List Byte) : Answers (.shParse data) := by
  simp only [Answers, exec_shParse]
  unfold execShParse
  cases shParse data with
  | ok i => exact ⟨none, .seqInfo (some i), fun _ => rfl⟩
  | error cause => exact ⟨some (.malformedHeader cause), .seqInfo none, fun _ => rfl⟩

/-- The instruction is its meaning of Machine/Transform.lean. -/
theorem exec_tpParse (data : List Byte) (s : State) : exec (.tpParse data) s = execTpParse data s := rfl

theorem tpParse_answers (data : List Byte) : Answers (.tpParse data) := by
  simp only [Answers, exec_tpParse]
  unfold execTpParse
  cases tpParse Config.qmSub data with
  | some i => exact ⟨none, .transformInfo (some i), fun _ => rfl⟩
  | none => exact ⟨some (.malformedHeader .vlcOverrun), .transformInfo none, fun _ => rfl⟩

theorem puExtract_answers {buf : List Byte} {size : Nat} (h : size ≤ buf.length) (offset : Nat) :
    Answers (.puExtract buf size offset) :=
  ⟨extractEvent (puExtract buf size offset), .extracted (puExtract buf size offset), fun _ => if_pos h⟩

/-- The instruction is its meaning of Machine/Scanner.lean. -/
theorem exec_puFind (buf : List Byte) (size offset : Nat) (s : State) :
    exec (.puFind buf size offset) s = execPuFind buf size offset s := rfl

theorem puFind_answers {buf : List Byte} {size : Nat} (h : size ≤ buf.length) (offset : Nat) :
    Answers (.puFind buf size offset) := by
  simp only [Answers, exec_puFind]
  unfold execPuFind
  simp only [h, if_true]
  cases puFind buf size offset with
  | some p => exact ⟨none, .foundAt (some p), fun _ => rfl⟩
  | none => exact ⟨some .needMore, .foundAt none, fun _ => rfl⟩

theorem pktSetMtu_runs (m : Half) : Runs (.pktSetMtu m) := by
  by_cases hm : Config.mtuMin ≤ m.toNat
  · exact ⟨_, setMtu_meaning hm, fun _ => if_pos hm⟩
  · exact ⟨fun s => s.reply .nothing, ⟨fun _ _ => rfl, fun _ => id⟩, fun _ => if_neg hm⟩

/-- Every instruction that runs in some state runs in every state, as a meaning of its owner. Only PU.EXTRACT
and PU.FIND can be refused, for their operands (log 17). -/
theorem runs_of_next {i : Instr} {s t : State} (h : exec i s = .next t) : Runs i := by
  cases i with
  | brInit span => exact ⟨_, br_meaning (fun _ => .nothing) fun _ _ => freshReader_ok span, fun _ => rfl⟩
  | brReadBit =>
    exact ⟨_, br_meaning (fun r => .bit (readBit r).1) fun r => (readBit_reads r).ok, fun _ => rfl⟩
  | brReadBool =>
    exact ⟨_, br_meaning (fun r => .bool (readBit r).1) fun r => (readBit_reads r).ok, fun _ => rfl⟩
  | brReadUint =>
    exact ⟨_, br_meaning (fun r => .uint (readUint r).1) fun r => (readUint_reads r).ok, fun _ => rfl⟩
  | brLength => exact ⟨_, br_meaning (fun r => .byteCount (bytesRead r)) fun _ => id, fun _ => rfl⟩
  | brOverrun => exact ⟨_, br_meaning (fun r => .bool r.ovr) fun _ => id, fun _ => rfl⟩
  | vlcBool b => exact ⟨_, br_meaning (fun _ => .bool b) fun r => (afterCode_reads 1 r).ok, fun _ => rfl⟩
  | vlcUint x =>
    exact ⟨_, br_meaning (fun _ => .uint (codeAcc x - 1#32)) fun r =>
      (afterCode_reads (2 * x.length + 1) r).ok, fun _ => rfl⟩
  | shParse data => exact (shParse_answers data).runs rfl
  | shEqual a b => exact ⟨_, stateless_meaning none (.bool (shEqual a b)), fun _ => rfl⟩
  | tpParse data => exact (tpParse_answers data).runs rfl
  | puExtract buf size offset =>
    by_cases hs : size ≤ buf.length
    · exact (puExtract_answers hs offset).runs rfl
    · simp [exec, execPuExtract, hs] at h
  | puFind buf size offset =>
    by_cases hs : size ≤ buf.length
    · exact (puFind_answers hs offset).runs rfl
    · simp [exec, execPuFind, hs] at h
  | pktPush data pts dts => exact ⟨_, pktPush_meaning _ data pts dts, fun _ => rfl⟩
  | pktReset => exact ⟨_, pktReset_meaning, fun _ => rfl⟩
  | pktSetMtu m => exact pktSetMtu_runs m
  | unitSequenceHeader npo _ => exact ⟨_, unitRow_meaning 0x00#8 npo, fun _ => rfl⟩
  | unitEndOfSequence npo _ => exact ⟨_, unitRow_meaning 0x10#8 npo, fun _ => rfl⟩
  | unitAuxiliary npo _ => exact ⟨_, unitRow_meaning 0x20#8 npo, fun _ => rfl⟩
  | unitPadding npo _ => exact ⟨_, unitRow_meaning 0x30#8 npo, fun _ => rfl⟩
  | unitHqPicture npo _ => exact ⟨_, unitRow_meaning 0xE8#8 npo, fun _ => rfl⟩
  | unitUnknown code npo _ => exact ⟨_, unitRow_meaning code npo, fun _ => rfl⟩
  | dpkFrag payload marker disc => exact ⟨_, dpkFrag_meaning payload marker disc, fun _ => rfl⟩
  | dpkReset =>
    exact ⟨_, dpk_meaning (fun _ _ => rfl) fun s =>
      (discontinuity_run .resetOp s).trans (reply_dpkRun .nothing _), fun _ => rfl⟩
  | fragSequenceHeader _ p =>
    exact ⟨_, dpk_meaning (fun _ _ => rfl) (fragSequenceHeader_run p), fun _ => rfl⟩
  | fragEndOfSequence _ _ => exact ⟨_, dpk_meaning (fun _ _ => rfl) fragEndOfSequence_run, fun _ => rfl⟩
  | fragHqParams _ hq rest marker =>
    exact ⟨_, dpk_meaning (fragHqParams_owned hq rest marker) (fragHqParams_run hq rest marker),
      fun _ => rfl⟩
  | fragHqSlices _ hq _ rest marker =>
    exact ⟨_, dpk_meaning (fragHqSlices_owned hq rest marker) (fragHqSlices_run hq rest marker),
      fun _ => rfl⟩
  | fragUnknown _ _ _ => exact ⟨_, dpk_meaning (fun _ _ => rfl) noUnit_run, fun _ => rfl⟩

/-- The meaning behind a run: it gives that run's state, and the next state of any other. -/
theorem meaning_of_next {i : Instr} {s t : State} (h : exec i s = .next t) :
    ∃ f, Meaning (ownerOf i) f ∧ t = f s ∧ ∀ u, exec i u = .next (f u) := by
  obtain ⟨f, hf, hexec⟩ := runs_of_next h
  exact ⟨f, hf, Host.Outcome.next.inj (h.symm.trans (hexec s)), hexec⟩

/-! ### Frame, non-interference and invariant -/

/-- What the owner cannot see is in the next state as it was. -/
theorem exec_frame {i : Instr} {s t : State} (h : exec i s = .next t) : t = graft (ownerOf i) t s := by
  obtain ⟨f, hf, rfl, -⟩ := meaning_of_next h
  exact hf.owned.frame s

/-- Beside another state, an instruction does the same. -/
theorem exec_graft {i : Instr} {s t : State} (h : exec i s = .next t) (o : State) :
    exec i (graft (ownerOf i) s o) = .next (graft (ownerOf i) t o) := by
  obtain ⟨f, hf, rfl, hexec⟩ := meaning_of_next h
  rw [hexec, hf.owned s o]

theorem exec_ok {i : Instr} {s t : State} (hs : s.ok) (h : exec i s = .next t) : t.ok := by
  obtain ⟨f, hf, rfl, -⟩ := meaning_of_next h
  exact hf.ok hs

/-- Settles O48: `exec_frame`, read off for each owner. -/
theorem eachUnitWritesItsOwnState : Obligations.EachUnitWritesItsOwnState := by
  intro i s t h
  rw [exec_frame h]
  cases ownerOf i with
  | br => exact ⟨rfl, fun hw => absurd rfl hw, fun _ => ⟨rfl, rfl, rfl⟩, fun _ => rfl⟩
  | stateless => exact ⟨rfl, fun _ => rfl, fun _ => ⟨rfl, rfl, rfl⟩, fun _ => rfl⟩
  | pkt => exact ⟨rfl, fun _ => rfl, fun hw => absurd rfl hw, fun _ => rfl⟩
  | dpk => exact ⟨rfl, fun _ => rfl, fun _ => ⟨rfl, rfl, rfl⟩, fun hw => absurd rfl hw⟩

/-- Settles O49: the other units' registers are in what the owner cannot see, so `exec_graft` replaces them;
the rest of that is as before the instruction, by `exec_frame`. -/
theorem noUnitReadsAnother : Obligations.NoUnitReadsAnother := by
  intro i s t r p d h
  have frame := exec_frame h
  have replace := exec_graft h
  refine ⟨fun hw => ?br, fun hw => ?stateless, fun hw => ?pkt, fun hw => ?dpk⟩ <;> rw [hw] at frame replace
  case br =>
    rw [frame]
    exact replace { s with pkt := p, dpk := d }
  case stateless =>
    rw [frame]
    exact replace { s with br := r, pkt := p, dpk := d }
  case pkt =>
    rw [frame]
    exact replace { s with br := r, dpk := d }
  case dpk =>
    rw [frame]
    exact replace { s with br := r, pkt := p }

theorem ok_of_pktRun {s t : State} (h : PktRun s t) (hs : s.ok) : t.ok := by
  obtain ⟨hbr, hpkt, hdpk⟩ := hs
  exact ⟨by rwa [h.br], h.ok hpkt, by rwa [h.dpk]⟩

theorem ok_of_dpkRun {s t : State} (h : DpkRun s t) (hs : s.ok) : t.ok := by
  obtain ⟨hbr, hpkt, hdpk⟩ := hs
  exact ⟨by rwa [h.br], by rwa [h.pkt], h.ok hdpk⟩

theorem undecoded_ok (r : Reject) {s : State} (hs : s.ok) : (undecoded r s).ok := by
  cases r with
  | unknownCommand | shortHeader => exact hs
  | badMagic => exact ok_of_pktRun (rejectHead_run Config.encRejectPolicy .badMagic s) hs
  | shortPayload | shortHqFragment => exact ok_of_dpkRun (shortFragment_run s) hs

/-- What a step can do: idle, or with the oldest request taken acquire, run an instruction, or meet words that
are none. -/
theorem step_cases {s t : State} (h : step s = .next t) :
    t = s ∨ ∃ rest, t = turnState (acquire (s.accept rest)) ∨
      (∃ i, exec i (s.accept rest) = .next t) ∨ ∃ r, t = undecoded r (s.accept rest) := by
  unfold step at h
  split at h
  · exact .inl (Host.Outcome.next.inj h).symm
  · rename_i q rest _
    refine .inr ⟨rest, ?_⟩
    split at h
    · exact .inl (Host.Outcome.next.inj h).symm
    · split at h
      · exact .inr (.inl ⟨_, h⟩)
      · exact .inr (.inr ⟨_, (Host.Outcome.next.inj h).symm⟩)

/-- Settles O53: taking a request changes no register, and each thing a step can do then keeps the invariant. -/
theorem stepKeepsTheInvariant : Obligations.StepKeepsTheInvariant := by
  intro s t hs h
  rcases step_cases h with rfl | ⟨rest, hstep⟩
  · exact hs
  have taken : (s.accept rest).ok := hs
  rcases hstep with rfl | ⟨i, hi⟩ | ⟨r, rfl⟩
  · exact ok_of_pktRun (acquire_run _) taken
  · exact exec_ok taken hi
  · exact undecoded_ok r taken

end Sys2Proof.Proofs.Registers
end

section
/-! PROOFS. The family of 20_memory.md: no operation of PUS reads a byte at or beyond `size` (R50). Every read
of the scanner is below a bound that it has compared with `size` first (R140), so two buffers with the same
bytes below `size` take the same branches. -/

namespace Sys2Proof.Proofs.Memory
open Sys2Proof Sys2Proof.Machine

/-- The bytes that a scan walks over end at `size`. -/
theorem slice_same {a b : List Byte} {size : Nat} (h : a.take size = b.take size) (i : Nat) :
    slice a i size = slice b i size := by
  rw [slice, slice, h]

/-- The one candidate of a nonzero offset is read only where its whole header lies below `size`
(43_parse_unit_scanner.md R146); the forward scan of a zero offset sees a slice that ends there (R148). -/
theorem linkOf_same {a b : List Byte} {size : Nat} (h : a.take size = b.take size) (offset : Nat)
    (code : Byte) (npo : Word) : linkOf a size offset code npo = linkOf b size offset code npo := by
  unfold linkOf
  by_cases short : size < offset + npo.toNat + Config.hdrLen
  · simp only [if_pos short, slice_same h]
  · have inside : offset + npo.toNat + 13 ≤ size := Nat.not_lt.mp short
    have hmagic := hasMagic_same a b size (offset + npo.toNat) h (by omega)
    have hback := be32_same a b size (offset + npo.toNat + 9) h (by omega)
    simp only [if_neg short, slice_same h, hmagic, hback]

/-- The header is read only where all its 13 bytes lie below `size` (43_parse_unit_scanner.md R142). -/
theorem puExtract_same {a b : List Byte} {size : Nat} (h : a.take size = b.take size) (offset : Nat) :
    puExtract a size offset = puExtract b size offset := by
  unfold puExtract
  by_cases short : size < offset + Config.hdrLen
  · rw [if_pos short, if_pos short]
  · have inside : offset + 13 ≤ size := Nat.not_lt.mp short
    have hmagic := hasMagic_same a b size offset h (by omega)
    have hcode := byteAt_same a b size (offset + 4) h (by omega)
    have hnext := be32_same a b size (offset + 5) h (by omega)
    have hback := be32_same a b size (offset + 9) h (by omega)
    rw [hmagic, hcode, hnext, hback, linkOf_same h]

/-- Over the same bytes `l`, the search asks PU.EXTRACT the same questions of both buffers. -/
theorem scanUnits_same {a b : List Byte} {size : Nat} (h : a.take size = b.take size) (p : Nat)
    (l : List Byte) : scanUnits a size p l = scanUnits b size p l := by
  induction l generalizing p with
  | nil => rfl
  | cons x l ih => rw [scanUnits, scanUnits, puExtract_same h, ih]

theorem puFind_same {a b : List Byte} {size : Nat} (h : a.take size = b.take size) (offset : Nat) :
    puFind a size offset = puFind b size offset := by
  rw [puFind, puFind, slice_same h, scanUnits_same h]

/-- The instruction is its meaning of Machine/Scanner.lean. -/
theorem exec_puExtract (buf : List Byte) (size offset : Nat) (s : State) :
    exec (.puExtract buf size offset) s = execPuExtract buf size offset s := rfl

/-- Settles O22: neither buffer is refused, and `puExtract_same` and `puFind_same` give the same answer, which
is all that the next state takes from the buffer. -/
theorem pusReadsNothingBeyondSize : Obligations.PusReadsNothingBeyondSize := by
  intro a b size offset s ha hb h
  constructor
  · rw [exec_puExtract, exec_puExtract, execPuExtract, execPuExtract, if_pos ha, if_pos hb, puExtract_same h]
  · rw [Registers.exec_puFind, Registers.exec_puFind, execPuFind, execPuFind, if_pos ha, if_pos hb,
      puFind_same h]

end Sys2Proof.Proofs.Memory
end

section
/-! PROOFS. The family of 30_encoding.md: the codes of the three streams and of the commands, what the VLC
codes do at the cursor, the layout of a slice, and what a step does with words that are no instruction. -/

namespace Sys2Proof.Proofs.Encoding
open Sys2Proof Sys2Proof.Machine

/-! ### The tables of codes: a code that a table does not list is "otherwise" (30_encoding.md R82) -/

/-- The tables match on the number of a byte; this is the byte again. -/
theorem eq_ofNat_of_toNat {c : Byte} {n : Nat} (h : c.toNat = n) : c = BitVec.ofNat 8 n := by
  rw [← h, BitVec.ofNat_toNat, BitVec.setWidth_eq]

/-- The command codes of 30_encoding.md R80. -/
def commandCodes : List Byte :=
  [0x10#8, 0x11#8, 0x12#8, 0x13#8, 0x14#8, 0x15#8, 0x20#8, 0x21#8, 0x30#8, 0x40#8, 0x41#8, 0x50#8,
    0x51#8, 0x52#8, 0x60#8, 0x61#8]

theorem mem_commandCodes_of_decodeCommand {code : Byte} {o : Operands} {i : Instr}
    (h : decodeCommand code o = some i) : code ∈ commandCodes := by
  unfold decodeCommand at h
  split at h
  case h_17 => cases h
  all_goals
    rename_i hc
    rw [eq_ofNat_of_toNat hc]
    decide

theorem unitKind_of_not_mem {code : Byte} (h : code ∉ knownParseCodes) : unitKind code = .unknown := by
  unfold unitKind
  split
  case h_6 => rfl
  all_goals
    rename_i hc
    rw [eq_ofNat_of_toNat hc] at h
    exact absurd (by decide) h

theorem parseFrag_of_not_mem {tag : Byte} (h : tag ∉ knownTags) (head : WireHead) (p : List Byte) :
    parseFrag (wirePrefix head tag ++ p) = .unknown head tag p := by
  rw [parseFrag_wirePrefix]
  split
  case h_4 => rfl
  all_goals
    rename_i hc
    rw [eq_ofNat_of_toNat hc] at h
    exact absurd (by decide) h

/-! ### The decoder, one equation for each kind of words -/

theorem decode_command (code : Byte) (o : Operands) :
    decode (.command code o) = (decodeCommand code o).elim (.rejected .unknownCommand) .ok := by
  rw [decode]
  cases decodeCommand code o <;> rfl

theorem decode_command_of_not_mem {code : Byte} (h : code ∉ commandCodes) (o : Operands) :
    decode (.command code o) = .rejected .unknownCommand := by
  have hnone : decodeCommand code o = none :=
    Option.eq_none_iff_forall_ne_some.mpr fun _ hi => h (mem_commandCodes_of_decodeCommand hi)
  rw [decode_command, hnone, Option.elim_none]

theorem decode_parseInfo_unknown {code : Byte} (h : code ∉ knownParseCodes) (npo ppo : Word) :
    decode (.unit (parseInfo code npo ppo)) = .ok (.unitUnknown code npo ppo) := by
  rw [decode_parseInfo, unitInstr, unitKind_of_not_mem h]

theorem decode_hqParams (head : WireHead) (hq : HqHead) (rest : List Byte) (marker : Bool) :
    decode (.fragment (wirePrefix head 0xEC#8 ++ hqHeader hq 0#16 ++ rest) marker) =
      .ok (.fragHqParams head hq rest marker) := by
  rw [decode, decodeFragment, parseFrag_hq, if_pos rfl]

theorem decode_hqSlices (head : WireHead) (hq : HqHead) {n : Half} (hn : n ≠ 0#16) (rest : List Byte)
    (marker : Bool) :
    decode (.fragment (wirePrefix head 0xEC#8 ++ hqHeader hq n ++ rest) marker) =
      .ok (.fragHqSlices head hq n rest marker) := by
  rw [decode, decodeFragment, parseFrag_hq, if_neg hn]

theorem decode_fragUnknown {tag : Byte} (h : tag ∉ knownTags) (head : WireHead) (p : List Byte)
    (marker : Bool) :
    decode (.fragment (wirePrefix head tag ++ p) marker) = .ok (.fragUnknown head tag p) := by
  rw [decode, decodeFragment, parseFrag_of_not_mem h]

theorem decode_uintCode (x : List Bool) : decode (.uintCode (uintCode x)) = .ok (.vlcUint x) := by
  rw [decode, uintCodeBits_uintCode]

/-- Settles O54. A command and a row with a fixed code come back by their equations; well-formedness is what
the rows "otherwise" and FRAG.HQ_SLICES need. -/
theorem decodeUndoesEncode : Obligations.DecodeUndoesEncode := by
  intro i hwf
  cases i with
  | brInit | brReadBit | brReadBool | brReadUint | brLength | brOverrun => rfl
  | shParse | shEqual | tpParse | puExtract | puFind => rfl
  | pktPush | pktReset | pktSetMtu | dpkFrag | dpkReset => rfl
  | unitSequenceHeader npo ppo => exact decode_parseInfo 0x00#8 npo ppo
  | unitEndOfSequence npo ppo => exact decode_parseInfo 0x10#8 npo ppo
  | unitAuxiliary npo ppo => exact decode_parseInfo 0x20#8 npo ppo
  | unitPadding npo ppo => exact decode_parseInfo 0x30#8 npo ppo
  | unitHqPicture npo ppo => exact decode_parseInfo 0xE8#8 npo ppo
  | unitUnknown code npo ppo =>
    have hcode : code ∉ knownParseCodes := by simpa [Instr.wellFormed] using hwf
    exact decode_parseInfo_unknown hcode npo ppo
  | fragSequenceHeader head p => rw [encode, decode, decodeFragment, parseFrag_wirePrefix]; rfl
  | fragEndOfSequence head p => rw [encode, decode, decodeFragment, parseFrag_wirePrefix]; rfl
  | fragHqParams head hq rest marker => exact decode_hqParams head hq rest marker
  | fragHqSlices head hq n rest marker =>
    have hn : n ≠ 0#16 := by simpa [Instr.wellFormed] using hwf
    exact decode_hqSlices head hq hn rest marker
  | fragUnknown head tag p =>
    have htag : tag ∉ knownTags := by simpa [Instr.wellFormed] using hwf
    exact decode_fragUnknown htag head p false
  | vlcBool => rfl
  | vlcUint x => exact decode_uintCode x

/-- Settles O55: the listed codes select their rows, no other code selects one, and each written word is an
encoding with its fields filled in. -/
theorem writtenWordsDecode : Obligations.WrittenWordsDecode := by
  refine ⟨fun o => ?commands, fun code o h => decode_command_of_not_mem h o, ?picture, ?unknown, ?slices,
    ?uint⟩
  case commands =>
    exact ⟨rfl, rfl, rfl, rfl, rfl, rfl, rfl, rfl, rfl, rfl, rfl, rfl, rfl, rfl, rfl, rfl⟩
  case picture => exact decode_parseInfo 0xE8#8 103#32 17#32
  case unknown => exact decode_parseInfo 0xEC#8 13#32 14#32
  case slices =>
    exact decode_hqSlices ⟨2#16, 3#8⟩ ⟨7#32, 0#16, 1#16, 4#16⟩ (n := 1#16) (by decide)
      [0, 0, 0, 0, 9, 0, 0, 0] true
  case uint => exact decode_uintCode [true, false, true]

/-! ### The VLC codes at the cursor (30_encoding.md R61, R62, R64) -/

theorem exec_vlcBool (b : Bool) (s : State) :
    exec (.vlcBool b) s = .next { s with br := afterCode 1 s.br, resp := .bool b } := rfl

theorem exec_vlcUint (x : List Bool) (s : State) :
    exec (.vlcUint x) s = .next
      { s with
        br := afterCode (2 * x.length + 1) s.br
        resp := .uint (u32 (2 ^ x.length + bitsNat x - 1)) } := by
  rw [← codeAcc_value]; rfl

theorem exec_brReadBool (s : State) :
    exec .brReadBool s = .next { s with br := (readBit s.br).2, resp := .bool (readBit s.br).1 } := rfl

theorem exec_brReadUint (s : State) :
    exec .brReadUint s = .next { s with br := (readUint s.br).2, resp := .uint (readUint s.br).1 } := rfl

/-- A code that fits in the bits left moves the cursor past it. -/
theorem afterCode_of_le {n : Nat} {r : Reader} (hr : r.ok) (h : n ≤ (bitsLeft r).length) :
    afterCode n r = { r with pos := r.pos + n } := by
  rw [bitsLeft_length_ok r hr] at h
  have hpos : r.pos ≤ 8 * r.len := hr.2
  exact if_pos (by omega)

/-- A code longer than the bits left stops at the end of the span and sets the flag. -/
theorem afterCode_of_lt {n : Nat} {r : Reader} (hr : r.ok) (h : (bitsLeft r).length < n) :
    afterCode n r = { r with pos := 8 * r.len, ovr := true } := by
  rw [bitsLeft_length_ok r hr] at h
  have hpos : r.pos ≤ 8 * r.len := hr.2
  rw [afterCode, if_neg (by omega), Nat.max_eq_right hpos]

/-- At the end of the span a code of one bit or more only sets the flag. -/
theorem afterCode_of_nil {n : Nat} {r : Reader} (hr : r.ok) (hn : 0 < n) (h : bitsLeft r = []) :
    afterCode n r = { r with ovr := true } := by
  have hlen := bitsLeft_length_ok r hr
  rw [h, List.length_nil] at hlen
  have hpos : r.pos ≤ 8 * r.len := hr.2
  exact afterCode_over r n (by omega) hn

/-- Settles O9: the decoder and the reading operation find the same code in the bits left (`readBit_code`,
`readUint_code`). -/
theorem vlcCodeAtTheCursorIsTheRead : Obligations.VlcCodeAtTheCursorIsTheRead := by
  intro s i hr
  constructor
  · intro hi
    obtain rfl : Instr.vlcBool (boolCodeBit (bitsLeft s.br)) = i := Decoded.ok.inj hi
    rw [exec_vlcBool, exec_brReadBool, readBit_code s.br hr]
  · intro hi
    obtain rfl : Instr.vlcUint (uintCodeBits (bitsLeft s.br)) = i := Decoded.ok.inj hi
    rw [exec_vlcUint, exec_brReadUint, readUint_code s.br hr, codeAcc_value]

/-- Settles O10: the bit is the first of the bits left, and the cursor moves where there is one. -/
theorem vlcBoolIsOneBit : Obligations.VlcBoolIsOneBit := by
  intro s b rest hr
  constructor
  · intro hbits
    have hfits : 1 ≤ (bitsLeft s.br).length := by simp [hbits]
    exact ⟨by rw [hbits]; rfl, by rw [exec_vlcBool, afterCode_of_le hr hfits]⟩
  · intro hbits
    exact ⟨by rw [hbits]; rfl, by rw [exec_vlcBool, afterCode_of_nil hr Nat.one_pos hbits]⟩

/-- Settles O11: the data bits of each shape are lemmas of Laws/Codes.lean; a terminated code fits in the bits
left, and one cut at a decision bit or at a data bit is one bit longer than they are, or two. -/
theorem vlcUintIsASelfTerminatingCode : Obligations.VlcUintIsASelfTerminatingCode := by
  intro s x rest hr
  refine ⟨fun hbits => ⟨?_, ?_⟩, fun hbits => ⟨?_, ?_⟩, fun hbits => ⟨?_, ?_⟩⟩
  · rw [hbits, decode, uintCodeBits_full]
  · have hfits : 2 * x.length + 1 ≤ (bitsLeft s.br).length := by
      simp [hbits, codePairs_length]
    rw [exec_vlcUint, afterCode_of_le hr hfits]
  · rw [hbits, decode, uintCodeBits_cut]
  · have hcut : (bitsLeft s.br).length < 2 * x.length + 1 := by
      simp [hbits, codePairs_length]
    rw [exec_vlcUint, afterCode_of_lt hr hcut]
  · rw [hbits, decode, uintCodeBits_cutInPair]
  · have hcut : (bitsLeft s.br).length < 2 * (x ++ [true]).length + 1 := by
      simp [hbits, codePairs_length]
    rw [exec_vlcUint, afterCode_of_lt hr hcut, bitsNat_append_true, List.length_append, List.length_singleton]

/-! ### The layout of a slice (30_encoding.md R69) -/

/-- A component lies in the body exactly when its last byte does, since its length byte comes first. -/
theorem skipComponents_succ_eq_some {body : List Byte} {k n p e : Nat} :
    skipComponents body k (n + 1) p = some e ↔
      p + 1 + (byteAt body p).toNat * k ≤ body.length ∧
        skipComponents body k n (p + 1 + (byteAt body p).toNat * k) = some e := by
  rw [skipComponents]
  split_ifs <;> simp <;> omega

theorem skipComponents_zero_eq_some {body : List Byte} {k p e : Nat} :
    skipComponents body k 0 p = some e ↔ p = e := Option.some_inj

/-- The slice ends where its third component does. -/
theorem sliceLen_eq_some {body : List Byte} {o n : Nat} {tp : TransformInfo} :
    Config.sliceLen body o tp = some n ↔
      ∃ p, skipComponents body tp.sliceSizeScalar.toNat 3 (o + tp.slicePrefixBytes.toNat + 1) = some p ∧
        p - o = n := by
  rw [Config.sliceLen, sliceLen]
  split <;> simp [*]

/-- Settles O33: the ends of the components rise, so all lie in the body exactly when the last one does. -/
theorem sliceLenMeasuresThreeComponents : Obligations.SliceLenMeasuresThreeComponents := by
  intro body o n tp k p0 l0 p1 l1 p2 l2
  have hwalk (p : Nat) : skipComponents body k 3 p0 = some p ↔
      p1 ≤ body.length ∧ p2 ≤ body.length ∧ p2 + 1 + l2 * k ≤ body.length ∧ p2 + 1 + l2 * k = p := by
    rw [skipComponents_succ_eq_some, skipComponents_succ_eq_some, skipComponents_succ_eq_some,
      skipComponents_zero_eq_some]
  have hsum : k * (l0 + l1 + l2) = l0 * k + l1 * k + l2 * k := by ring
  rw [sliceLen_eq_some, hsum]
  constructor
  · rintro ⟨p, hp, rfl⟩
    obtain ⟨-, -, hend, rfl⟩ := (hwalk p).mp hp
    omega
  · rintro ⟨rfl, hend⟩
    exact ⟨p2 + 1 + l2 * k, (hwalk _).mpr (by omega), by omega⟩

/-! ### A step without an instruction (30_encoding.md R77; log 2, log 3) -/

theorem step_of_nil {s : State} (h : s.inbox = []) : step s = .next s := by
  rw [step, h]

/-- A request without words is a unit request that has to acquire first (44_packetizer.md R170). -/
theorem step_eq_acquire {s : State} {q : Request} {rest : List Request} (hq : s.inbox = q :: rest)
    (hw : fetch q s = none) : step s = .next (turnState (acquire (s.accept rest))) := by
  simp [step, hq, hw]

theorem step_eq_undecoded {s : State} {q : Request} {rest : List Request} {w : Words} {r : Reject}
    (hq : s.inbox = q :: rest) (hw : fetch q s = some w) (hr : decode w = .rejected r) :
    step s = .next (undecoded r (s.accept rest)) := by
  simp [step, hq, hw, hr]

theorem fetch_unit_of_unsync {s : State} (h : s.pkt.state = .unsync) : fetch .unit s = none := by
  rw [fetch, h]

theorem turn_of_unsync (policy : RejectPolicy) {s : State} (h : s.pkt.state = .unsync) :
    turn policy s = acquire s := by
  rw [turn, h]

theorem decode_head_of_short {buf : List Byte} (h : buf.length < 13) :
    decode (.unit (buf.take 13)) = .rejected .shortHeader := by
  rw [decode, decodeUnit, if_pos (by simp; omega)]

theorem decode_head_of_not_magicAt {buf : List Byte} (h : 13 ≤ buf.length) (hm : ¬magicAt buf 0) :
    decode (.unit (buf.take 13)) = .rejected .badMagic := by
  rw [magicAt_iff, List.drop_zero] at hm
  rw [decode, decodeUnit, if_neg (by simp; omega), hasMagic_take _ _ (by omega), if_neg hm]

/-- DPK drops every payload that it cannot take apart in the same way (45_depacketizer.md R201, R205). -/
theorem undecoded_fragment {payload : List Byte} {marker : Bool} {r : Reject}
    (h : decode (.fragment payload marker) = .rejected r) (s : State) : undecoded r s = shortFragment s := by
  rw [decode, decodeFragment] at h
  split at h <;> cases h <;> rfl

/-- Settles O57: a door without words acquires, and one whose words are no instruction goes through
`step_eq_undecoded`, with what the block does in each case an equation of `undecoded`. -/
theorem stepWithoutAnInstruction : Obligations.StepWithoutAnInstruction := by
  intro s rest taken
  refine ⟨step_of_nil, ?command, ?acquire, ?short, ?magic, ?fragment⟩
  case command =>
    intro code ops hq hcode
    have hr : decode (.command code ops) = .rejected .unknownCommand := by rw [decode_command, hcode]; rfl
    exact step_eq_undecoded hq (Scope.fetch_command code ops s) hr
  case acquire =>
    intro hq hunsync
    have hturn : turn Config.encRejectPolicy taken = acquire (s.accept rest) := turn_of_unsync _ hunsync
    rw [hturn, step_eq_acquire hq (fetch_unit_of_unsync hunsync)]
  case short =>
    intro hq hsync hshort
    exact step_eq_undecoded hq (Scope.fetch_unit_of_sync hsync) (decode_head_of_short hshort)
  case magic =>
    intro hq hsync hlen hmagic
    exact step_eq_undecoded hq (Scope.fetch_unit_of_sync hsync) (decode_head_of_not_magicAt hlen hmagic)
  case fragment =>
    intro payload marker r hq hr
    rw [step_eq_undecoded hq (Scope.fetch_fragment payload marker s) hr, undecoded_fragment hr]
    rfl

end Sys2Proof.Proofs.Encoding
end

section
/-! PROOFS. The family of 40_bitreader_vlc.md: the operations of BR, the codes that BR.READUINT reads, and the
texts of the two grammars cut short. -/

namespace Sys2Proof.Proofs.BitReader
open Sys2Proof Sys2Proof.Machine

/-! ### The operations of BR (R91 to R93, R99, R100) -/

theorem exec_brReadBit (s : State) :
    exec .brReadBit s = .next { s with br := (readBit s.br).2, resp := .bit (readBit s.br).1 } := rfl

/-- Only BR.INIT does more to the reader than read: the other instructions of BR read by their laws, and those
of the other units leave the reader as it was (`eachUnitWritesItsOwnState`). -/
theorem exec_reads {i : Instr} {s t : State} (hi : ∀ span, i ≠ .brInit span) (h : exec i s = .next t) :
    Reads s.br t.br := by
  by_cases hw : ownerOf i = .br
  · cases i with
    | brInit span => exact absurd rfl (hi span)
    | brReadBit | brReadBool => cases h; exact readBit_reads s.br
    | brReadUint => cases h; exact readUint_reads s.br
    | brLength | brOverrun => cases h; exact Reads.refl s.br
    | vlcBool => cases h; exact Registers.afterCode_reads 1 s.br
    | vlcUint x => cases h; exact Registers.afterCode_reads (2 * x.length + 1) s.br
    | _ => cases hw
  · obtain ⟨-, hbr, -⟩ := Registers.eachUnitWritesItsOwnState i s t h
    rw [hbr hw]
    exact Reads.refl s.br

/-- Settles O1: the reader of BR.INIT is computed, and any other instruction only reads (`exec_reads`). -/
theorem brInitMakesAFreshReader : Obligations.BrInitMakesAFreshReader := by
  refine ⟨fun _ => rfl, fun _ _ => rfl, fun i s t hi h => ?_⟩
  have hreads := exec_reads hi h
  exact ⟨hreads.span, hreads.len, hreads.pos, hreads.ovr⟩

/-- A bit by its index is that bit by shift and mask, as 20_memory.md R41 writes it. -/
theorem getLsbD_eq_shift_and_one (b : Byte) (k : Nat) :
    b.getLsbD k = decide ((b >>> k) &&& 1#8 = 1#8) := by
  rw [BitVec.and_one_eq_setWidth_ofBool_getLsbD, BitVec.getLsbD_ushiftRight, Nat.add_zero]
  cases b.getLsbD k <;> rfl

/-- Settles O2: the two cases of `readBit_cases`. -/
theorem brReadBitReadsMostSignificantFirst : Obligations.BrReadBitReadsMostSignificantFirst := by
  refine ⟨fun _ => rfl, fun s => ?_⟩
  rw [exec_brReadBit]
  rcases readBit_cases s.br with ⟨hin, hbit⟩ | ⟨hend, hbit⟩
  · rw [hbit, if_pos hin, spanBit, getLsbD_eq_shift_and_one]
  · rw [hbit, if_neg (by omega)]

/-- Settles O3: both operations are `readBit`, with another response. -/
theorem brReadBoolIsReadBit : Obligations.BrReadBoolIsReadBit :=
  ⟨fun _ => rfl, fun s => ⟨_, (readBit s.br).1, exec_brReadBit s, rfl, Encoding.exec_brReadBool s⟩⟩

theorem bytesRead_le_len {r : Reader} (hr : r.ok) : (r.pos + 7) / 8 ≤ r.len := by
  have hpos : r.pos ≤ 8 * r.len := hr.2
  omega

/-- Settles O7: the response is computed, and the cursor of an `ok` reader lies in the span. -/
theorem brLengthCountsWholeBytes : Obligations.BrLengthCountsWholeBytes :=
  ⟨fun _ => rfl, fun _ => ⟨rfl, bytesRead_le_len⟩⟩

/-- Settles O8, by computation. -/
theorem brOverrunReadsTheFlag : Obligations.BrOverrunReadsTheFlag := ⟨fun _ => rfl, fun _ => rfl⟩

/-! ### The codes that BR.READUINT reads (R94 to R98, R102) -/

/-- BR.READUINT does what the code at the cursor does (30_encoding.md R62). -/
theorem exec_brReadUint_of_decode {s : State} {i : Instr} (hr : s.br.ok)
    (h : decode (.uintCode (bitsLeft s.br)) = .ok i) : exec .brReadUint s = exec i s :=
  ((Encoding.vlcCodeAtTheCursorIsTheRead s i hr).2 h).symm

/-- A code of up to 31 pairs does not wrap (R95, R97). -/
theorem codeValue_exact {x : List Bool} (hx : x.length ≤ 31) :
    (u32 (2 ^ x.length + bitsNat x - 1)).toNat = 2 ^ x.length + bitsNat x - 1 ∧
      2 ^ x.length + bitsNat x - 1 ≤ 2 ^ (x.length + 1) - 2 := by
  have hbits := bitsNat_lt x
  have hpow : 2 ^ x.length ≤ 2 ^ 31 := Nat.pow_le_pow_right (by decide) hx
  have hcodable : codable (2 ^ x.length + bitsNat x - 1) := by
    unfold codable
    omega
  refine ⟨u32_toNat hcodable, ?_⟩
  rw [Nat.pow_succ]
  omega

/-- Settles O4: the code is the VLC.UINT at the cursor, whose meaning is O11. -/
theorem brReadUintReadsACode : Obligations.BrReadUintReadsACode := by
  intro s x rest hr hbits
  obtain ⟨hdecode, hexec⟩ := (Encoding.vlcUintIsASelfTerminatingCode s x rest hr).1 hbits
  exact ⟨by rw [exec_brReadUint_of_decode hr hdecode, hexec], codeValue_exact⟩

/-- At the end of the span a bit is the sentinel (R92). -/
theorem readBit_of_end {r : Reader} (h : r.pos = 8 * r.len) : readBit r = (true, { r with ovr := true }) :=
  if_neg (by omega)

/-- At the end of the span BR.READUINT reads the code of the sentinel alone, which is 0 (R98). -/
theorem readUint_of_end {r : Reader} (hr : r.ok) (h : r.pos = 8 * r.len) :
    readUint r = (0#32, { r with ovr := true }) := by
  have hnil : bitsLeft r = [] := bitsLeft_nil r (by omega)
  rw [readUint_code r hr, hnil]
  exact congrArg (Prod.mk 0#32) (Encoding.afterCode_of_nil hr Nat.one_pos hnil)

/-- Settles O5: a code cut at a decision bit or at a data bit is the VLC.UINT at the cursor, whose meaning is
O11; at the end itself every read meets the sentinel at once. -/
theorem brReadUintMeetsTheEndOfTheSpan : Obligations.BrReadUintMeetsTheEndOfTheSpan := by
  intro s x hr
  obtain ⟨-, hcut, hcutInPair⟩ := Encoding.vlcUintIsASelfTerminatingCode s x [] hr
  refine ⟨fun hbits => ?decision, fun hbits => ?data, fun hend => ⟨?uint, ?bool, ?bit⟩⟩
  case decision =>
    obtain ⟨hdecode, hexec⟩ := hcut hbits
    rw [exec_brReadUint_of_decode hr hdecode, hexec]
  case data =>
    obtain ⟨hdecode, hexec⟩ := hcutInPair hbits
    rw [exec_brReadUint_of_decode hr hdecode, hexec]
  case uint => rw [Encoding.exec_brReadUint, readUint_of_end hr hend]
  case bool => rw [Encoding.exec_brReadBool, readBit_of_end hend]
  case bit => rw [exec_brReadBit, readBit_of_end hend]

/-- Settles O6: `readUint_ue`. -/
theorem vlcRoundTrip : Obligations.VlcRoundTrip := by
  intro s v rest hr _ hbits
  rw [Encoding.exec_brReadUint, readUint_ue s.br v rest hr hbits]
  rfl

/-! ### Blocks of a text: what each grammar reads, whole or cut (R103; 41_sequence_header.md R112) -/

/-- A block of a grammar for these bits: it only reads, it consumes them where they are all there, and it
overruns where they are cut short. -/
structure Block (f : Reader → Reader) (bits : List Bool) : Prop where
  reads : ∀ r, Reads r (f r)
  consumes : Consumes f bits
  cuts : Cuts f bits

theorem Block.comp {f g : Reader → Reader} {a b : List Bool} (hf : Block f a) (hg : Block g b) :
    Block (fun r => g (f r)) (a ++ b) :=
  ⟨fun r => (hf.reads r).trans (hg.reads (f r)), hf.consumes.comp hg.consumes,
    Cuts.comp hf.consumes hf.cuts hg.cuts hg.reads⟩

theorem skipUint_block (v : Nat) : Block skipUint (ue v) :=
  ⟨skipUint_reads, skipUint_consumes v, skipUint_cuts v⟩

theorem skipUints_block {n : Nat} {l : List Nat} (hl : l.length = n) : Block (skipUints n) (ues l) := by
  subst hl
  exact ⟨skipUints_reads _, skipUints_consumes l, skipUints_cuts l⟩

theorem dims_block (o : Option (Nat × Nat)) :
    Block (ifFlag (skipUints 2)) (flagged (o.map fun d => ues [d.1, d.2])) :=
  ⟨ifFlag_reads _ (skipUints_reads 2), (dimsBlock_text o).1, (dimsBlock_text o).2⟩

theorem overrides_block {h : HeaderText} (ho : h.ok) : Block skipOverrides (overrideBits h) :=
  ⟨skipOverrides_reads, (skipOverrides_text h ho).1, (skipOverrides_text h ho).2⟩

/-- What the grammar of the sequence header does to its reader, by blocks (41_sequence_header.md R112). -/
def skipHeader (r : Reader) : Reader :=
  skipUint (skipOverrides (ifFlag (skipUints 2) (skipUints 5 r)))

theorem seqGrammar_reader_eq (data : List Byte) :
    (seqGrammar data).reader = skipHeader (freshReader data) := seqGrammar_reader data

theorem skipHeader_block {h : HeaderText} (ho : h.ok) : Block skipHeader h.bits := by
  have hbits : h.bits = ues [h.major, h.minor, h.profile, h.level, h.base] ++
      (flagged (h.dims.map fun d => ues [d.1, d.2]) ++ (overrideBits h ++ ue h.mode)) := by
    simp only [HeaderText.bits, overrideBits, List.append_assoc]
  have five : Block (skipUints 5) (ues [h.major, h.minor, h.profile, h.level, h.base]) := skipUints_block rfl
  rw [hbits]
  have chain := five.comp ((dims_block h.dims).comp ((overrides_block ho).comp (skipUint_block h.mode)))
  exact chain

/-! ### The transform parameters: the depth decides how long the matrix is (42_transform_parameters.md R132) -/

/-- A value read, and then what it selects. -/
def readThen (k : Word → Reader → Reader) (r : Reader) : Reader := k (readUint r).1 (readUint r).2

theorem readThen_reads {k : Word → Reader → Reader} (sk : ∀ w r, Reads r (k w r)) (r : Reader) :
    Reads r (readThen k r) :=
  (readUint_reads r).trans (sk _ _)

/-- A text cut in the value overruns there; one cut behind it is cut in what the value selects. -/
theorem readThen_cuts {k : Word → Reader → Reader} {v : Nat} {b : List Bool} (hk : Cuts (k (u32 v)) b)
    (sk : ∀ w r, Reads r (k w r)) : Cuts (readThen k) (ue v ++ b) := by
  intro r cut hr hbits hcut
  have behind : ∀ rest, bitsLeft r = ue v ++ rest → rest ++ cut = b → (readThen k r).ovr = true := by
    intro rest hleft hrest
    obtain ⟨hok, hbehind⟩ := advance_ok hr hleft
    rw [readThen, readUint_ue r v rest hr hleft]
    exact hk _ cut hok (by rw [hbehind, hrest]) hcut
  rcases List.append_eq_append_iff.mp hbits with ⟨x, hv, hx⟩ | ⟨x, hleft, hb⟩
  · by_cases hnil : x = []
    · subst hnil
      exact behind [] (by rw [hv, List.append_nil, List.append_nil]) hx
    · exact (sk _ _).ovr (skipUint_cuts v r x hr hv.symm hnil)
  · exact behind x hleft hb.symm

/-- Giving up at the first overrun leaves the flag as reading on does (42_transform_parameters.md R134). -/
theorem skipUntilOverrun_ovr (n : Nat) (r : Reader) : (skipUntilOverrun n r).ovr = (skipUints n r).ovr := by
  induction n generalizing r with
  | zero => rfl
  | succ n ih =>
    rw [skipUntilOverrun]
    split
    · next hovr => rw [hovr, (skipUints_reads (n + 1) r).ovr hovr]
    · exact ih (skipUint r)

theorem skipUntilOverrun_cuts (l : List Nat) : Cuts (skipUntilOverrun l.length) (ues l) := by
  intro r cut hr hbits hcut
  rw [skipUntilOverrun_ovr]
  exact skipUints_cuts l r cut hr hbits hcut

theorem skipMatrix_reads (qmSub : Nat) (depth : Word) (r : Reader) : Reads r (skipMatrix qmSub depth r) :=
  ifFlag_reads _ (skipUntilOverrun_reads _) r

theorem skipMatrix_cuts {h : TransformText} (ho : h.ok) :
    Cuts (skipMatrix Config.qmSub (u32 h.depth)) (flagged (h.matrix.map ues)) := by
  obtain ⟨-, hdepth, -, -, -, -, hmatrix⟩ := ho
  refine ifFlag_cuts _ (fun x hx => ?_) (skipUntilOverrun_reads _)
  obtain ⟨l, hl, rfl⟩ := Option.mem_map.mp hx
  have hlength : matrixUints Config.qmSub (u32 h.depth) = l.length := by
    rw [matrixUints, u32_toNat hdepth, (hmatrix l hl).1, Config.qmSub]
  rw [hlength]
  exact skipUntilOverrun_cuts l

/-- What the grammar does behind the depth: four values and the matrix. -/
def skipBehindDepth (qmSub : Nat) (depth : Word) (r : Reader) : Reader :=
  skipMatrix qmSub depth (skipUints 4 r)

theorem skipBehindDepth_reads (qmSub : Nat) (depth : Word) (r : Reader) :
    Reads r (skipBehindDepth qmSub depth r) :=
  (skipUints_reads 4 r).trans (skipMatrix_reads qmSub depth _)

/-- What the grammar of the transform parameters does to its reader (42_transform_parameters.md R131). -/
def skipTransform (qmSub : Nat) (r : Reader) : Reader := readThen (skipBehindDepth qmSub) (skipUint r)

theorem tpGrammar_reader_eq (qmSub : Nat) (data : List Byte) :
    (tpGrammar qmSub data).2 = skipTransform qmSub (freshReader data) := by
  simp only [tpGrammar, skipTransform, readThen, skipBehindDepth, skipUints, skipUint]

theorem skipTransform_cuts {h : TransformText} (ho : h.ok) : Cuts (skipTransform Config.qmSub) h.bits := by
  have hbits : h.bits = ue h.wavelet ++ (ue h.depth ++
      (ues [h.slicesX, h.slicesY, h.prefixBytes, h.scalar] ++ flagged (h.matrix.map ues))) := by
    simp only [TransformText.bits, ues, List.flatMap_cons, List.append_assoc]
  have four : Block (skipUints 4) (ues [h.slicesX, h.slicesY, h.prefixBytes, h.scalar]) := skipUints_block rfl
  have behindDepth := Cuts.comp four.consumes four.cuts (skipMatrix_cuts ho) (skipMatrix_reads _ _)
  rw [hbits]
  have fromDepth := readThen_cuts (k := skipBehindDepth Config.qmSub) (v := h.depth) behindDepth
    (skipBehindDepth_reads _)
  have chain := Cuts.comp (skipUint_consumes h.wavelet) (skipUint_cuts h.wavelet) fromDepth
    (readThen_reads (skipBehindDepth_reads _))
  exact chain

/-! ### What an overrun answers -/

/-- An overrun of SH.PARSE is its first check (41_sequence_header.md R118). -/
theorem exec_shParse_of_ovr {data : List Byte} (h : (seqGrammar data).reader.ovr = true) (s : State) :
    exec (.shParse data) s = .next
      { s with diag := s.diag ++ [.malformedHeader .vlcOverrun], resp := .seqInfo none } := by
  have herror : shParse data = .error .vlcOverrun := by rw [shParse, seqChecks, if_pos h]
  rw [Registers.exec_shParse]
  unfold execShParse
  rw [herror]
  rfl

/-- An overrun of TP.PARSE is its one failure (42_transform_parameters.md R130). -/
theorem exec_tpParse_of_ovr {data : List Byte} (h : (tpGrammar Config.qmSub data).2.ovr = true) (s : State) :
    exec (.tpParse data) s = .next
      { s with diag := s.diag ++ [.malformedHeader .vlcOverrun], resp := .transformInfo none } := by
  have hnone : tpParse Config.qmSub data = none := by rw [tpParse, if_pos h]
  rw [Registers.exec_tpParse]
  unfold execTpParse
  rw [hnone]
  rfl

/-- On a span that holds a text cut short, the fresh reader of a grammar overruns. -/
theorem freshReader_overruns {f : Reader → Reader} {bits cut : List Bool} {data : List Byte} (hf : Cuts f bits)
    (h : spanBits data ++ cut = bits) (hcut : cut ≠ []) : (f (freshReader data)).ovr = true :=
  hf _ cut (freshReader_ok data) (by rw [bitsLeft_fresh, h]) hcut

/-- Settles O17: each grammar is made of blocks that overrun where they are cut, and an overrun is what each
parse answers first. -/
theorem truncatedTextsOverrun : Obligations.TruncatedTextsOverrun := by
  constructor
  · intro h data cut s ho hbits hcut
    apply exec_shParse_of_ovr
    rw [seqGrammar_reader_eq]
    exact freshReader_overruns (skipHeader_block ho).cuts hbits hcut
  · intro h data cut s ho hbits hcut
    apply exec_tpParse_of_ovr
    rw [tpGrammar_reader_eq]
    exact freshReader_overruns (skipTransform_cuts ho) hbits hcut

end Sys2Proof.Proofs.BitReader
end

section
/-! PROOFS. The family of 41_sequence_header.md: the checks of SH.PARSE in their order, the record that a text
of the grammar stands for, and the equality of two sequence headers. -/

namespace Sys2Proof.Proofs.SequenceHeader
open Sys2Proof Sys2Proof.Machine

/-! ### What SH.PARSE answers (R110, R111) -/

theorem exec_shParse_of_ok {data : List Byte} {i : SeqInfo} (h : shParse data = .ok i) (s : State) :
    exec (.shParse data) s = .next { s with resp := .seqInfo (some i) } := by
  rw [Registers.exec_shParse]
  unfold execShParse
  rw [h]
  rfl

theorem exec_shParse_of_error {data : List Byte} {cause : Malformed} (h : shParse data = .error cause)
    (s : State) : exec (.shParse data) s = .next
      { s with diag := s.diag ++ [.malformedHeader cause], resp := .seqInfo none } := by
  rw [Registers.exec_shParse]
  unfold execShParse
  rw [h]
  rfl

/-! ### The checks of R118, one equation for each -/

/-- Halving a word is halving the number it holds. -/
theorem word_half (w : Word) : w / 2#32 = u32 (w.toNat / 2) := by
  apply BitVec.eq_of_toNat_eq
  have hhalf : w.toNat / 2 < 2 ^ 32 := (Nat.div_le_self _ _).trans_lt w.isLt
  exact BitVec.toNat_udiv.trans (Nat.mod_eq_of_lt hhalf).symm

section
variable {f : SeqFields}

theorem seqChecks_version (hovr : f.reader.ovr = false) (hmajor : f.majorVersion ≠ 2#32) :
    seqChecks f = .error .badVersion := by
  rw [seqChecks, if_neg (ne_true_of_eq_false hovr), if_pos hmajor]

theorem seqChecks_profile (hovr : f.reader.ovr = false) (hmajor : f.majorVersion = 2#32)
    (hprofile : f.profile ≠ 3#32) : seqChecks f = .error .badProfile := by
  rw [seqChecks, if_neg (ne_true_of_eq_false hovr), if_neg (not_not_intro hmajor), if_pos hprofile]

theorem seqChecks_baseFormat (hovr : f.reader.ovr = false) (hmajor : f.majorVersion = 2#32)
    (hprofile : f.profile = 3#32) (hbase : 23 ≤ f.baseVideoFormat.toNat) :
    seqChecks f = .error .badBaseFormat := by
  rw [seqChecks, if_neg (ne_true_of_eq_false hovr), if_neg (not_not_intro hmajor),
    if_neg (not_not_intro hprofile), Config.nPreset, if_pos hbase]

/-- All checks passed: the record, with the height of one field if interlaced (R116, R117). -/
theorem seqChecks_pass (hovr : f.reader.ovr = false) (hmajor : f.majorVersion = 2#32)
    (hprofile : f.profile = 3#32) (hbase : f.baseVideoFormat.toNat < 23) :
    seqChecks f = .ok ⟨f.size.1,
      u32 (if f.pictureCodingMode ≠ 0#32 then f.size.2.toNat / 2 else f.size.2.toNat),
      decide (f.pictureCodingMode ≠ 0#32)⟩ := by
  rw [seqChecks, if_neg (ne_true_of_eq_false hovr), if_neg (not_not_intro hmajor),
    if_neg (not_not_intro hprofile), Config.nPreset, if_neg (Nat.not_le_of_lt hbase)]
  by_cases hmode : f.pictureCodingMode ≠ 0#32
  · rw [if_pos hmode, if_pos hmode, decide_eq_true hmode, word_half]
  · rw [if_neg hmode, if_neg hmode, decide_eq_false hmode, u32, BitVec.ofNat_toNat, BitVec.setWidth_eq]

end

/-- Settles O12: the equations of `seqChecks`, each with the answer it leads to. -/
theorem shParseChecksInOrder : Obligations.ShParseChecksInOrder := by
  intro data s
  dsimp only
  have hparse : shParse data = seqChecks (seqGrammar data) := rfl
  refine ⟨fun hovr => ?overrun, fun hovr hmajor => ?version, fun hovr hmajor hprofile => ?profile,
    fun hovr hmajor hprofile hbase => ?baseFormat, fun hovr hmajor hprofile hbase => ?pass⟩
  case overrun => exact BitReader.exec_shParse_of_ovr hovr s
  case version => exact exec_shParse_of_error (hparse.trans (seqChecks_version hovr hmajor)) s
  case profile => exact exec_shParse_of_error (hparse.trans (seqChecks_profile hovr hmajor hprofile)) s
  case baseFormat =>
    exact exec_shParse_of_error (hparse.trans (seqChecks_baseFormat hovr hmajor hprofile hbase)) s
  case pass => exact exec_shParse_of_ok (hparse.trans (seqChecks_pass hovr hmajor hprofile hbase)) s

/-! ### The frame size of a text (R113, R114) -/

theorem presetTable_height_codable : ∀ row ∈ presetTable, codable row.2.1 := by decide

/-- The height of a text fits its word, so that halving it does not see a wrap. -/
theorem height_codable {h : HeaderText} (ho : h.ok) : codable h.size.2 := by
  obtain ⟨-, -, -, -, -, hdims, -⟩ := ho
  unfold HeaderText.size
  cases hd : h.dims with
  | some d => exact (hdims d hd).2
  | none =>
    cases hrow : presetTable[h.base]? with
    | some row => exact presetTable_height_codable row (List.mem_of_getElem? hrow)
    | none => exact Nat.zero_le _

/-- Block 1 of the grammar leaves the frame size of the text. -/
theorem pickSize_presetSize {h : HeaderText} (hbase : codable h.base) :
    pickSize (presetSize (u32 h.base)) h.dims = (u32 h.size.1, u32 h.size.2) := by
  unfold HeaderText.size presetSize
  rw [u32_toNat hbase]
  cases h.dims with
  | some d => rfl
  | none =>
    cases presetTable[h.base]? with
    | some row => rfl
    | none => rfl

/-! ### The record of a text (R112, R115) -/

/-- The grammar reads the fields of the text (`seqGrammar_text`), and as no codable value wraps, the checks
answer of the words what R118 asks of the numbers. -/
theorem shParse_text {h : HeaderText} {data : List Byte} {rest : List Bool} (ho : h.ok)
    (hbits : spanBits data = h.bits ++ rest) : shParse data = h.result := by
  obtain ⟨r, hovr, hfields⟩ := seqGrammar_text h data rest ho hbits
  have hheight : codable h.size.2 := height_codable ho
  obtain ⟨hmajor, -, hprofile, -, hbase, -, -, -, -, -, -, -, -, hmode⟩ := ho
  have major_iff : u32 h.major = 2#32 ↔ h.major = 2 := u32_inj hmajor (by decide)
  have profile_iff : u32 h.profile = 3#32 ↔ h.profile = 3 := u32_inj hprofile (by decide)
  have mode_iff : u32 h.mode = 0#32 ↔ h.mode = 0 := u32_zero_iff h.mode hmode
  have base_eq : (u32 h.base).toNat = h.base := u32_toNat hbase
  rw [shParse, hfields, pickSize_presetSize hbase, HeaderText.result]
  by_cases major : h.major = 2
  · by_cases profile : h.profile = 3
    · rw [if_neg (not_not_intro major), if_neg (not_not_intro profile)]
      rcases Nat.lt_or_ge h.base 23 with known | unknown
      · rw [if_neg (Nat.not_le_of_lt known), seqChecks_pass hovr (major_iff.mpr major)
          (profile_iff.mpr profile) (base_eq.trans_lt known)]
        simp only [ne_eq, mode_iff, u32_toNat hheight]
      · rw [if_pos unknown]
        exact seqChecks_baseFormat hovr (major_iff.mpr major) (profile_iff.mpr profile)
          (unknown.trans_eq base_eq.symm)
    · rw [if_neg (not_not_intro major), if_pos profile]
      exact seqChecks_profile hovr (major_iff.mpr major) (mt profile_iff.mp profile)
  · rw [if_pos major]
    exact seqChecks_version hovr (mt major_iff.mp major)

/-- Settles O13: `shParse_text`, with the answer to each kind of result. -/
theorem headerTextParsesToItsFields : Obligations.HeaderTextParsesToItsFields := by
  intro h data rest s ho hbits
  have hparse : shParse data = h.result := shParse_text ho hbits
  cases hresult : h.result with
  | ok i => exact exec_shParse_of_ok (hparse.trans hresult) s
  | error cause => exact exec_shParse_of_error (hparse.trans hresult) s

/-! ### The equality of two sequence headers (R120) -/

/-- The instruction is its meaning of Machine/SeqHeader.lean. -/
theorem exec_shEqual (a b : List Byte) (s : State) :
    exec (.shEqual a b) s = .next { s with resp := .bool (shEqual a b) } := rfl

/-- Beginnings that both sequences have are equal byte by byte. -/
theorem take_eq_take_iff_byteAt {a b : List Byte} {n : Nat} (ha : n ≤ a.length) (hb : n ≤ b.length) :
    a.take n = b.take n ↔ ∀ i < n, byteAt a i = byteAt b i := by
  constructor
  · exact fun h i hi => byteAt_same a b n i h hi
  · intro h
    apply List.ext_getElem (by rw [List.length_take_of_le ha, List.length_take_of_le hb])
    intro i hia _
    have hi : i < n := (List.length_take_of_le ha) ▸ hia
    have hbyte := h i hi
    rw [byteAt, byteAt, List.getD_eq_getElem _ _ (hi.trans_le ha), List.getD_eq_getElem _ _ (hi.trans_le hb)]
      at hbyte
    rwa [List.getElem_take, List.getElem_take]

theorem shEqual_eq_decide (a b : List Byte) :
    shEqual a b = decide (∀ i < min a.length b.length, byteAt a i = byteAt b i) := by
  rw [shEqual, beq_eq_decide]
  exact decide_eq_decide.mpr (take_eq_take_iff_byteAt (Nat.min_le_left _ _) (Nat.min_le_right _ _))

/-- Settles O14: the comparison of the two beginnings, byte by byte. -/
theorem shEqualComparesTheCommonLength : Obligations.ShEqualComparesTheCommonLength :=
  ⟨fun _ => rfl, fun a b s => by rw [exec_shEqual, shEqual_eq_decide]⟩

end Sys2Proof.Proofs.SequenceHeader
end

section
/-! PROOFS. The family of 42_transform_parameters.md: the matrix given up at the first overrun, what TP.PARSE
answers, and the record of a text of the grammar. -/

namespace Sys2Proof.Proofs.TransformParameters
open Sys2Proof Sys2Proof.Machine

/-! ### Giving up at the first overrun (R134) -/

/-- A loop that never overruns is never given up. -/
theorem skipUntilOverrun_eq_skipUints {n : Nat} {r : Reader} (h : (skipUints n r).ovr = false) :
    skipUntilOverrun n r = skipUints n r := by
  induction n generalizing r with
  | zero => rfl
  | succ n ih =>
    have hovr : ¬r.ovr = true := fun hr => by simp [(skipUints_reads (n + 1) r).ovr hr] at h
    rw [skipUntilOverrun, if_neg hovr]
    exact ih h

/-- Settles O18: the flags agree (`skipUntilOverrun_ovr`), and without an overrun both are the same loop. -/
theorem stoppingAtTheFirstOverrunIsInvisible : Obligations.StoppingAtTheFirstOverrunIsInvisible :=
  fun n r => ⟨BitReader.skipUntilOverrun_ovr n r, skipUntilOverrun_eq_skipUints⟩

/-- Giving up is as invisible behind the flag of a block. -/
theorem ifFlag_skipUntilOverrun {n : Nat} {r : Reader} (h : (ifFlag (skipUints n) r).ovr = false) :
    ifFlag (skipUntilOverrun n) r = ifFlag (skipUints n) r := by
  unfold ifFlag at h ⊢
  generalize readBit r = p at h ⊢
  obtain ⟨flag, r1⟩ := p
  cases flag with
  | true => exact skipUntilOverrun_eq_skipUints h
  | false => rfl

/-! ### What TP.PARSE answers (R130) -/

theorem exec_tpParse_of_not_ovr {data : List Byte} (h : (tpGrammar Config.qmSub data).2.ovr = false)
    (s : State) : exec (.tpParse data) s = .next
      { s with resp := .transformInfo (some (tpGrammar Config.qmSub data).1) } := by
  have hsome : tpParse Config.qmSub data = some (tpGrammar Config.qmSub data).1 := by
    rw [tpParse, if_neg (ne_true_of_eq_false h)]
  rw [Registers.exec_tpParse]
  unfold execTpParse
  rw [hsome]
  rfl

/-- A value read without an overrun took at least a bit. -/
theorem skipUint_pos_lt {r : Reader} (hr : r.ok) (h : (skipUint r).ovr = false) : r.pos < (skipUint r).pos := by
  rw [skipUint, readUint_code r hr] at h ⊢
  rcases Nat.lt_or_ge (bitsLeft r).length (2 * (uintCodeBits (bitsLeft r)).length + 1) with cut | fits
  · rw [Encoding.afterCode_of_lt hr cut] at h
    cases h
  · rw [Encoding.afterCode_of_le hr fits]
    exact Nat.lt_add_of_pos_right (Nat.succ_pos _)

/-- Behind its first value the grammar only reads on. -/
theorem tpGrammar_reads_first (qmSub : Nat) (data : List Byte) :
    Reads (skipUint (freshReader data)) (tpGrammar qmSub data).2 := by
  rw [BitReader.tpGrammar_reader_eq]
  exact BitReader.readThen_reads (BitReader.skipBehindDepth_reads qmSub) _

theorem tpGrammar_pos_pos {qmSub : Nat} {data : List Byte} (h : (tpGrammar qmSub data).2.ovr = false) :
    0 < (tpGrammar qmSub data).2.pos := by
  have hreads := tpGrammar_reads_first qmSub data
  have hfirst : (skipUint (freshReader data)).ovr = false :=
    Bool.eq_false_iff.mpr fun hovr => ne_true_of_eq_false h (hreads.ovr hovr)
  exact (skipUint_pos_lt (freshReader_ok data) hfirst).trans_le hreads.pos

theorem tpGrammar_codedSize_le (qmSub : Nat) (data : List Byte) :
    (tpGrammar qmSub data).1.codedSize ≤ data.length := by
  have hreads := tpGrammar_reads qmSub data
  have hlen : (tpGrammar qmSub data).2.len = data.length := hreads.len
  rw [tpGrammar_codedSize, ← hlen]
  exact BitReader.bytesRead_le_len (hreads.ok (freshReader_ok data))

/-- Settles O16: the two answers of TP.PARSE; the record's size is that of the bits read, of which the first
value has one, in the span. -/
theorem tpParseFailsOnlyByOverrun : Obligations.TpParseFailsOnlyByOverrun := by
  refine ⟨fun _ => rfl, fun data s => ⟨fun hovr => BitReader.exec_tpParse_of_ovr hovr s, fun hovr => ?_⟩⟩
  have hsize := tpGrammar_codedSize Config.qmSub data
  have hpos : 0 < (tpGrammar Config.qmSub data).2.pos := tpGrammar_pos_pos hovr
  refine ⟨exec_tpParse_of_not_ovr hovr s, hsize, ?_, tpGrammar_codedSize_le _ _⟩
  rw [hsize, bytesRead]
  omega

/-! ### The record of a text (R131 to R133) -/

/-- The depth of a text gives the number of its matrix values (R132). -/
theorem matrixUints_text {h : TransformText} (ho : h.ok) {l : List Nat} (hl : l ∈ h.matrix) :
    matrixUints Config.qmSub (u32 h.depth) = l.length := by
  obtain ⟨-, hdepth, -, -, -, -, hmatrix⟩ := ho
  rw [matrixUints, u32_toNat hdepth, (hmatrix l hl).1, Config.qmSub]

/-- The matrix of a text is consumed: the full loop consumes it, and so the loop was not given up. -/
theorem skipMatrix_text {h : TransformText} {r : Reader} {rest : List Bool} (ho : h.ok) (hr : r.ok)
    (hovr : r.ovr = false) (hbits : bitsLeft r = flagged (h.matrix.map ues) ++ rest) :
    skipMatrix Config.qmSub (u32 h.depth) r = advance (flagged (h.matrix.map ues)).length r := by
  have hfull : ifFlag (skipUints (matrixUints Config.qmSub (u32 h.depth))) r =
      advance (flagged (h.matrix.map ues)).length r := by
    refine ifFlag_consumes _ (fun x hx => ?_) r rest hr hbits
    obtain ⟨l, hl, rfl⟩ := Option.mem_map.mp hx
    rw [matrixUints_text ho hl]
    exact skipUints_consumes l
  rw [skipMatrix, ifFlag_skipUntilOverrun (by rw [hfull]; exact hovr), hfull]

/-- The bits of a text, one value at a time. -/
theorem transformBits_eq (h : TransformText) : h.bits = ue h.wavelet ++ (ue h.depth ++ (ue h.slicesX ++
    (ue h.slicesY ++ (ue h.prefixBytes ++ (ue h.scalar ++ flagged (h.matrix.map ues)))))) := by
  simp only [TransformText.bits, ues, List.flatMap_cons, List.flatMap_nil, List.append_nil, List.append_assoc]

theorem bytesRead_advance_freshReader (n : Nat) (data : List Byte) :
    bytesRead (advance n (freshReader data)) = (n + 7) / 8 := by
  simp only [bytesRead, advance, freshReader, Nat.zero_add]

/-- The grammar reads the record of a text and stops behind its last bit. -/
theorem tpGrammar_text {h : TransformText} {data : List Byte} {rest : List Bool} (ho : h.ok)
    (hbits : spanBits data = h.bits ++ rest) :
    tpGrammar Config.qmSub data = (h.info, advance h.bits.length (freshReader data)) := by
  rw [← bitsLeft_fresh, transformBits_eq] at hbits
  simp only [List.append_assoc] at hbits
  have ok0 := freshReader_ok data
  obtain ⟨ok1, bits1⟩ := advance_ok ok0 hbits
  obtain ⟨ok2, bits2⟩ := advance_ok ok1 bits1
  obtain ⟨ok3, bits3⟩ := advance_ok ok2 bits2
  obtain ⟨ok4, bits4⟩ := advance_ok ok3 bits3
  obtain ⟨ok5, bits5⟩ := advance_ok ok4 bits4
  obtain ⟨ok6, bits6⟩ := advance_ok ok5 bits5
  have matrix := (skipMatrix_text ho ok6 rfl bits6).trans
    (show _ = advance h.bits.length (freshReader data) by
      rw [transformBits_eq]
      simp only [advance_advance, List.length_append, Nat.add_assoc])
  simp only [tpGrammar, readUint_ue _ _ _ ok0 hbits, readUint_ue _ _ _ ok1 bits1, readUint_ue _ _ _ ok2 bits2,
    readUint_ue _ _ _ ok3 bits3, readUint_ue _ _ _ ok4 bits4, readUint_ue _ _ _ ok5 bits5, matrix,
    bytesRead_advance_freshReader, TransformText.info]

/-- Settles O15: the reader stops behind the text (`tpGrammar_text`), so it did not overrun. -/
theorem transformTextParsesToItsRecord : Obligations.TransformTextParsesToItsRecord := by
  intro h data rest s ho hbits
  have hparse := tpGrammar_text ho hbits
  have hovr : (tpGrammar Config.qmSub data).2.ovr = false := by rw [hparse]; rfl
  rw [exec_tpParse_of_not_ovr hovr, hparse]

end Sys2Proof.Proofs.TransformParameters
end

section
/-! PROOFS. The family of 43_parse_unit_scanner.md: the checks of PU.EXTRACT in their order, the successor that
its forward scan finds, the unit that PU.FIND finds, and that no well-formed instruction is refused (R140). -/

namespace Sys2Proof.Proofs.Scanner
open Sys2Proof Sys2Proof.Machine

/-! ### What the two operations answer (R141, R150) -/

/-- PU.EXTRACT notes the event of its response, if it has one, and answers the response. -/
theorem exec_puExtract_eq {buf : List Byte} {size offset : Nat} {r : Extracted} (hs : size ≤ buf.length)
    (hr : puExtract buf size offset = r) (s : State) :
    exec (.puExtract buf size offset) s =
      .next { s with diag := s.diag ++ (extractEvent r).toList, resp := .extracted r } := by
  rw [Memory.exec_puExtract, execPuExtract, if_pos hs, hr]
  cases r with
  | found u => rw [extractEvent, Option.toList_none, List.append_nil]; rfl
  | reject cause => rfl
  | more => rfl

theorem exec_puExtract_of_found {buf : List Byte} {size offset : Nat} {u : ParseUnit} (hs : size ≤ buf.length)
    (hu : puExtract buf size offset = .found u) (s : State) :
    exec (.puExtract buf size offset) s = .next { s with resp := .extracted (.found u) } := by
  rw [exec_puExtract_eq hs hu, extractEvent, Option.toList_none, List.append_nil]

theorem exec_puFind_of_some {buf : List Byte} {size start p : Nat} (hs : size ≤ buf.length)
    (hp : puFind buf size start = some p) (s : State) :
    exec (.puFind buf size start) s = .next { s with resp := .foundAt (some p) } := by
  rw [Registers.exec_puFind, execPuFind, if_pos hs, hp]
  rfl

theorem exec_puFind_of_none {buf : List Byte} {size start : Nat} (hs : size ≤ buf.length)
    (hp : puFind buf size start = none) (s : State) :
    exec (.puFind buf size start) s =
      .next { s with diag := s.diag ++ [.needMore], resp := .foundAt none } := by
  rw [Registers.exec_puFind, execPuFind, if_pos hs, hp]
  rfl

theorem exec_puExtract_of_oversize {buf : List Byte} {size : Nat} (h : buf.length < size) (offset : Nat)
    (s : State) : exec (.puExtract buf size offset) s = .refused .sizeBeyondBuffer := by
  rw [Memory.exec_puExtract, execPuExtract, if_neg (Nat.not_le.mpr h)]

theorem exec_puFind_of_oversize {buf : List Byte} {size : Nat} (h : buf.length < size) (offset : Nat)
    (s : State) : exec (.puFind buf size offset) s = .refused .sizeBeyondBuffer := by
  rw [Registers.exec_puFind, execPuFind, if_neg (Nat.not_le.mpr h)]

/-! ### The checks of PU.EXTRACT, one equation for each (R142 to R147) -/

/-- The response to a header in bounds and with its magic, by how its link comes out. -/
def linkResponse (buf : List Byte) (offset : Nat) : Link → Extracted
  | .good n => .found ⟨offset, byteAt buf (offset + 4), n, be32 buf (offset + 9)⟩
  | .bad => .reject .badLink
  | .more => .more

section
variable {buf : List Byte} {size offset : Nat}

theorem puExtract_of_short (h : size < offset + 13) : puExtract buf size offset = .more := by
  rw [puExtract, Config.hdrLen, if_pos h]

theorem puExtract_of_not_magic (hin : offset + 13 ≤ size) (hm : ¬magicAt buf offset) :
    puExtract buf size offset = .reject .badMagic := by
  rw [magicAt_iff, Bool.not_eq_true] at hm
  rw [puExtract, Config.hdrLen, if_neg (Nat.not_lt.mpr hin), hm]
  rfl

theorem puExtract_of_link {l : Link} (hin : offset + 13 ≤ size) (hm : magicAt buf offset)
    (hl : linkOf buf size offset (byteAt buf (offset + 4)) (be32 buf (offset + 5)) = l) :
    puExtract buf size offset = linkResponse buf offset l := by
  rw [magicAt_iff] at hm
  rw [puExtract, Config.hdrLen, if_neg (Nat.not_lt.mpr hin), hm, hl]
  cases l <;> rfl

end

section
variable {buf : List Byte} {size offset : Nat} {code : Byte} {npo : Word}

theorem linkOf_of_short (hc : code ≠ 0x10#8) (hn : npo ≠ 0#32) (h : size < offset + npo.toNat + 13) :
    linkOf buf size offset code npo = .more := by
  rw [linkOf, if_neg hc, if_pos hn]
  exact if_pos h

/-- The one candidate of a nonzero offset is accepted exactly when it has the magic and looks back as far
(R146, R147). -/
theorem linkOf_candidate (hc : code ≠ 0x10#8) (hn : npo ≠ 0#32) (h : offset + npo.toNat + 13 ≤ size) :
    linkOf buf size offset code npo =
      if magicAt buf (offset + npo.toNat) ∧ be32 buf (offset + npo.toNat + 9) = npo then .good npo
      else .bad := by
  have hin : ¬size < offset + npo.toNat + Config.hdrLen := Nat.not_lt.mpr h
  rw [linkOf, if_neg hc, if_pos hn]
  simp only [if_neg hin, magicAt_iff, Bool.and_eq_true, beq_iff_eq]

/-- A zero offset is resolved by the scan behind the header (R148). -/
theorem linkOf_zero (hc : code ≠ 0x10#8) : linkOf buf size offset code 0#32 =
    scanLink offset (offset + 13) (slice buf (offset + 13) size) := by
  rw [linkOf, if_neg hc, if_neg (not_not_intro rfl), Config.hdrLen]

end

/-- Settles O19: the equations of `puExtract` and `linkOf`, each with the response it leads to. -/
theorem puExtractChecksInOrder : Obligations.PuExtractChecksInOrder := by
  intro buf size offset s hs npo ppo c answers
  refine ⟨fun hshort => ?short, fun hin hm => ?badMagic, fun hin hm hcode => ?endOfSequence,
    fun hin hm hcode hnpo => ⟨fun hcut => ?cut, fun hc hmc hback => ?linked, fun hc hbad => ?badLink⟩⟩
  case short => exact exec_puExtract_eq hs (puExtract_of_short hshort) s
  case badMagic => exact exec_puExtract_eq hs (puExtract_of_not_magic hin hm) s
  case endOfSequence =>
    have hlink : linkOf buf size offset (byteAt buf (offset + 4)) npo = .good npo := by
      rw [hcode, linkOf_endOfSequence]
    have hfound := puExtract_of_link hin hm hlink
    rw [linkResponse, hcode] at hfound
    exact exec_puExtract_eq hs hfound s
  case cut => exact exec_puExtract_eq hs (puExtract_of_link hin hm (linkOf_of_short hcode hnpo hcut)) s
  case linked =>
    have hlink := (linkOf_candidate hcode hnpo hc).trans (if_pos ⟨hmc, hback⟩)
    exact exec_puExtract_eq hs (puExtract_of_link hin hm hlink) s
  case badLink =>
    have hlink := (linkOf_candidate hcode hnpo hc).trans (if_neg fun ⟨hmc, hback⟩ => hbad hmc hback)
    exact exec_puExtract_eq hs (puExtract_of_link hin hm hlink) s

/-! ### The forward scan, in terms of the buffer (R148) -/

section
variable {buf : List Byte} {size offset : Nat}

/-- A successor is a validating position of the bytes behind the header. -/
theorem links_iff_isSuccessor (hs : size ≤ buf.length) (p : Nat) :
    links (slice buf (offset + 13) size) p (offset + 13 + p - offset) ↔
      isSuccessor buf size offset (offset + 13 + p) := by
  rw [links_slice buf size _ _ _ hs]
  exact ⟨fun h => ⟨Nat.le_add_right _ _, h⟩, fun ⟨_, h⟩ => h⟩

theorem scanLink_of_first_successor {c : Nat} (hs : size ≤ buf.length) (hc : isSuccessor buf size offset c)
    (hfirst : ∀ d < c, ¬isSuccessor buf size offset d) :
    scanLink offset (offset + 13) (slice buf (offset + 13) size) = .good (u32 (c - offset)) := by
  obtain ⟨p, rfl⟩ := Nat.exists_eq_add_of_le hc.1
  have hscan := (scanLink_spec offset (offset + 13) (slice buf (offset + 13) size) (Nat.le_add_right _ _)).1
  refine hscan p ((links_iff_isSuccessor hs p).mpr hc) fun q hq hl => ?_
  exact hfirst (offset + 13 + q) (Nat.add_lt_add_left hq _) ((links_iff_isSuccessor hs q).mp hl)

theorem scanLink_of_no_successor (hs : size ≤ buf.length) (hnone : ∀ c, ¬isSuccessor buf size offset c) :
    scanLink offset (offset + 13) (slice buf (offset + 13) size) = .more :=
  (scanLink_spec offset (offset + 13) (slice buf (offset + 13) size) (Nat.le_add_right _ _)).2
    fun p hl => hnone _ ((links_iff_isSuccessor hs p).mp hl)

end

/-- Settles O20: the link of a zero offset is what the scan finds, the first successor or none. -/
theorem puExtractScansForTheSuccessor : Obligations.PuExtractScansForTheSuccessor := by
  intro buf size offset s hs hin hm hcode hnpo
  have hlink : linkOf buf size offset (byteAt buf (offset + 4)) (be32 buf (offset + 5)) =
      scanLink offset (offset + 13) (slice buf (offset + 13) size) := by
    rw [hnpo, linkOf_zero hcode]
  refine ⟨fun c hc hfirst => ?found, fun hnone => ?more⟩
  case found =>
    have hgood := hlink.trans (scanLink_of_first_successor hs hc hfirst)
    exact exec_puExtract_of_found hs (puExtract_of_link hin hm hgood) s
  case more =>
    have hmore := hlink.trans (scanLink_of_no_successor hs hnone)
    exact exec_puExtract_eq hs (puExtract_of_link hin hm hmore) s

/-! ### The search of PU.FIND, in terms of the buffer (R150) -/

section
variable {buf : List Byte} {size : Nat}

theorem hasMagic_of_found {p : Nat} (h : isFound (puExtract buf size p) = true) :
    hasMagic (buf.drop p) = true := by
  rcases puExtract_cases buf size p with ⟨_, hmore⟩ | ⟨_, _, hreject⟩ | ⟨_, hm, _⟩
  · rw [hmore] at h; cases h
  · rw [hreject] at h; cases h
  · exact hm

/-- An accepted position is one where the search sees the magic: the search asks for the magic in the bytes
below `size`, and PU.EXTRACT has found it there. -/
theorem hit_iff (start q : Nat) :
    (hasMagic ((slice buf start size).drop q) = true ∧ isFound (puExtract buf size (start + q)) = true) ↔
      isFound (puExtract buf size (start + q)) = true := by
  refine and_iff_right_of_imp fun h => ?_
  have hin := found_inside h
  rw [slice, List.drop_drop, List.drop_take, hasMagic_take _ _ (by omega)]
  exact hasMagic_of_found h

theorem puFind_of_first {start p : Nat} (hs : size ≤ buf.length) (hp : start ≤ p)
    (hfound : isFound (puExtract buf size p) = true)
    (hfirst : ∀ q < p, start ≤ q → ¬isFound (puExtract buf size q) = true) :
    puFind buf size start = some p := by
  obtain ⟨k, rfl⟩ := Nat.exists_eq_add_of_le hp
  have hin := found_inside hfound
  refine (scanUnits_spec buf size start (slice buf start size)).1 k ?_ ((hit_iff start k).mpr hfound)
    fun r hr hhit => ?_
  · rw [slice_length]; omega
  · exact hfirst (start + r) (Nat.add_lt_add_left hr _) (Nat.le_add_right _ _) ((hit_iff start r).mp hhit)

theorem puFind_of_none {start : Nat} (hnone : ∀ p, start ≤ p → ¬isFound (puExtract buf size p) = true) :
    puFind buf size start = none :=
  (scanUnits_spec buf size start (slice buf start size)).2 fun q _ hhit =>
    hnone (start + q) (Nat.le_add_right _ _) ((hit_iff start q).mp hhit)

/-- To pass is to be accepted: PU.EXTRACT has checked the bounds and the magic (R142, R143). -/
theorem passes_iff (start p : Nat) :
    (start ≤ p ∧ p + 4 ≤ size ∧ magicAt buf p ∧ ∃ u, puExtract buf size p = .found u) ↔
      start ≤ p ∧ isFound (puExtract buf size p) = true := by
  rw [← isFound_iff, magicAt_iff]
  refine ⟨fun ⟨hp, _, _, hfound⟩ => ⟨hp, hfound⟩, fun ⟨hp, hfound⟩ => ?_⟩
  have hin := found_inside hfound
  exact ⟨hp, by omega, hasMagic_of_found hfound, hfound⟩

end

/-- Settles O21: the position that passes first is the one the search stops at. -/
theorem puFindGivesTheFirstAcceptedUnit : Obligations.PuFindGivesTheFirstAcceptedUnit := by
  refine ⟨fun _ => rfl, fun buf size start s hs => ?_⟩
  simp only [passes_iff]
  refine ⟨fun p ⟨hp, hfound⟩ hfirst => ?found, fun hnone => ?none⟩
  case found =>
    exact exec_puFind_of_some hs
      (puFind_of_first hs hp hfound fun q hq hsq hf => hfirst q hq ⟨hsq, hf⟩) s
  case none => exact exec_puFind_of_none hs (puFind_of_none fun p hp hf => hnone p ⟨hp, hf⟩) s

/-! ### No instruction fails (60_exceptions.md R242) -/

/-- Only PU.EXTRACT and PU.FIND have a refusal, and their well-formedness excludes it (log 17). -/
theorem exec_next_of_wellFormed {i : Instr} (hwf : i.wellFormed = true) (s : State) :
    ∃ t, exec i s = .next t := by
  have answered : ∀ {j : Instr}, Registers.Answers j → ∃ t, exec j s = .next t :=
    fun ⟨_, _, h⟩ => ⟨_, h s⟩
  cases i with
  | puExtract buf size offset => exact answered (Registers.puExtract_answers (of_decide_eq_true hwf) offset)
  | puFind buf size start => exact answered (Registers.puFind_answers (of_decide_eq_true hwf) start)
  | shParse data => exact answered (Registers.shParse_answers data)
  | tpParse data => exact answered (Registers.tpParse_answers data)
  | pktSetMtu m =>
    obtain ⟨f, -, h⟩ := Registers.pktSetMtu_runs m
    exact ⟨f s, h s⟩
  | brInit | brReadBit | brReadBool | brReadUint | brLength | brOverrun => exact ⟨_, rfl⟩
  | shEqual | pktPush | pktReset | dpkFrag | dpkReset => exact ⟨_, rfl⟩
  | unitSequenceHeader | unitEndOfSequence | unitAuxiliary | unitPadding | unitHqPicture | unitUnknown =>
    exact ⟨_, rfl⟩
  | fragSequenceHeader | fragEndOfSequence | fragHqParams | fragHqSlices | fragUnknown => exact ⟨_, rfl⟩
  | vlcBool | vlcUint => exact ⟨_, rfl⟩

/-- Settles O51: the two refusals are those of the oversize equations, and nothing else is refused. -/
theorem noInstructionFails : Obligations.NoInstructionFails :=
  ⟨fun _ s hwf => exec_next_of_wellFormed hwf s, fun _ _ offset s h =>
    ⟨exec_puExtract_of_oversize h offset s, exec_puFind_of_oversize h offset s⟩⟩

end Sys2Proof.Proofs.Scanner
end

section
/-! PROOFS. The family of 44_packetizer.md: the commands of PKT, the unit at the buffer head and its operation,
the fragments of a picture, the loop of PKT.PUSH, and the counter. -/

namespace Sys2Proof.Proofs.Packetizer
open Sys2Proof Sys2Proof.Machine

/-! ### PKT.RESET and PKT.SETMTU (R190, R191) -/

/-- Settles O23: no 16-bit value is above 65535, so the budget's range is the one comparison with 16. -/
theorem pktSetMtuTakesLegalValues : Obligations.PktSetMtuTakesLegalValues := by
  refine ⟨fun _ => rfl, fun m s => ?_⟩
  have hmax : m.toNat ≤ 65535 := Nat.le_of_lt_succ m.isLt
  by_cases hmin : 16 ≤ m.toNat
  · rw [if_pos ⟨hmin, hmax⟩]
    exact if_pos hmin
  · rw [if_neg fun h => hmin h.1]
    exact if_neg hmin

/-- Settles O24: the open values are the free ones that `clearPkt` draws. -/
theorem pktResetClearsTheStreamState : Obligations.PktResetClearsTheStreamState :=
  ⟨fun _ => rfl, fun _ => ⟨_, _, _, _, _, _, rfl⟩⟩

/-! ### The unit at the buffer head (R172, R175) -/

section
variable {policy : RejectPolicy} {s : State}

theorem stepUnit_of_more (h : puExtract s.pkt.buf s.pkt.buf.length 0 = .more) :
    stepUnit policy s = .wait (raisePkt .needMore s) := by
  rw [stepUnit, h]

theorem stepUnit_of_reject {cause : Malformed}
    (h : puExtract s.pkt.buf s.pkt.buf.length 0 = .reject cause) :
    stepUnit policy s = rejectHead policy cause s := by
  rw [stepUnit, h]

theorem stepUnit_of_found {u : ParseUnit} (h : puExtract s.pkt.buf s.pkt.buf.length 0 = .found u) :
    stepUnit policy s = .more (unitOp (unitKind u.parseCode) u.nextParseOffset.toNat s) := by
  rw [stepUnit, h]

/-- A unit row resolves the link of its own header; a turn has PU.EXTRACT read that header first. Where the
header is whole and has its magic the two come to the same. -/
theorem stepUnit_eq_stepDecoded (hlen : 13 ≤ s.pkt.buf.length) (hm : magicAt s.pkt.buf 0) :
    stepUnit policy s = stepDecoded policy (byteAt s.pkt.buf 4) (be32 s.pkt.buf 5) s := by
  have hextract := Scanner.puExtract_of_link (size := s.pkt.buf.length) (offset := 0) hlen hm rfl
  have hin : ¬s.pkt.buf.length < Config.hdrLen := Nat.not_lt.mpr hlen
  simp only [Nat.zero_add] at hextract
  rw [stepDecoded, if_neg hin]
  cases hlink : linkOf s.pkt.buf s.pkt.buf.length 0 (byteAt s.pkt.buf 4) (be32 s.pkt.buf 5) <;>
    rw [hlink] at hextract
  case good n => exact stepUnit_of_found hextract
  case bad => exact stepUnit_of_reject hextract
  case more => exact stepUnit_of_more hextract

end

section
variable {code : Byte} {npo ppo n : Word} {s : State}

/-- The instruction of the header at the buffer head is one `StepUnit`. -/
theorem exec_headInstr (h : s.pkt.buf.take 13 = parseInfo code npo ppo) :
    exec (unitInstr code npo ppo) s = .next (turnState (stepUnit Config.encRejectPolicy s)) := by
  obtain ⟨hlen, hmagic, hcode, hnpo, -⟩ := headFields h
  have hm : magicAt s.pkt.buf 0 := (magicAt_iff _ _).mpr hmagic
  rw [stepUnit_eq_stepDecoded hlen hm, hcode, hnpo, exec_unitInstr]

/-- An accepted unit runs its operation over its validated offset. -/
theorem exec_unitAtHead (h : unitAtHead code npo ppo n s) :
    exec (unitInstr code npo ppo) s = .next (unitOp (unitKind code) n.toNat s) := by
  obtain ⟨hhead, hfound⟩ := h
  rw [exec_headInstr hhead, stepUnit_of_found hfound]
  rfl

end

/-- Settles O27: `exec_headInstr`, and what `StepUnit` does without an accepted unit. -/
theorem undecidedUnitsWaitAndWrongOnesResync : Obligations.UndecidedUnitsWaitAndWrongOnesResync := by
  intro code npo ppo s hhead
  rw [exec_headInstr hhead]
  refine ⟨fun hmore => ?open_link, fun hbad => ?wrong_link⟩
  case open_link => rw [stepUnit_of_more hmore]; rfl
  case wrong_link => rw [stepUnit_of_reject hbad]; rfl

/-! ### End of sequence, and the units that are skipped (R186, R187, R188) -/

/-- Settles O25: the link of an end of sequence is good whatever its offset says (`linkOf_endOfSequence`). -/
theorem endOfSequenceUnitEndsTheSequence : Obligations.EndOfSequenceUnitEndsTheSequence := by
  refine ⟨decode_parseInfo 0x10#8, fun npo ppo s hlen => ?_⟩
  have hin : ¬s.pkt.buf.length < Config.hdrLen := Nat.not_lt.mpr hlen
  have hexec : exec (.unitEndOfSequence npo ppo) s = .next (unitEndOfSequence s) := by
    refine (exec_unitInstr 0x10#8 npo ppo s).trans ?_
    rw [stepDecoded, if_neg hin, linkOf_endOfSequence]
    rfl
  exact ⟨_, _, _, _, hexec⟩

theorem unitSkip_of_short {n : Nat} {s : State} (h : n < 13) :
    unitSkip n s = raisePkt (.malformedHeader .shortUnit) (consume n s) := by
  rw [unitSkip, Config.hdrLen, if_pos h]

theorem unitSkip_of_le {n : Nat} {s : State} (h : 13 ≤ n) : unitSkip n s = consume n s := by
  rw [unitSkip, Config.hdrLen, if_neg (Nat.not_lt.mpr h)]

/-- The three rows that are skipped are one operation. -/
theorem exec_of_skipped {code : Byte} {npo ppo n : Word} {s : State} {i : Instr}
    (h : unitAtHead code npo ppo n s)
    (hi : code = 0x20#8 ∧ i = .unitAuxiliary npo ppo ∨ code = 0x30#8 ∧ i = .unitPadding npo ppo ∨
      code ∉ [0x00#8, 0x10#8, 0x20#8, 0x30#8, 0xE8#8] ∧ i = .unitUnknown code npo ppo) :
    exec i s = .next (unitSkip n.toNat s) := by
  have hexec := exec_unitAtHead h
  rcases hi with ⟨rfl, rfl⟩ | ⟨rfl, rfl⟩ | ⟨hcode, rfl⟩
  · exact hexec
  · exact hexec
  · rw [unitInstr, Encoding.unitKind_of_not_mem hcode] at hexec
    exact hexec

/-- Settles O26: `exec_of_skipped`, by the length of the unit. -/
theorem skippedUnitsAreOnlyConsumed : Obligations.SkippedUnitsAreOnlyConsumed := by
  intro code npo ppo n s i hhead hi
  rw [exec_of_skipped hhead hi]
  by_cases hlen : 13 ≤ n.toNat
  · rw [if_pos hlen, unitSkip_of_le hlen]
    rfl
  · rw [if_neg hlen, unitSkip_of_short (Nat.lt_of_not_le hlen)]
    rfl

/-! ### Sequence headers (R176 to R178) -/

section
variable {n : Nat} {raw : List Byte} {s : State}

theorem unitSequenceHeader_of_short (h : n < 13) :
    unitSequenceHeader n s = raisePkt (.malformedHeader .shortUnit) (consume n s) := by
  rw [unitSequenceHeader, Config.hdrLen, if_pos h]

theorem unitSequenceHeader_of_le (h : 13 ≤ n) :
    unitSequenceHeader n s = sequenceHeaderBody (slice s.pkt.buf 13 n) (consume n s) := by
  have hraw : (headUnit n s).drop Config.hdrLen = slice s.pkt.buf 13 n := by
    simp [headUnit, slice, Config.hdrLen]
  rw [unitSequenceHeader, hraw, Config.hdrLen, if_neg (Nat.not_lt.mpr h)]

theorem sequenceHeaderBody_of_error {cause : Malformed} (h : shParse raw = .error cause) :
    sequenceHeaderBody raw s = raisePkt (.malformedHeader cause) s := by
  unfold sequenceHeaderBody
  rw [h]

/-- The same header as the cached one (R177): nothing is replaced. -/
theorem sequenceHeaderBody_of_same {i : SeqInfo} (h : shParse raw = .ok i) (hvalid : s.pkt.cacheValid = true)
    (hsame : shEqual s.pkt.cache raw = true) :
    sequenceHeaderBody raw s = emit 0x00#8 0x00#8 s.pkt.cache false s := by
  unfold sequenceHeaderBody
  rw [h]
  simp [hvalid, hsame]

/-- A header where nothing is cached, or another one (R178): it is cached, then sent. -/
theorem sequenceHeaderBody_of_new {i : SeqInfo} (h : shParse raw = .ok i)
    (hnew : s.pkt.cacheValid = false ∨ shEqual s.pkt.cache raw = false) :
    sequenceHeaderBody raw s = emit 0x00#8 0x00#8 raw false (replaceCache raw i s) := by
  have hcond : (!s.pkt.cacheValid || !shEqual s.pkt.cache raw) = true := by simpa using hnew
  unfold sequenceHeaderBody
  rw [h]
  simp [hcond]

end

/-- Settles O28: the five ends of the operation, each by its equation above. -/
theorem sequenceHeaderUnitCachesAndEmits : Obligations.SequenceHeaderUnitCachesAndEmits := by
  refine ⟨decode_parseInfo 0x00#8, fun npo ppo n s hhead => ?_⟩
  intro raw fails emits
  have hexec : exec (.unitSequenceHeader npo ppo) s = .next (unitSequenceHeader n.toNat s) :=
    exec_unitAtHead hhead
  refine ⟨fun hshort => ?short, fun hlen cause herr => ?unparsed, fun hlen i hok =>
    ⟨fun hvalid hsame => ?same, fun hnew => ?new⟩⟩
  case short => exact hexec.trans (by rw [unitSequenceHeader_of_short hshort]; rfl)
  case unparsed =>
    exact hexec.trans (by rw [unitSequenceHeader_of_le hlen, sequenceHeaderBody_of_error herr]; rfl)
  case same =>
    have hbody := sequenceHeaderBody_of_same (s := consume n.toNat s) hok hvalid hsame
    exact hexec.trans (by rw [unitSequenceHeader_of_le hlen, hbody]; rfl)
  case new =>
    have hbody := sequenceHeaderBody_of_new (s := consume n.toNat s) hok hnew
    exact hexec.trans (by rw [unitSequenceHeader_of_le hlen, hbody]; rfl)

/-! ### Pictures: the checks in their order (R179, R180) -/

section
variable {measure : SliceLength} {body : List Byte} {tp : TransformInfo} {mtu : Nat}

theorem validate_of_not_fit (h : ¬fieldsFit tp) : validate measure body tp mtu = .error .fieldRange := by
  rw [validate, if_pos (by omega)]

theorem validate_of_no_slices (h : fieldsFit tp) (hzero : tp.slicesX = 0#32 ∨ tp.slicesY = 0#32) :
    validate measure body tp mtu = .error .noSlices := by
  rw [validate, if_neg (by omega), if_pos hzero]

/-- What passes every check has passed each, and its slices are walked. -/
theorem passed_of_validate {l : List (Nat × Nat)} (h : validate measure body tp mtu = .ok l) :
    fieldsFit tp ∧ tp.slicesX ≠ 0#32 ∧ tp.slicesY ≠ 0#32 ∧ tp.codedSize + 12 ≤ mtu ∧
      sliceWalk measure body tp mtu (tp.slicesX.toNat * tp.slicesY.toNat) tp.codedSize = .ok l := by
  by_cases hfit : fieldsFit tp
  case neg => rw [validate_of_not_fit hfit] at h; cases h
  by_cases hzero : tp.slicesX = 0#32 ∨ tp.slicesY = 0#32
  case pos => rw [validate_of_no_slices hfit hzero] at h; cases h
  obtain ⟨hx, hy⟩ := not_or.mp hzero
  rw [validate_fits hfit hx hy] at h
  by_cases hparams : mtu < tp.codedSize + 12
  case pos => rw [if_pos hparams] at h; cases h
  rw [if_neg hparams] at h
  exact ⟨hfit, hx, hy, Nat.not_lt.mp hparams, h⟩

end

section
variable {pn : Word} {body : List Byte} {tp : TransformInfo} {s : State}

theorem unitHqPicture_of_short {n : Nat} (h : n < 17) :
    unitHqPicture n s = raisePkt (.malformedHeader .shortUnit) (consume n s) := by
  rw [unitHqPicture, Config.picHdrLen, if_pos h]

theorem hqPictureBody_of_overrun (h : tpParse Config.qmSub body = none) :
    hqPictureBody pn body s = raisePkt (.malformedHeader .vlcOverrun) s := by
  unfold hqPictureBody
  rw [h]

theorem hqPictureBody_of_error {cause : Malformed} (htp : tpParse Config.qmSub body = some tp)
    (h : validate Config.sliceLen body tp s.pkt.mtu.toNat = .error cause) :
    hqPictureBody pn body s = raisePkt (.malformedHeader cause) s := by
  unfold hqPictureBody
  rw [htp]
  dsimp only
  rw [h]

theorem hqPictureBody_of_ok {l : List (Nat × Nat)} (htp : tpParse Config.qmSub body = some tp)
    (h : validate Config.sliceLen body tp s.pkt.mtu.toNat = .ok l) :
    hqPictureBody pn body s = packSlices ⟨pn, tp, interlaceByte pn s.pkt, body⟩ l
      (emitParams ⟨pn, tp, interlaceByte pn s.pkt, body⟩ s) := by
  unfold hqPictureBody
  rw [htp]
  dsimp only
  rw [h]

end

section
variable {npo ppo n : Word} {s : State}

theorem exec_hqPicture_of_short (hhead : unitAtHead 0xE8#8 npo ppo n s) (h : n.toNat < 17) :
    exec (.unitHqPicture npo ppo) s =
      .next (raisePkt (.malformedHeader .shortUnit) (consume n.toNat s)) := by
  refine (exec_unitAtHead hhead).trans (congrArg _ ?_)
  exact unitHqPicture_of_short h

/-- A picture unit that holds its header does with its body what `hqPictureBody` says. -/
theorem exec_hqPicture (hhead : unitAtHead 0xE8#8 npo ppo n s) (h : 17 ≤ n.toNat) :
    exec (.unitHqPicture npo ppo) s = .next
      (hqPictureBody (be32 s.pkt.buf 13) (slice s.pkt.buf 17 n.toNat) (consume n.toNat s)) := by
  refine (exec_unitAtHead hhead).trans (congrArg _ ?_)
  exact unitHqPicture_body h

theorem exec_hqPicture_of_overrun (hhead : unitAtHead 0xE8#8 npo ppo n s) (hlen : 17 ≤ n.toNat)
    (h : tpParse Config.qmSub (slice s.pkt.buf 17 n.toNat) = none) :
    exec (.unitHqPicture npo ppo) s =
      .next (raisePkt (.malformedHeader .vlcOverrun) (consume n.toNat s)) := by
  rw [exec_hqPicture hhead hlen, hqPictureBody_of_overrun h]

theorem exec_hqPicture_of_error {tp : TransformInfo} {cause : Malformed}
    (hhead : unitAtHead 0xE8#8 npo ppo n s) (hlen : 17 ≤ n.toNat)
    (htp : tpParse Config.qmSub (slice s.pkt.buf 17 n.toNat) = some tp)
    (h : validate Config.sliceLen (slice s.pkt.buf 17 n.toNat) tp s.pkt.mtu.toNat = .error cause) :
    exec (.unitHqPicture npo ppo) s = .next (raisePkt (.malformedHeader cause) (consume n.toNat s)) := by
  rw [exec_hqPicture hhead hlen, hqPictureBody_of_error (s := consume n.toNat s) htp h]

end

/-- Settles O29: a picture fails where `validate` does, and `validate` makes its checks in order. -/
theorem hqPictureUnitFailsAsAWhole : Obligations.HqPictureUnitFailsAsAWhole := by
  intro npo ppo n s hhead body mtu fails
  refine ⟨exec_hqPicture_of_short hhead, exec_hqPicture_of_overrun hhead, fun hlen tp htp => ?_⟩
  have failed {cause : Malformed} (h : validate Config.sliceLen body tp mtu = .error cause) : fails cause :=
    exec_hqPicture_of_error hhead hlen htp h
  refine ⟨fun hfit => failed (validate_of_not_fit hfit),
    fun hfit hzero => failed (validate_of_no_slices hfit hzero), fun hfit hx hy => ?_⟩
  have hvalidate := validate_fits (measure := Config.sliceLen) (body := body) (mtu := mtu) hfit hx hy
  refine ⟨fun hparams => failed (hvalidate.trans (if_pos hparams)), fun hparams l o hwalk hcount => ?_⟩
  obtain ⟨hbounds, hbudget⟩ := sliceWalk_fails body tp mtu l tp.codedSize o _ hwalk hcount
  have hslices := hvalidate.trans (if_neg (Nat.not_lt.mpr hparams))
  exact ⟨fun hnone => failed (hslices.trans (hbounds hnone)),
    fun k hk hlong => failed (hslices.trans (hbudget k hk hlong))⟩

/-! ### Pictures: the fragments (R181 to R185) -/

/-- The interlace byte shows the parity of the picture number (R181). -/
theorem interlaceByte_eq (pn : Word) (p : Pkt) :
    interlaceByte pn p = if p.cacheValid && p.cacheIl then (if pn.toNat % 2 = 1 then 0x03#8 else 0x02#8)
      else 0x00#8 := by
  have hbit : pn.setWidth 8 &&& 1#8 = BitVec.ofNat 8 (pn.toNat % 2) := by
    apply BitVec.eq_of_toNat_eq
    simp [Nat.and_one_is_mod]
    omega
  rw [interlaceByte, cachedInterlaced, hbit]
  rcases Nat.mod_two_eq_zero_or_one pn.toNat with hpar | hpar <;> rw [hpar] <;> rfl

theorem openGroup_empty (X : Nat) : OpenGroup X 0 [] Packing.empty :=
  ⟨rfl, rfl, fun h => absurd rfl h, by simp [Packing.empty]⟩

/-- Packing starts with nothing open, at the first slice (R183). -/
theorem packSlices_greedy (g : Picture) {l : List (Nat × Nat)} {s : State} (hX : 0 < g.tp.slicesX.toNat)
    (hne : l ≠ []) (hfit : ∀ x ∈ l, x.2 + 16 ≤ s.pkt.mtu.toNat) :
    ∃ groups, groups.flatten = l ∧ greedy s.pkt.mtu.toNat groups ∧
      packSlices g l s = { s with
        pkt := { s.pkt with extSeq := s.pkt.extSeq + BitVec.ofNat 16 groups.length }
        tx := s.tx ++ sliceFragments g s.pkt.pts s.pkt.dts s.pkt.extSeq 0 groups } :=
  packGroups_greedy g s.pkt.mtu.toNat hX l 0 [] Packing.empty s (openGroup_empty _) hne
    (fun h => absurd rfl h) hfit

/-- The parameters fragment, then the slices (R179). -/
theorem emitParams_packSlices (g : Picture) {l : List (Nat × Nat)} {s : State} (hX : 0 < g.tp.slicesX.toNat)
    (hne : l ≠ []) (hfit : ∀ x ∈ l, x.2 + 16 ≤ s.pkt.mtu.toNat) :
    ∃ groups, groups.flatten = l ∧ greedy s.pkt.mtu.toNat groups ∧
      packSlices g l (emitParams g s) = { s with
        pkt := { s.pkt with extSeq := s.pkt.extSeq + BitVec.ofNat 16 (1 + groups.length) }
        tx := s.tx ++ paramsFragment g s.pkt.extSeq s.pkt.pts s.pkt.dts ::
          sliceFragments g s.pkt.pts s.pkt.dts (s.pkt.extSeq + 1#16) 0 groups } := by
  obtain ⟨groups, hflat, hgreedy, hpack⟩ := packSlices_greedy g (s := emitParams g s) hX hne hfit
  refine ⟨groups, hflat, hgreedy, ?_⟩
  rw [hpack, emitParams_eq, BitVec.ofNat_add, ← BitVec.add_assoc]
  simp only [List.append_assoc, List.singleton_append]

theorem slices_ne_nil {tp : TransformInfo} {l : List (Nat × Nat)} (hx : tp.slicesX ≠ 0#32)
    (hy : tp.slicesY ≠ 0#32) (hcount : l.length = tp.slicesX.toNat * tp.slicesY.toNat) : l ≠ [] := by
  have hpos : 0 < tp.slicesX.toNat * tp.slicesY.toNat := Nat.mul_pos (toNat_pos_of_ne hx) (toNat_pos_of_ne hy)
  exact List.ne_nil_of_length_pos (hcount ▸ hpos)

/-- Settles O30: slices that are walked pass `validate`, and the packing of them is greedy. -/
theorem hqPictureUnitIsPackedGreedily : Obligations.HqPictureUnitIsPackedGreedily := by
  intro npo ppo n s tp l e hhead hlen htp hfit hx hy hparams hwalk hcount pn il g
  have hvalid : validate Config.sliceLen (slice s.pkt.buf 17 n.toNat) tp s.pkt.mtu.toNat = .ok l := by
    rw [validate_fits hfit hx hy, if_neg (Nat.not_lt.mpr hparams), ← hcount]
    exact sliceWalk_walked _ _ _ _ _ _ hwalk
  have hil : interlaceByte pn s.pkt = il := interlaceByte_eq pn s.pkt
  have hexec : exec (.unitHqPicture npo ppo) s =
      .next (packSlices g l (emitParams g (consume n.toNat s))) := by
    rw [exec_hqPicture hhead hlen, hqPictureBody_of_ok (s := consume n.toNat s) htp hvalid]
    simp only [g, ← hil]
    rfl
  obtain ⟨groups, hflat, hgreedy, hpack⟩ := emitParams_packSlices g (s := consume n.toNat s)
    (toNat_pos_of_ne hx) (slices_ne_nil hx hy hcount) (walked_fits hwalk)
  exact ⟨groups, hflat, hgreedy, hexec.trans (congrArg _ hpack)⟩

/-! ### How many fragments, and how long (R184, R185; 70_reset_and_hazards.md R278) -/

/-- A full group of `m` more is one more in the ceiling. -/
theorem ceil_add_self {m : Nat} (hm : 1 ≤ m) (r : Nat) : (m + r + m - 1) / m = (r + m - 1) / m + 1 := by
  rw [← Nat.add_div_right _ hm]
  congr 1
  omega

/-- A group of one to `m` slices counts as one. -/
theorem ceil_of_le {m r : Nat} (hr : 1 ≤ r) (hrm : r ≤ m) : (r + m - 1) / m = 1 :=
  Nat.div_eq_of_lt_le (by omega) (by omega)

/-- Slices of one length `k`: `m` fit in a group, every group but the last holds as many, and the last holds
one at least (R185 (b)). -/
theorem greedy_length {mtu k m : Nat} (hk : 0 < k) (hm : m = (mtu - 16) / k) (hm1 : 1 ≤ m)
    (groups : List (List (Nat × Nat))) (hgreedy : greedy mtu groups) (hsize : ∀ x ∈ groups.flatten, x.2 = k) :
    groups.length = (groups.flatten.length + m - 1) / m := by
  induction groups with
  | nil => exact (Nat.div_eq_of_lt (by simp; omega)).symm
  | cons l rest ih =>
    obtain ⟨hne, hfit, hfull, hrest⟩ := hgreedy
    simp only [List.flatten_cons, List.mem_append] at hsize
    have hbytes : groupBytes l = l.length * k := groupBytes_const fun x hx => hsize x (.inl hx)
    have hpos : 1 ≤ l.length := List.length_pos_iff.mpr hne
    have hle : l.length ≤ m := by rw [hm, Nat.le_div_iff_mul_le hk]; omega
    rw [List.length_cons, List.flatten_cons, List.length_append]
    cases rest with
    | nil => exact (ceil_of_le hpos hle).symm
    | cons next rest =>
      obtain ⟨x, xs, rfl⟩ := List.exists_cons_of_ne_nil hrest.1
      have hnext : mtu < groupBytes l + x.2 + 16 := hfull (x :: xs) rfl x rfl
      have hxk : x.2 = k := hsize x (.inr (by simp))
      have hge : m ≤ l.length := by
        have hlt : (mtu - 16) / k < l.length + 1 := by
          rw [Nat.div_lt_iff_lt_mul hk, Nat.succ_mul]
          omega
        omega
      have hlen : l.length = m := Nat.le_antisymm hle hge
      rw [hlen, ceil_add_self hm1, ih hrest fun y hy => hsize y (.inr hy)]

/-- Settles O31: a slice has four bytes or more, so `k` is positive, and each fits the budget, so `m` is. -/
theorem equalSlicesGiveTheCeilingCount : Obligations.EqualSlicesGiveTheCeilingCount := by
  intro npo ppo n s tp l e k hhead hlen htp hfit hx hy hparams hwalk hcount hsize m
  obtain ⟨groups, rfl, hgreedy, hexec⟩ :=
    hqPictureUnitIsPackedGreedily npo ppo n s tp l e hhead hlen htp hfit hx hy hparams hwalk hcount
  obtain ⟨x, hxl⟩ := List.exists_mem_of_ne_nil _ (slices_ne_nil hx hy hcount)
  have hk : 4 ≤ k := by
    have hbytes := walked_length groups.flatten _ _ hwalk
    rw [groupBytes_const hsize, Nat.mul_comm] at hbytes
    exact Nat.le_of_mul_le_mul_left hbytes (List.length_pos_of_mem hxl)
  have hm : 1 ≤ m := by
    have hbudget := walked_fits hwalk x hxl
    rw [hsize x hxl] at hbudget
    exact (Nat.le_div_iff_mul_le (by omega)).mpr (by omega)
  refine ⟨_, hexec, hm, ?_⟩
  rw [← greedy_length (by omega) rfl hm groups hgreedy hsize]
  simp only [List.length_append, List.length_cons, sliceFragments_length]
  omega

/-- The header of a picture fragment takes 12 bytes of the budget, the 4 bytes before it none. -/
theorem paramsFragment_length_le (g : Picture) (seq : Half) (pts dts : Nat) :
    (paramsFragment g seq pts dts).payload.length ≤ g.tp.codedSize + 16 := by
  simp only [paramsFragment, List.length_append, pictureBytes_length, slice_length]
  omega

theorem sliceFragment_length_le (g : Picture) (seq : Half) (first : Nat) (l : List (Nat × Nat))
    (marker : Bool) (pts dts : Nat) :
    (sliceFragment g seq first l marker pts dts).payload.length ≤ groupBytes l + 20 := by
  simp only [sliceFragment, List.length_append, pictureBytes_length, put16_length, slice_length]
  omega

theorem sliceFragments_fit (g : Picture) {mtu pts dts : Nat} {groups : List (List (Nat × Nat))}
    (hgreedy : greedy mtu groups) (seq : Half) (first : Nat) :
    ∀ f ∈ sliceFragments g pts dts seq first groups, f.payload.length ≤ mtu + 4 := by
  induction groups generalizing seq first with
  | nil => exact fun f hf => nomatch hf
  | cons l rest ih =>
    obtain ⟨-, hfit, -, hrest⟩ := hgreedy
    refine List.forall_mem_cons.mpr ⟨?_, ih hrest _ _⟩
    have hlen := sliceFragment_length_le g seq first l rest.isEmpty pts dts
    omega

/-- Settles O32: a picture that fails emits nothing, and one that passes emits the fragments of O30. -/
theorem hqFragmentsFitTheBudgetButForThePrefix : Obligations.HqFragmentsFitTheBudgetButForThePrefix := by
  intro npo ppo n s hhead
  have fails {cause : Malformed} (h : exec (.unitHqPicture npo ppo) s =
      .next (raisePkt (.malformedHeader cause) (consume n.toNat s))) :
      ∃ t, exec (.unitHqPicture npo ppo) s = .next t ∧
        ∀ f ∈ t.tx.drop s.tx.length, f.payload.length ≤ s.pkt.mtu.toNat + 4 :=
    ⟨_, h, by simp⟩
  rcases Nat.lt_or_ge n.toNat 17 with hshort | hlen
  · exact fails (exec_hqPicture_of_short hhead hshort)
  cases htp : tpParse Config.qmSub (slice s.pkt.buf 17 n.toNat) with
  | none => exact fails (exec_hqPicture_of_overrun hhead hlen htp)
  | some tp =>
    cases hvalid : validate Config.sliceLen (slice s.pkt.buf 17 n.toNat) tp s.pkt.mtu.toNat with
    | error cause => exact fails (exec_hqPicture_of_error hhead hlen htp hvalid)
    | ok l =>
      obtain ⟨hfit, hx, hy, hparams, hslices⟩ := passed_of_validate hvalid
      obtain ⟨hcount, e, hwalk⟩ := walked_of_sliceWalk _ _ _ _ _ _ hslices
      obtain ⟨groups, -, hgreedy, hexec⟩ :=
        hqPictureUnitIsPackedGreedily npo ppo n s tp l e hhead hlen htp hfit hx hy hparams hwalk hcount
      refine ⟨_, hexec, ?_⟩
      rw [List.drop_left]
      refine List.forall_mem_cons.mpr ⟨?_, sliceFragments_fit _ hgreedy _ _⟩
      exact (paramsFragment_length_le _ _ _ _).trans (Nat.add_le_add_right hparams 4)

/-! ### One turn of the loop (R170 to R173) -/

section
variable {s : State}

theorem acquire_of_none (h : puFind s.pkt.buf s.pkt.buf.length 0 = none) :
    acquire s = .wait (raisePkt .needMore s) := by
  rw [acquire, h]

theorem acquire_of_some {p : Nat} (h : puFind s.pkt.buf s.pkt.buf.length 0 = some p) :
    acquire s = .more (setSync .sync (consume p s)) := by
  rw [acquire, h]

theorem turn_of_short {policy : RejectPolicy} (hs : s.pkt.state = .sync) (h : s.pkt.buf.length < 13) :
    turn policy s = .wait s := by
  rw [turn, hs]
  exact if_pos h

theorem turn_of_header {policy : RejectPolicy} (hs : s.pkt.state = .sync) (h : 13 ≤ s.pkt.buf.length) :
    turn policy s = stepUnit policy s := by
  rw [turn, hs]
  exact if_neg (Nat.not_lt.mpr h)

/-- Under the policy of the configuration, `StepUnit` waits only for a unit that is not decided (R172, R173). -/
theorem stepUnit_eq_ite : stepUnit Config.encRejectPolicy s =
    if puExtract s.pkt.buf s.pkt.buf.length 0 = .more then .wait (turnState (stepUnit Config.encRejectPolicy s))
    else .more (turnState (stepUnit Config.encRejectPolicy s)) := by
  cases h : puExtract s.pkt.buf s.pkt.buf.length 0 with
  | more => rw [if_pos rfl, stepUnit_of_more h]; rfl
  | reject cause => rw [if_neg nofun, stepUnit_of_reject h]; rfl
  | found u => rw [if_neg nofun, stepUnit_of_found h]; rfl

/-- A whole header with its magic at the buffer head decodes to its row. -/
theorem decode_head {buf : List Byte} (hlen : 13 ≤ buf.length) (hm : magicAt buf 0) :
    decode (.unit (buf.take 13)) = .ok (unitInstr (byteAt buf 4) (be32 buf 5) (be32 buf 9)) := by
  rw [magicAt_iff, List.drop_zero] at hm
  rw [decode, decodeUnit, if_neg (by simp; omega), hasMagic_take _ _ (by omega), if_pos hm,
    byteAt_take _ _ _ (by omega), be32_take _ _ _ (by omega), be32_take _ _ _ (by omega)]

end

/-- Settles O36: the equations of `turn`; the unit at the head is one `StepUnit`, in a turn as in its row. -/
theorem aTurnRunsTheUnitAtTheHead : Obligations.ATurnRunsTheUnitAtTheHead := by
  intro s
  refine ⟨fun hs hnone => ?nothing, fun hs p hfound => ?acquire, turn_of_short, fun hs hlen hm => ?magic,
    fun hs hlen hm => ?unit⟩
  case nothing => rw [Encoding.turn_of_unsync _ hs, acquire_of_none hnone]; rfl
  case acquire => rw [Encoding.turn_of_unsync _ hs, acquire_of_some hfound]; rfl
  case magic =>
    rw [turn_of_header hs hlen, stepUnit_of_reject (Scanner.puExtract_of_not_magic hlen hm)]
    rfl
  case unit =>
    refine ⟨_, turnState (stepUnit Config.encRejectPolicy s), decode_head hlen hm, ?_, ?_⟩
    · rw [exec_unitInstr, stepUnit_eq_stepDecoded hlen hm]
    · rw [turn_of_header hs hlen]
      exact stepUnit_eq_ite

/-! ### PKT.PUSH (R170; 46_arithmetic_and_control.md R293) -/

/-- The bytes of a push, after the turns they allow. -/
def pushed (data : List Byte) (pts dts : Nat) (s : State) : State :=
  runTurns Config.encRejectPolicy (turnFuel (appendBuf data pts dts s)) (appendBuf data pts dts s)

theorem exec_pktPush (data : List Byte) (pts dts : Nat) (s : State) : exec (.pktPush data pts dts) s =
    .next ((pushed data pts dts s).reply (.fragments ((pushed data pts dts s).tx.drop s.tx.length))) := rfl

theorem pushed_run (data : List Byte) (pts dts : Nat) (s : State) :
    PktRun (appendBuf data pts dts s) (pushed data pts dts s) := runTurns_run _ _ _

/-- Fuel beyond the measure is a run of the loop without a bound, for every turn that goes on makes the measure
smaller. -/
theorem pushLoop_runTurns {fuel : Nat} {s : State} (h : turnMeasure s < fuel) :
    PushLoop s (runTurns Config.encRejectPolicy fuel s) := by
  induction fuel generalizing s with
  | zero => exact absurd h (Nat.not_lt_zero _)
  | succ fuel ih =>
    cases hturn : turn Config.encRejectPolicy s with
    | wait t =>
      rw [runTurns_wait fuel s t hturn]
      exact .stop s t hturn
    | more t =>
      rw [runTurns_more fuel s t hturn]
      have hless := turn_decreases _ s t hturn
      exact .again s t _ hturn (ih (by omega))

/-- Settles O35: the fuel of PKT.PUSH is beyond the measure. -/
theorem pktPushRunsTheLoopToItsEnd : Obligations.PktPushRunsTheLoopToItsEnd :=
  fun data pts dts s =>
    ⟨pushed data pts dts s, pushLoop_runTurns (turnMeasure_lt_fuel (appendBuf data pts dts s)), rfl⟩

/-- Settles O37: a push is a run of PKT from the state with its bytes and timestamps. -/
theorem pushedFragmentsCarryThePushTimestamps : Obligations.PushedFragmentsCarryThePushTimestamps := by
  intro data pts dts s
  have run := pushed_run data pts dts s
  obtain ⟨l, htx, -, hnumbered⟩ := run.tx
  refine ⟨_, l, exec_pktPush data pts dts s, htx, ?_, fun f hf => ?_, run.pts, run.dts, run.mtu, run.buf⟩
  · rw [htx, appendBuf_tx, List.drop_left]
    rfl
  · obtain ⟨k, hk⟩ := List.getElem?_of_mem hf
    exact (hnumbered k f hk).2

/-- Nothing more to do with the bytes there are: UNSYNC and no unit in them, or SYNC and the first not decided. -/
inductive AtRest (p : Pkt) : Prop where
  | unsync : p.state = .unsync → puFind p.buf p.buf.length 0 = none → AtRest p
  | sync : p.state = .sync → puExtract p.buf p.buf.length 0 = .more → AtRest p

/-- At rest depends on the state and the buffer alone. -/
theorem AtRest.congr {p q : Pkt} (h : AtRest p) (hs : q.state = p.state) (hb : q.buf = p.buf) : AtRest q := by
  cases h with
  | unsync hp hfind => exact .unsync (hs.trans hp) (by rw [hb, hfind])
  | sync hp hextract => exact .sync (hs.trans hp) (by rw [hb, hextract])

/-- A turn waits only at rest, and raises nothing but its wish for more bytes. -/
theorem wait_cases {s t : State} (h : turn Config.encRejectPolicy s = .wait t) :
    AtRest s.pkt ∧ (t = s ∨ t = raisePkt .needMore s) := by
  cases hs : s.pkt.state with
  | unsync =>
    rw [Encoding.turn_of_unsync _ hs] at h
    cases hfind : puFind s.pkt.buf s.pkt.buf.length 0 with
    | none =>
      rw [acquire_of_none hfind] at h
      exact ⟨.unsync hs hfind, .inr (Turn.wait.inj h).symm⟩
    | some p => rw [acquire_of_some hfind] at h; cases h
  | sync =>
    rcases Nat.lt_or_ge s.pkt.buf.length 13 with hshort | hlen
    · rw [turn_of_short hs hshort] at h
      exact ⟨.sync hs (Scanner.puExtract_of_short hshort), .inl (Turn.wait.inj h).symm⟩
    · rw [turn_of_header hs hlen] at h
      cases hextract : puExtract s.pkt.buf s.pkt.buf.length 0 with
      | more =>
        rw [stepUnit_of_more hextract] at h
        exact ⟨.sync hs hextract, .inr (Turn.wait.inj h).symm⟩
      | reject cause => rw [stepUnit_of_reject hextract] at h; cases h
      | found u => rw [stepUnit_of_found hextract] at h; cases h

/-- A turn that waits leaves PKT at rest. -/
theorem atRest_of_wait {s t : State} (h : turn Config.encRejectPolicy s = .wait t) : AtRest t.pkt := by
  obtain ⟨hrest, rfl | rfl⟩ := wait_cases h
  · exact hrest
  · exact hrest.congr rfl rfl

/-- At rest, a turn waits. -/
theorem turn_of_atRest {s : State} (h : AtRest s.pkt) :
    turn Config.encRejectPolicy s = .wait s ∨ turn Config.encRejectPolicy s = .wait (raisePkt .needMore s) := by
  cases h with
  | unsync hs hfind => exact .inr ((Encoding.turn_of_unsync _ hs).trans (acquire_of_none hfind))
  | sync hs hextract =>
    rcases Nat.lt_or_ge s.pkt.buf.length 13 with hshort | hlen
    · exact .inl (turn_of_short hs hshort)
    · exact .inr ((turn_of_header hs hlen).trans (stepUnit_of_more hextract))

theorem atRest_pushed (data : List Byte) (pts dts : Nat) (s : State) : AtRest (pushed data pts dts s).pkt := by
  obtain ⟨u, hwait, -⟩ :=
    runTurns_waits Config.encRejectPolicy _ _ (turnMeasure_lt_fuel (appendBuf data pts dts s))
  exact atRest_of_wait hwait

theorem pushed_of_wait {data : List Byte} {pts dts : Nat} {s t : State}
    (h : turn Config.encRejectPolicy (appendBuf data pts dts s) = .wait t) : pushed data pts dts s = t :=
  runTurns_wait _ _ _ h

theorem appendBuf_nil (pts dts : Nat) (s : State) :
    appendBuf [] pts dts s = { s with pkt := { s.pkt with pts := pts, dts := dts } } := by
  rw [appendBuf, List.append_nil]
  rfl

/-- At rest, the first turn of an empty push waits. -/
theorem exec_emptyPush {t : State} (h : AtRest t.pkt) (pts dts : Nat) :
    ∃ (w : Half) (e : List Event), exec (.pktPush [] pts dts) t = .next
      { t with
        pkt := { t.pkt with pts := pts, dts := dts, event := w }
        resp := .fragments []
        diag := t.diag ++ e } := by
  have hrest : AtRest (appendBuf [] pts dts t).pkt := h.congr rfl (List.append_nil _)
  rcases turn_of_atRest hrest with hwait | hwait
  · refine ⟨t.pkt.event, [], ?_⟩
    rw [exec_pktPush, pushed_of_wait hwait, appendBuf_nil, List.drop_length, List.append_nil]
    rfl
  · refine ⟨eventWord .needMore, [.needMore], ?_⟩
    rw [exec_pktPush, pushed_of_wait hwait, appendBuf_nil, raisePkt_tx, List.drop_length]
    rfl

/-- Settles O38: a push leaves PKT at rest. -/
theorem anEmptyPushChangesNothing : Obligations.AnEmptyPushChangesNothing := by
  intro data pts dts pts2 dts2 s t h
  rw [exec_pktPush] at h
  obtain rfl := Host.Outcome.next.inj h
  refine exec_emptyPush ?_ pts2 dts2
  exact atRest_pushed data pts dts s

/-! ### The counter (R189) -/

/-- From `s` to `t` the counter went on by one for each fragment sent, and each carries it. -/
def Numbers (s t : State) : Prop :=
  ∃ l, t.tx = s.tx ++ l ∧ t.pkt.extSeq = s.pkt.extSeq + BitVec.ofNat 16 l.length ∧
    ∀ k f, l[k]? = some f → f.payload.take 2 = put16 (s.pkt.extSeq + BitVec.ofNat 16 k)

theorem numbers_of_silent {s t : State} (htx : t.tx = s.tx) (hseq : t.pkt.extSeq = s.pkt.extSeq) :
    Numbers s t :=
  ⟨[], by simp [htx], by simp [hseq], by simp⟩

theorem numbers_of_run {s t : State} (h : PktRun s t) : Numbers s t := by
  obtain ⟨l, htx, hseq, hnumbered⟩ := h.tx
  exact ⟨l, htx, hseq, fun k f hf => (hnumbered k f hf).1⟩

/-- The six rows UNIT.* and PKT.PUSH are runs of PKT, and PKT.SETMTU sends nothing. -/
theorem numbers_of_exec_pkt {i : Instr} {s t : State} (hw : ownerOf i = .pkt) (hi : i ≠ .pktReset)
    (h : exec i s = .next t) : Numbers s t := by
  have row (code : Byte) (npo : Word)
      (ht : turnState (stepDecoded Config.encRejectPolicy code npo s) = t) : Numbers s t :=
    ht ▸ numbers_of_run (stepDecoded_run _ code npo s)
  cases i with
  | pktPush data pts dts =>
    rw [exec_pktPush] at h
    obtain rfl := Host.Outcome.next.inj h
    obtain ⟨l, counted⟩ := numbers_of_run (pushed_run data pts dts s)
    exact ⟨l, counted⟩
  | pktReset => exact absurd rfl hi
  | pktSetMtu m =>
    rw [pktSetMtuTakesLegalValues.2] at h
    obtain rfl := Host.Outcome.next.inj h
    split <;> exact numbers_of_silent rfl rfl
  | unitSequenceHeader npo _ => exact row 0x00#8 npo (Host.Outcome.next.inj h)
  | unitEndOfSequence npo _ => exact row 0x10#8 npo (Host.Outcome.next.inj h)
  | unitAuxiliary npo _ => exact row 0x20#8 npo (Host.Outcome.next.inj h)
  | unitPadding npo _ => exact row 0x30#8 npo (Host.Outcome.next.inj h)
  | unitHqPicture npo _ => exact row 0xE8#8 npo (Host.Outcome.next.inj h)
  | unitUnknown code npo _ => exact row code npo (Host.Outcome.next.inj h)
  | _ => cases hw

/-- Settles O34: an instruction of another unit neither sends nor counts (`eachUnitWritesItsOwnState`), and
those of PKT are runs. -/
theorem counterNumbersEveryFragment : Obligations.CounterNumbersEveryFragment := by
  intro i s t hi h
  by_cases hw : ownerOf i = .pkt
  · exact numbers_of_exec_pkt hw hi h
  · obtain ⟨-, -, frame, -⟩ := Registers.eachUnitWritesItsOwnState i s t h
    obtain ⟨hpkt, htx, -⟩ := frame hw
    exact numbers_of_silent htx (by rw [hpkt])

end Sys2Proof.Proofs.Packetizer
end

section
/-! PROOFS. The family of 45_depacketizer.md: the operation of each fragment, DPK.FRAG and DPK.RESET, the
chain of the units put out, and the stream that comes back from PKT byte for byte. -/

namespace Sys2Proof.Proofs.Depacketizer
open Sys2Proof Sys2Proof.Machine

/-! ### Fragments without picture data (R204, R211, R212) -/

theorem decode_fragSequenceHeader (head : WireHead) (p : List Byte) (marker : Bool) :
    decode (.fragment (wirePrefix head 0x00#8 ++ p) marker) = .ok (.fragSequenceHeader head p) := by
  rw [decode, decodeFragment, parseFrag_wirePrefix]
  rfl

theorem decode_fragEndOfSequence (head : WireHead) (p : List Byte) (marker : Bool) :
    decode (.fragment (wirePrefix head 0x10#8 ++ p) marker) = .ok (.fragEndOfSequence head p) := by
  rw [decode, decodeFragment, parseFrag_wirePrefix]
  rfl

/-- Settles O39: the operation writes the header's fields from `len(P)` alone. -/
theorem sequenceHeaderFragmentIsReframed : Obligations.SequenceHeaderFragmentIsReframed :=
  ⟨decode_fragSequenceHeader, fun _ _ _ => rfl⟩

/-- Settles O40: the operation reads the chain register alone. -/
theorem endOfSequenceFragmentRestartsTheChain : Obligations.EndOfSequenceFragmentRestartsTheChain :=
  ⟨decode_fragEndOfSequence, fun _ _ _ => rfl⟩

/-- Settles O43: a tag that the table does not list takes the row "otherwise", which only answers. -/
theorem unknownFragmentIsIgnored : Obligations.UnknownFragmentIsIgnored :=
  ⟨fun head _ p marker htag => Encoding.decode_fragUnknown htag head p marker, fun _ _ _ _ => rfl⟩

/-! ### Picture fragments (R206 to R210, R213, R214) -/

/-- A picture fragment that is not accepted aborts the picture with its cause (R206, R209, R210). -/
theorem mismatch_eq (cause : Mismatch) (s : State) : mismatch cause s =
    { s with
      dpk :=
        { s.dpk with
          acc := [], accBytes := 0#32, inPicture := false, event := eventWord (.sequenceMismatch cause) }
      resp := .parseUnit none
      diag := s.diag ++ [.sequenceMismatch cause] } := rfl

/-- Without the marker the data is only collected (R208, R214). -/
theorem takeData_false (data : List Byte) (s : State) : takeData data false s =
    { s with
      dpk := { s.dpk with acc := s.dpk.acc ++ data, accBytes := s.dpk.accBytes + u32 data.length }
      resp := .parseUnit none } := rfl

/-- On the marker the picture is put out with its last data (R208, R213). -/
theorem takeData_true (data : List Byte) (s : State) : takeData data true s =
    { s with
      dpk :=
        { s.dpk with
          acc := [], accBytes := 0#32, inPicture := false,
          lastOff := s.dpk.accBytes + u32 data.length + 17#32 }
      resp := .parseUnit (some (parseInfo 0xE8#8 (s.dpk.accBytes + u32 data.length + 17#32) s.dpk.lastOff ++
        put32 s.dpk.curPn ++ (s.dpk.acc ++ data))) } := rfl

section
variable {hq : HqHead} {rest : List Byte} {marker : Bool} {s : State}

theorem fragHqParams_of_short (h : rest.length < hq.fragmentLength.toNat) :
    fragHqParams hq rest marker s = mismatch .lengthExceeds s := by
  rw [fragHqParams, if_pos h]

theorem fragHqParams_of_le (h : hq.fragmentLength.toNat ≤ rest.length) : fragHqParams hq rest marker s =
    takeData (rest.take hq.fragmentLength.toNat) marker (startPicture hq.pictureNumber s) := by
  rw [fragHqParams, if_neg (Nat.not_lt.mpr h)]

theorem fragHqSlices_of_short (h : rest.length < 4 + hq.fragmentLength.toNat) :
    fragHqSlices hq rest marker s = mismatch .lengthExceeds s := by
  rw [fragHqSlices, if_pos h]

theorem fragHqSlices_of_idle (h : 4 + hq.fragmentLength.toNat ≤ rest.length)
    (hidle : s.dpk.inPicture = false) : fragHqSlices hq rest marker s = mismatch .notInPicture s := by
  rw [fragHqSlices, if_neg (Nat.not_lt.mpr h), hidle]
  rfl

theorem fragHqSlices_of_other (h : 4 + hq.fragmentLength.toNat ≤ rest.length)
    (hopen : s.dpk.inPicture = true) (hpn : hq.pictureNumber ≠ s.dpk.curPn) :
    fragHqSlices hq rest marker s = mismatch .pictureNumber s := by
  rw [fragHqSlices, if_neg (Nat.not_lt.mpr h), hopen, Bool.not_true, if_neg Bool.false_ne_true, if_pos hpn]

theorem fragHqSlices_of_next (h : 4 + hq.fragmentLength.toNat ≤ rest.length)
    (hopen : s.dpk.inPicture = true) (hpn : hq.pictureNumber = s.dpk.curPn) :
    fragHqSlices hq rest marker s =
      takeData (slice rest 4 (4 + hq.fragmentLength.toNat)) marker s := by
  have hdata : (rest.drop 4).take hq.fragmentLength.toNat = slice rest 4 (4 + hq.fragmentLength.toNat) := by
    rw [slice, List.drop_take, Nat.add_sub_cancel_left]
  rw [fragHqSlices, if_neg (Nat.not_lt.mpr h), hopen, Bool.not_true, if_neg Bool.false_ne_true,
    if_neg (not_not_intro hpn), hdata]

end

theorem exec_fragHqParams (head : WireHead) (hq : HqHead) (rest : List Byte) (marker : Bool) (s : State) :
    exec (.fragHqParams head hq rest marker) s = .next (fragHqParams hq rest marker s) := rfl

theorem exec_fragHqSlices (head : WireHead) (hq : HqHead) (count : Half) (rest : List Byte) (marker : Bool)
    (s : State) :
    exec (.fragHqSlices head hq count rest marker) s = .next (fragHqSlices hq rest marker s) := rfl

/-- Settles O41: the data goes into an accumulator just cleared, so its length is the whole count. -/
theorem paramsFragmentStartsAPicture : Obligations.ParamsFragmentStartsAPicture := by
  refine ⟨Encoding.decode_hqParams, fun head hq rest marker s => ?_⟩
  intro flen
  have hcount (h : flen ≤ rest.length) : 0#32 + u32 (rest.take flen).length = u32 flen := by
    rw [BitVec.zero_add, List.length_take, Nat.min_eq_left h]
  rw [exec_fragHqParams]
  refine ⟨fun h => ?short, fun h hmarker => ?collected, fun h hmarker => ?put_out⟩
  case short => rw [fragHqParams_of_short h]; rfl
  case collected =>
    rw [fragHqParams_of_le h, hmarker, takeData_false, ← hcount h]
    rfl
  case put_out =>
    have hoff : u32 (flen + 17) = 0#32 + u32 (rest.take flen).length + 17#32 := by
      rw [hcount h, u32, u32, BitVec.ofNat_add]
    rw [fragHqParams_of_le h, hmarker, takeData_true, hoff]
    rfl

/-- Settles O42: the checks in the order of R206 and R209, each with its equation. -/
theorem sliceFragmentContinuesThePicture : Obligations.SliceFragmentContinuesThePicture := by
  refine ⟨fun head hq _ rest marker hn => Encoding.decode_hqSlices head hq hn rest marker,
    fun head hq count rest marker s => ?_⟩
  intro flen data aborts
  have hcount (h : 4 + flen ≤ rest.length) : u32 data.length = u32 flen := by
    rw [slice_length, Nat.min_eq_left h, Nat.add_sub_cancel_left]
  have aborted {cause : Mismatch} (h : fragHqSlices hq rest marker s = mismatch cause s) : aborts cause := by
    exact (exec_fragHqSlices head hq count rest marker s).trans (by rw [h, mismatch_eq])
  refine ⟨fun h => aborted (fragHqSlices_of_short h), fun h hidle => aborted (fragHqSlices_of_idle h hidle),
    fun h hopen hpn => aborted (fragHqSlices_of_other h hopen hpn), fun h hopen hpn hmarker => ?collected,
    fun h hopen hpn hmarker => ?put_out⟩
  case collected =>
    rw [exec_fragHqSlices, fragHqSlices_of_next h hopen hpn, hmarker, takeData_false, hcount h]
  case put_out =>
    rw [exec_fragHqSlices, fragHqSlices_of_next h hopen hpn, hmarker, takeData_true, hcount h]
    rfl

/-! ### DPK.FRAG and DPK.RESET (R201, R203, R205, R215, R216) -/

theorem exec_dpkFrag (payload : List Byte) (marker : Bool) (s : State) :
    exec (.dpkFrag payload marker false) s = .next (fragOp payload marker s) := rfl

/-- The dispatch and the decoder select the same row (R203). -/
theorem exec_of_decode {payload : List Byte} {marker : Bool} {i : Instr}
    (h : decode (.fragment payload marker) = .ok i) (s : State) :
    exec i s = .next (fragOp payload marker s) := by
  rw [decode, decodeFragment] at h
  rw [fragOp]
  revert h
  cases parseFrag payload with
  | short | shortHq => exact nofun
  | sequenceHeader | endOfSequence | hqParams | hqSlices | unknown => exact fun h => by cases h; rfl

theorem exec_dpkFrag_of_decode {payload : List Byte} {marker : Bool} {i : Instr}
    (h : decode (.fragment payload marker) = .ok i) (s : State) :
    exec (.dpkFrag payload marker false) s = exec i s := by
  rw [exec_dpkFrag, exec_of_decode h]

/-- A payload that decodes to no instruction is short (R201, R205). -/
theorem fragOp_of_rejected {payload : List Byte} {marker : Bool} {r : Reject}
    (h : decode (.fragment payload marker) = .rejected r) (s : State) :
    fragOp payload marker s = shortFragment s := by
  rw [decode, decodeFragment] at h
  rw [fragOp]
  revert h
  cases parseFrag payload with
  | short | shortHq => exact fun _ => rfl
  | sequenceHeader | endOfSequence | hqParams | hqSlices | unknown => exact nofun

/-- Settles O44: `exec_of_decode` for the rows, `fragOp_of_rejected` for the rest. -/
theorem dpkFragRunsTheDecodedFragment : Obligations.DpkFragRunsTheDecodedFragment := by
  intro payload marker s
  refine ⟨fun i hi => ⟨_, exec_of_decode hi s, exec_dpkFrag payload marker s⟩, fun r hr => ?_, rfl⟩
  rw [exec_dpkFrag, fragOp_of_rejected hr]
  rfl

/-- Settles O45: the discontinuity, then the answer. -/
theorem dpkResetRunsTheDiscontinuity : Obligations.DpkResetRunsTheDiscontinuity :=
  ⟨fun _ => rfl, fun _ => rfl⟩

/-! ### The chain of offsets (R213, R217) -/

/-- The forward offset of the last unit of a chain after one whose forward offset is `prev`. -/
def chainEnd (prev : Word) : List (List Byte) → Word
  | [] => prev
  | u :: l => chainEnd (be32 u 5) l

theorem chainEnd_eq_getLast? (prev : Word) (l : List (List Byte)) :
    chainEnd prev l = (l.getLast?.map fun u => be32 u 5).getD prev := by
  induction l generalizing prev with
  | nil => rfl
  | cons u l ih => rw [chainEnd, ih, List.getLast?_cons]; cases l.getLast? <;> rfl

theorem chained_append (prev : Word) (a b : List (List Byte)) :
    chained prev (a ++ b) ↔ chained prev a ∧ chained (chainEnd prev a) b := by
  induction a generalizing prev with
  | nil => simp [chained, chainEnd]
  | cons u a ih => simp only [List.cons_append, chained, chainEnd, ih, and_assoc]

theorem chainEnd_append (prev : Word) (a b : List (List Byte)) :
    chainEnd prev (a ++ b) = chainEnd (chainEnd prev a) b := by
  induction a generalizing prev with
  | nil => rfl
  | cons u a ih => exact ih _

/-- From `s` to `t` the chain went on by the units `l`, and the chain register shows its end. -/
def Continues (s t : State) (l : List (List Byte)) : Prop :=
  chained s.dpk.lastOff l ∧ t.dpk.lastOff = chainEnd s.dpk.lastOff l

theorem continues_trans {s t u : State} {a b : List (List Byte)} (h : Continues s t a)
    (h' : Continues t u b) : Continues s u (a ++ b) := by
  obtain ⟨hchain, hoff⟩ := h
  obtain ⟨hchain', hoff'⟩ := h'
  rw [hoff] at hchain' hoff'
  exact ⟨(chained_append _ _ _).mpr ⟨hchain, hchain'⟩, hoff'.trans (chainEnd_append _ _ _).symm⟩

/-- A fragment without a unit leaves the chain register (R214). -/
theorem continues_of_none {s t : State} (hresp : t.resp = .parseUnit none)
    (hoff : t.dpk.lastOff = s.dpk.lastOff) : Continues s t (unitsOut t.resp) := by
  rw [hresp]
  exact ⟨trivial, hoff⟩

/-- A regenerated unit looks back by the chain register and leaves its own offset there. -/
theorem continues_of_some {s t : State} {code : Byte} {npo : Word} {data : List Byte}
    (hresp : t.resp = .parseUnit (some (parseInfo code npo s.dpk.lastOff ++ data)))
    (hoff : t.dpk.lastOff = npo) (hnpo : npo = if code = 0x10#8 then 0#32 else u32 (13 + data.length)) :
    Continues s t (unitsOut t.resp) := by
  obtain ⟨hmagic, hcode, hnext, hprev⟩ := parseInfo_fields code npo s.dpk.lastOff data
  have hlen : (parseInfo code npo s.dpk.lastOff ++ data).length = 13 + data.length := by
    rw [List.length_append, parseInfo_length]
  rw [hresp]
  refine ⟨⟨hmagic, by omega, hprev, ?_, trivial⟩, hoff.trans hnext.symm⟩
  rw [hnext, hcode, hlen, hnpo]

theorem takeData_continues (data : List Byte) (marker : Bool) {s : State}
    (hcount : s.dpk.accBytes = u32 s.dpk.acc.length) :
    Continues s (takeData data marker s) (unitsOut (takeData data marker s).resp) := by
  cases marker with
  | false => exact continues_of_none rfl rfl
  | true =>
    have hnpo : s.dpk.accBytes + u32 data.length + 17#32 =
        u32 (13 + (put32 s.dpk.curPn ++ (s.dpk.acc ++ data)).length) := by
      rw [hcount, ← u32_length_append, List.length_append (as := put32 _), put32_length]
      simp only [u32, ← BitVec.ofNat_add]
      congr 1
      omega
    exact continues_of_some (by rw [takeData_true, List.append_assoc]) rfl
      (hnpo.trans (if_neg (by decide)).symm)

theorem fragHqParams_continues (hq : HqHead) (rest : List Byte) (marker : Bool) (s : State) :
    Continues s (fragHqParams hq rest marker s) (unitsOut (fragHqParams hq rest marker s).resp) := by
  rcases Nat.lt_or_ge rest.length hq.fragmentLength.toNat with hshort | hlen
  · rw [fragHqParams_of_short hshort]
    exact continues_of_none rfl rfl
  · rw [fragHqParams_of_le hlen]
    exact takeData_continues _ marker (s := startPicture hq.pictureNumber s) rfl

theorem fragHqSlices_continues (hq : HqHead) (rest : List Byte) (marker : Bool) {s : State}
    (hcount : s.dpk.accBytes = u32 s.dpk.acc.length) :
    Continues s (fragHqSlices hq rest marker s) (unitsOut (fragHqSlices hq rest marker s).resp) := by
  have aborted {cause : Mismatch} (h : fragHqSlices hq rest marker s = mismatch cause s) :
      Continues s (fragHqSlices hq rest marker s) (unitsOut (fragHqSlices hq rest marker s).resp) := by
    rw [h]
    exact continues_of_none rfl rfl
  rcases Nat.lt_or_ge rest.length (4 + hq.fragmentLength.toNat) with hshort | hlen
  · exact aborted (fragHqSlices_of_short hshort)
  cases hopen : s.dpk.inPicture with
  | false => exact aborted (fragHqSlices_of_idle hlen hopen)
  | true =>
    by_cases hpn : hq.pictureNumber = s.dpk.curPn
    · rw [fragHqSlices_of_next hlen hopen hpn]
      exact takeData_continues _ marker hcount
    · exact aborted (fragHqSlices_of_other hlen hopen hpn)

/-- Whatever the payload, the chain goes on by the unit put out, if there is one. -/
theorem fragOp_continues (payload : List Byte) (marker : Bool) {s : State} (hok : s.dpk.ok) :
    Continues s (fragOp payload marker s) (unitsOut (fragOp payload marker s).resp) := by
  unfold fragOp
  cases parseFrag payload with
  | short | shortHq | unknown => exact continues_of_none rfl rfl
  | sequenceHeader head p =>
    exact continues_of_some (code := 0x00#8) rfl rfl (by rw [if_neg (by decide), Nat.add_comm]; rfl)
  | endOfSequence head p =>
    exact continues_of_some (code := 0x10#8) (data := []) (by rw [List.append_nil]; rfl) rfl rfl
  | hqParams head hq rest => exact fragHqParams_continues hq rest marker s
  | hqSlices head hq count rest => exact fragHqSlices_continues hq rest marker hok.1

/-- Every delivery comes to an end, and the chain goes on by the units put out. -/
theorem deliver_continues (l : List Fragment) {s : State} (hok : s.dpk.ok) :
    ∃ t units, deliver l s = some (t, units) ∧ Continues s t units := by
  induction l generalizing s with
  | nil => exact ⟨s, [], rfl, trivial, rfl⟩
  | cons f l ih =>
    obtain ⟨t, units, hdeliver, hcontinues⟩ := ih ((fragOp_run f.payload f.marker s).ok hok)
    exact ⟨t, _, deliver_cons f l s _ t units (exec_dpkFrag f.payload f.marker s) hdeliver,
      continues_trans (fragOp_continues f.payload f.marker hok) hcontinues⟩

/-- Settles O46: every fragment goes on with the chain and keeps the count of the accumulator, which is where
a picture's offset comes from. -/
theorem outputUnitsFormOneChain : Obligations.OutputUnitsFormOneChain := by
  intro l s hok
  obtain ⟨t, units, hdeliver, hchain, hoff⟩ := deliver_continues l hok
  refine ⟨t, units, hdeliver, hchain, ?_⟩
  rw [hoff, chainEnd_eq_getLast?]
  cases units.getLast? <;> rfl

/-! ### A picture delivered (R207, R209, R213) -/

/-- A picture numbered `pn` is open, with `data` collected, after a unit whose forward offset is `off`. -/
structure Collecting (pn : Word) (data : List Byte) (off : Word) (d : Dpk) : Prop where
  inPicture : d.inPicture = true
  curPn : d.curPn = pn
  acc : d.acc = data
  accBytes : d.accBytes = u32 data.length
  lastOff : d.lastOff = off

/-- The unit of a picture numbered `pn`, with its header regenerated after a unit whose forward offset is
`off` (R213). -/
def pictureUnit (pn : Word) (data : List Byte) (off : Word) : List Byte :=
  parseInfo 0xE8#8 (u32 (data.length + 17)) off ++ (put32 pn ++ data)

/-- Whatever DPK holds, the fragments `l` come out as one unit: a header regenerated after the last unit, and
`data` behind it. Its forward offset `npo` is where the chain goes on. -/
def Regenerates (l : List Fragment) (code : Byte) (npo : Word) (data : List Byte) : Prop :=
  ∀ s : State, ∃ t,
    deliver l s = some (t, [parseInfo code npo s.dpk.lastOff ++ data]) ∧ t.dpk.lastOff = npo

/-- `fragment_length` carries a length that fits its 16 bits (30_encoding.md R73). -/
theorem u16_toNat_of_lt {n : Nat} (h : n < 2 ^ 16) : (u16 n).toNat = n := by
  rw [u16, BitVec.toNat_ofNat, Nat.mod_eq_of_lt h]

/-- The parameters fragment opens the picture with its coded bytes. -/
theorem exec_paramsFragment (g : Picture) (seq : Half) (pts dts : Nat) (s : State)
    (hbody : g.tp.codedSize ≤ g.body.length) (hfit : g.tp.codedSize < 2 ^ 16) :
    let f := paramsFragment g seq pts dts
    ∃ t, exec (.dpkFrag f.payload f.marker false) s = .next t ∧ unitsOut t.resp = [] ∧
      Collecting g.pn (slice g.body 0 g.tp.codedSize) s.dpk.lastOff t.dpk := by
  have hlen : (slice g.body 0 g.tp.codedSize).length = g.tp.codedSize := by
    rw [slice_length, Nat.min_eq_left hbody, Nat.sub_zero]
  have hflen := u16_toNat_of_lt hfit
  have hdecode := Encoding.decode_hqParams ⟨seq, g.il⟩
    ⟨g.pn, u16 g.tp.slicePrefixBytes.toNat, u16 g.tp.sliceSizeScalar.toNat, u16 g.tp.codedSize⟩
    (slice g.body 0 g.tp.codedSize) false
  rw [paramsFragment, pictureBytes_eq]
  refine ⟨_, (exec_dpkFrag_of_decode hdecode s).trans (exec_fragHqParams _ _ _ _ _), ?_⟩
  rw [fragHqParams_of_le (by rw [hflen, hlen]), hflen, List.take_of_length_le hlen.le, takeData_false]
  exact ⟨rfl, rfl, rfl, rfl, BitVec.zero_add _, rfl⟩

/-- The header of a slice fragment is followed by its coordinates and its slices, and by nothing else. -/
theorem exec_sliceFragment {g : Picture} {acc : List Byte} {off : Word} {s : State} (seq : Half) (first : Nat)
    {l : List (Nat × Nat)} {start : Nat} (marker : Bool) (pts dts : Nat)
    (hs : Collecting g.pn acc off s.dpk) (hstart : l.head?.map Prod.fst = some start)
    (hbody : start + groupBytes l ≤ g.body.length) (hfit : groupBytes l < 2 ^ 16)
    (hcount : u16 l.length ≠ 0#16) :
    exec (.dpkFrag (sliceFragment g seq first l marker pts dts).payload marker false) s =
      .next (takeData (slice g.body start (start + groupBytes l)) marker s) := by
  let coordinates := put16 (u16 (first % g.tp.slicesX.toNat)) ++ put16 (u16 (first / g.tp.slicesX.toNat))
  let data := slice g.body start (start + groupBytes l)
  have hlen : data.length = groupBytes l := by
    rw [slice_length, Nat.min_eq_left hbody, Nat.add_sub_cancel_left]
  have hflen := u16_toNat_of_lt hfit
  have hrest : slice (coordinates ++ data) 4 (4 + groupBytes l) = data := by
    rw [slice, List.take_of_length_le (by rw [List.length_append, hlen]; rfl)]
    rfl
  have hdecode := Encoding.decode_hqSlices ⟨seq, g.il⟩
    ⟨g.pn, u16 g.tp.slicePrefixBytes.toNat, u16 g.tp.sliceSizeScalar.toNat, u16 (groupBytes l)⟩ hcount
    (coordinates ++ data) marker
  have hpayload : (sliceFragment g seq first l marker pts dts).payload =
      pictureBytes g seq (groupBytes l) l.length ++ (coordinates ++ data) := by
    simp only [sliceFragment, hstart, Option.getD_some, List.append_assoc, coordinates, data]
  rw [hpayload, pictureBytes_eq, exec_dpkFrag_of_decode hdecode, exec_fragHqSlices,
    fragHqSlices_of_next _ hs.inPicture hs.curPn.symm, hflen, hrest]
  rw [hflen, List.length_append, hlen]
  exact Nat.le_refl _

/-- Data without the marker is one more piece of the open picture. -/
theorem takeData_collects {pn : Word} {acc : List Byte} {off : Word} {s : State} (data : List Byte)
    (hs : Collecting pn acc off s.dpk) :
    unitsOut (takeData data false s).resp = [] ∧
      Collecting pn (acc ++ data) off (takeData data false s).dpk := by
  obtain ⟨hopen, hpn, hacc, hcount, hoff⟩ := hs
  rw [takeData_false]
  exact ⟨rfl, hopen, hpn, by rw [hacc], by rw [hcount, u32_length_append], hoff⟩

/-- Data with the marker is the last piece: the unit goes out. -/
theorem takeData_emits {pn : Word} {acc : List Byte} {off : Word} {s : State} (data : List Byte)
    (hs : Collecting pn acc off s.dpk) :
    unitsOut (takeData data true s).resp = [pictureUnit pn (acc ++ data) off] ∧
      (takeData data true s).dpk.lastOff = u32 ((acc ++ data).length + 17) := by
  obtain ⟨-, hpn, hacc, hcount, hoff⟩ := hs
  have hnpo : s.dpk.accBytes + u32 data.length + 17#32 = u32 ((acc ++ data).length + 17) := by
    rw [hcount, ← u32_length_append, u32, u32, BitVec.ofNat_add]
  rw [takeData_true, hnpo, hpn, hacc, hoff, List.append_assoc]
  exact ⟨rfl, rfl⟩

/-- A walk ends behind the bytes of its slices. -/
theorem walked_end {measure : SliceLength} {body : List Byte} {tp : TransformInfo} {mtu o e : Nat}
    {l : List (Nat × Nat)} (h : walked measure body tp mtu o l e) : e = o + groupBytes l := by
  rw [← List.append_nil l] at h
  obtain ⟨m, -, hnil, hm⟩ := walked_append l [] o e h
  exact Eq.trans hnil hm

/-- What the walk says of a group: where it starts, that its length fits its field, and that its count is not
written as the 0 of a parameters fragment (30_encoding.md R73, R74). -/
theorem group_facts {body : List Byte} {tp : TransformInfo} {mtu o e : Nat} {l : List (Nat × Nat)}
    (hwalk : walked Config.sliceLen body tp mtu o l e) (hne : l ≠ []) (hfit : groupBytes l + 16 ≤ mtu)
    (hmtu : mtu < 2 ^ 16) :
    l.head?.map Prod.fst = some o ∧ groupBytes l < 2 ^ 16 ∧ u16 l.length ≠ 0#16 := by
  have hbytes := walked_length l o e hwalk
  have hpos := List.length_pos_iff.mpr hne
  obtain ⟨x, xs, rfl⟩ := List.exists_cons_of_ne_nil hne
  refine ⟨congrArg some (walked_head hwalk), by omega, fun hzero => ?_⟩
  have hnat := congrArg BitVec.toNat hzero
  rw [u16_toNat_of_lt (by omega)] at hnat
  exact absurd hnat (Nat.ne_of_gt hpos)

/-- The slice fragments of a picture append the body from `o` on, and the last puts the picture out. -/
theorem deliver_sliceFragments (g : Picture) {mtu pts dts : Nat} (hmtu : mtu < 2 ^ 16)
    {groups : List (List (Nat × Nat))} (hne : groups ≠ []) (hgreedy : greedy mtu groups) (seq : Half)
    (first : Nat) {o : Nat} {off : Word} {s : State}
    (hwalk : walked Config.sliceLen g.body g.tp mtu o groups.flatten g.body.length)
    (hs : Collecting g.pn (slice g.body 0 o) off s.dpk) :
    ∃ t, deliver (sliceFragments g pts dts seq first groups) s = some (t, [pictureUnit g.pn g.body off]) ∧
      t.dpk.lastOff = u32 (g.body.length + 17) := by
  induction groups generalizing seq first o s with
  | nil => exact absurd rfl hne
  | cons l rest ih =>
    obtain ⟨hl, hfit, -, hrest⟩ := hgreedy
    obtain ⟨m, hgroup, hwalk', rfl⟩ := walked_append l rest.flatten o _ hwalk
    obtain ⟨hstart, hbytes, hcount⟩ := group_facts hgroup hl hfit hmtu
    have hbody : o + groupBytes l ≤ g.body.length := by have := walked_end hwalk'; omega
    have hacc : slice g.body 0 o ++ slice g.body o (o + groupBytes l) = slice g.body 0 (o + groupBytes l) :=
      slice_append _ _ _ _ (Nat.zero_le _) (Nat.le_add_right _ _) hbody
    have hexec := fun marker =>
      exec_sliceFragment seq first marker pts dts hs hstart hbody hbytes hcount
    cases rest with
    | nil =>
      obtain ⟨hunit, hoff⟩ := takeData_emits (slice g.body o (o + groupBytes l)) hs
      have hall : slice g.body 0 (o + groupBytes l) = g.body := by
        rw [← (show g.body.length = _ from hwalk'), slice, List.take_length, List.drop_zero]
      rw [hacc, hall] at hunit hoff
      refine ⟨_, ?_, hoff⟩
      rw [← hunit]
      exact deliver_cons _ [] s _ _ [] (hexec true) rfl
    | cons next rest =>
      obtain ⟨hunit, hcollect⟩ := takeData_collects (slice g.body o (o + groupBytes l)) hs
      rw [hacc] at hcollect
      obtain ⟨t, hdeliver, hoff⟩ :=
        ih (List.cons_ne_nil _ _) hrest (seq + 1#16) (first + l.length) hwalk' hcollect
      refine ⟨t, ?_, hoff⟩
      rw [sliceFragments, List.isEmpty_cons, deliver_cons _ _ s _ t _ (hexec false) hdeliver, hunit]
      rfl

/-- The fragments of a picture come out as its unit. -/
theorem picture_regenerates (g : Picture) {mtu : Nat} (pts dts : Nat) (hmtu : mtu < 2 ^ 16)
    {groups : List (List (Nat × Nat))} (hne : groups ≠ []) (hgreedy : greedy mtu groups) (seq : Half)
    (hparams : g.tp.codedSize + 12 ≤ mtu)
    (hwalk : walked Config.sliceLen g.body g.tp mtu g.tp.codedSize groups.flatten g.body.length) :
    Regenerates (paramsFragment g seq pts dts :: sliceFragments g pts dts (seq + 1#16) 0 groups) 0xE8#8
      (u32 (g.body.length + 17)) (put32 g.pn ++ g.body) := by
  intro s
  have hbody : g.tp.codedSize ≤ g.body.length := by have := walked_end hwalk; omega
  obtain ⟨t, hexec, hunit, hcollect⟩ := exec_paramsFragment g seq pts dts s hbody (by omega)
  obtain ⟨u, hdeliver, hoff⟩ := deliver_sliceFragments g hmtu hne hgreedy (seq + 1#16) 0 hwalk hcollect
  refine ⟨u, ?_, hoff⟩
  rw [deliver_cons _ _ s t u _ hexec hdeliver, hunit]
  rfl

/-- The fragment of a sequence header comes out as its unit (R204). -/
theorem sequenceHeader_regenerates (head : WireHead) (raw : List Byte) (marker : Bool) (pts dts : Nat) :
    Regenerates [⟨wirePrefix head 0x00#8 ++ raw, marker, pts, dts⟩] 0x00#8 (u32 (raw.length + 13))
      raw := by
  intro s
  have hexec : exec (.dpkFrag (wirePrefix head 0x00#8 ++ raw) marker false) s =
      .next (fragSequenceHeader raw s) :=
    exec_dpkFrag_of_decode (decode_fragSequenceHeader head raw marker) s
  exact ⟨fragSequenceHeader raw s, deliver_cons _ [] s _ _ [] hexec rfl, rfl⟩

/-- The fragment of an end of sequence comes out as its unit, a bare header (R211). -/
theorem endOfSequence_regenerates (head : WireHead) (marker : Bool) (pts dts : Nat) :
    Regenerates [⟨wirePrefix head 0x10#8 ++ [], marker, pts, dts⟩] 0x10#8 0#32 [] := by
  intro s
  have hexec : exec (.dpkFrag (wirePrefix head 0x10#8 ++ []) marker false) s = .next (fragEndOfSequence s) :=
    exec_dpkFrag_of_decode (decode_fragEndOfSequence head [] marker) s
  exact ⟨fragEndOfSequence s, deliver_cons _ [] s _ _ [] hexec rfl, rfl⟩

/-! ### A stream pushed (44_packetizer.md R170 to R172) -/

/-- The loop of PKT.PUSH ends in one state. -/
theorem pushLoop_unique {s t u : State} (h : PushLoop s t) (h' : PushLoop s u) : t = u := by
  induction h with
  | stop s t hwait =>
    cases h' with
    | stop _ _ hwait' => exact Turn.wait.inj (hwait.symm.trans hwait')
    | again _ _ _ hmore' _ => rw [hwait] at hmore'; cases hmore'
  | again s v t hmore _ ih =>
    cases h' with
    | stop _ _ hwait' => rw [hmore] at hwait'; cases hwait'
    | again _ _ _ hmore' hloop' =>
      obtain rfl := Turn.more.inj (hmore.symm.trans hmore')
      exact ih hloop'

/-- The turns of a push, counted out by hand, are the ones that it makes. -/
theorem pushed_of_pushLoop {data : List Byte} {pts dts : Nat} {s t : State}
    (h : PushLoop (appendBuf data pts dts s) t) : Packetizer.pushed data pts dts s = t :=
  pushLoop_unique (Packetizer.pushLoop_runTurns (turnMeasure_lt_fuel _)) h

/-- A turn from `s` on to `t` that leaves the state `m` and the bytes `rest`, keeps the budget and sends
`l`. -/
structure TurnSends (s t : State) (m : Sync) (rest : List Byte) (l : List Fragment) : Prop where
  turn : turn Config.encRejectPolicy s = .more t
  state : t.pkt.state = m
  buf : t.pkt.buf = rest
  mtu : t.pkt.mtu = s.pkt.mtu
  tx : t.tx = s.tx ++ l

section
variable {code : Byte} {npo ppo : Word} {s : State}

/-- In SYNC a turn runs the accepted unit at the buffer head. -/
theorem turn_of_unitAtHead {n : Word} {t : State} (hs : s.pkt.state = .sync) (h : unitAtHead code npo ppo n s)
    (hexec : exec (unitInstr code npo ppo) s = .next t) : turn Config.encRejectPolicy s = .more t := by
  rw [Packetizer.exec_unitAtHead h] at hexec
  obtain ⟨hlen, -⟩ := unitAtHead_link h
  rw [Packetizer.turn_of_header hs hlen, Packetizer.stepUnit_of_found h.2, Host.Outcome.next.inj hexec]

/-- A unit behind which the next header looks back as far as it looks forward. -/
theorem unitAtHead_of_next {code' : Byte} {npo' : Word} {x y : List Byte}
    (hbuf : s.pkt.buf = parseInfo code npo ppo ++ (x ++ (parseInfo code' npo' npo ++ y)))
    (hn : npo.toNat = 13 + x.length) (hc : code ≠ 0x10#8) : unitAtHead code npo ppo npo s :=
  ⟨by rw [hbuf]; rfl, puExtract_next code npo ppo x y code' npo' _ hbuf hn hc⟩

/-- An end of sequence needs nothing behind it. -/
theorem unitAtHead_endOfSequence {y : List Byte} (hbuf : s.pkt.buf = parseInfo 0x10#8 npo ppo ++ y) :
    unitAtHead 0x10#8 npo ppo npo s := by
  have hhead : s.pkt.buf.take 13 = parseInfo 0x10#8 npo ppo := by rw [hbuf]; rfl
  obtain ⟨hlen, hmagic, hcode, hnpo, hppo⟩ := headFields hhead
  have hextract := Scanner.puExtract_of_link (size := s.pkt.buf.length) (offset := 0) hlen
    ((magicAt_iff _ _).mpr hmagic) rfl
  rw [Nat.zero_add, hcode, linkOf_endOfSequence] at hextract
  refine ⟨hhead, hextract.trans ?_⟩
  rw [Scanner.linkResponse, Nat.zero_add, Nat.zero_add, Nat.zero_add, hcode, hnpo, hppo]

/-- In UNSYNC a turn acquires an accepted unit at the buffer head, and drops nothing (R171). -/
theorem turn_acquires_head {n : Word} (hs : s.pkt.state = .unsync) (h : unitAtHead code npo ppo n s) :
    turn Config.encRejectPolicy s = .more (setSync .sync (consume 0 s)) := by
  have hfound : isFound (puExtract s.pkt.buf s.pkt.buf.length 0) = true := by rw [h.2]; rfl
  have hfind : puFind s.pkt.buf s.pkt.buf.length 0 = some 0 :=
    Scanner.puFind_of_first (Nat.le_refl _) (Nat.le_refl _) hfound fun q hq => absurd hq (Nat.not_lt_zero q)
  rw [Encoding.turn_of_unsync _ hs, Packetizer.acquire_of_some hfind]

end

/-- `next_parse_offset` carries a length that fits its 32 bits (30_encoding.md R65). -/
theorem u32_toNat_of_lt {n : Nat} (h : n < 2 ^ 32) : (u32 n).toNat = n := by
  rw [u32, BitVec.toNat_ofNat, Nat.mod_eq_of_lt h]

/-- The bytes between a first part and a rest. -/
theorem slice_between (a x y : List Byte) : slice (a ++ (x ++ y)) a.length (a.length + x.length) = x := by
  rw [slice, ← List.append_assoc, ← List.length_append, List.take_left, List.drop_left]

/-- The bytes behind them. -/
theorem drop_between (a x y : List Byte) : (a ++ (x ++ y)).drop (a.length + x.length) = y := by
  rw [← List.append_assoc, ← List.length_append, List.drop_left]

section
variable {ppo : Word} {y rest : List Byte} {s : State}

/-- The first sequence header of a stream is cached and sent as it is (R178). -/
theorem turn_sequenceHeader {raw : List Byte} {info : SeqInfo} {code' : Byte} {npo' : Word}
    (hs : s.pkt.state = .sync) (hlen : raw.length + 13 < 2 ^ 32)
    (hrest : rest = parseInfo code' npo' (u32 (raw.length + 13)) ++ y)
    (hbuf : s.pkt.buf = parseInfo 0x00#8 (u32 (raw.length + 13)) ppo ++ (raw ++ rest))
    (hraw : shParse raw = .ok info) (hcache : s.pkt.cacheValid = false) :
    ∃ t l, TurnSends s t .sync rest l ∧ Regenerates l 0x00#8 (u32 (raw.length + 13)) raw := by
  have hn := u32_toNat_of_lt hlen
  have hhead := unitAtHead_of_next (hrest ▸ hbuf) (by omega) (by decide)
  have hunit : slice s.pkt.buf 13 (raw.length + 13) = raw := by
    rw [hbuf, Nat.add_comm]; exact slice_between (parseInfo 0x00#8 _ ppo) raw rest
  have hdrop : s.pkt.buf.drop (raw.length + 13) = rest := by
    rw [hbuf, Nat.add_comm]; exact drop_between (parseInfo 0x00#8 _ ppo) raw rest
  obtain ⟨-, -, hparsed⟩ := Packetizer.sequenceHeaderUnitCachesAndEmits.2 _ ppo _ s hhead
  rw [hn, hunit, hdrop] at hparsed
  obtain ⟨-, hnew⟩ := hparsed (Nat.le_add_left _ _) info hraw
  exact ⟨_, [⟨wirePrefix ⟨s.pkt.extSeq, 0x00#8⟩ 0x00#8 ++ raw, false, s.pkt.pts, s.pkt.dts⟩],
    ⟨turn_of_unitAtHead hs hhead (hnew (.inl hcache)), hs, rfl, rfl, rfl⟩,
    sequenceHeader_regenerates _ _ _ _ _⟩

/-- A picture that passes the checks, its slices filling its body, is sent as its parameters and its groups of
slices (R179, R183). -/
theorem turn_picture {pn : Word} {body : List Byte} {tp : TransformInfo} {l : List (Nat × Nat)}
    {code' : Byte} {npo' : Word} (hs : s.pkt.state = .sync) (hlen : body.length + 17 < 2 ^ 32)
    (hrest : rest = parseInfo code' npo' (u32 (body.length + 17)) ++ y)
    (hbuf : s.pkt.buf = parseInfo 0xE8#8 (u32 (body.length + 17)) ppo ++ (put32 pn ++ (body ++ rest)))
    (htp : tpParse Config.qmSub body = some tp) (hfit : fieldsFit tp)
    (hx : tp.slicesX ≠ 0#32) (hy : tp.slicesY ≠ 0#32) (hparams : tp.codedSize + 12 ≤ s.pkt.mtu.toNat)
    (hwalk : walked Config.sliceLen body tp s.pkt.mtu.toNat tp.codedSize l body.length)
    (hcount : l.length = tp.slicesX.toNat * tp.slicesY.toNat) :
    ∃ t f, TurnSends s t .sync rest f ∧
      Regenerates f 0xE8#8 (u32 (body.length + 17)) (put32 pn ++ body) := by
  have hn := u32_toNat_of_lt hlen
  have hnext : s.pkt.buf = parseInfo 0xE8#8 (u32 (body.length + 17)) ppo ++ ((put32 pn ++ body) ++
      (parseInfo code' npo' (u32 (body.length + 17)) ++ y)) := by
    rw [hbuf, hrest, List.append_assoc]
  have hhead := unitAtHead_of_next hnext
    (by rw [hn, List.length_append, put32_length]; omega) (by decide)
  have hassoc : s.pkt.buf =
      (parseInfo 0xE8#8 (u32 (body.length + 17)) ppo ++ put32 pn) ++ (body ++ rest) := by
    rw [hbuf, List.append_assoc]
  have hunit : slice s.pkt.buf 17 (body.length + 17) = body := by
    rw [hassoc, Nat.add_comm]; exact slice_between (parseInfo 0xE8#8 _ ppo ++ put32 pn) body rest
  have hdrop : s.pkt.buf.drop (body.length + 17) = rest := by
    rw [hassoc, Nat.add_comm]; exact drop_between (parseInfo 0xE8#8 _ ppo ++ put32 pn) body rest
  have hpn : be32 s.pkt.buf 13 = pn := by rw [hbuf]; exact extract32 pn
  have hpacked := Packetizer.hqPictureUnitIsPackedGreedily _ ppo _ s tp l body.length hhead
  rw [hn, hunit, hpn, hdrop] at hpacked
  obtain ⟨groups, rfl, hgreedy, hexec⟩ :=
    hpacked (Nat.le_add_left _ _) htp hfit hx hy hparams hwalk hcount
  have hne : groups ≠ [] := by
    rintro rfl
    exact Packetizer.slices_ne_nil hx hy hcount rfl
  exact ⟨_, _, ⟨turn_of_unitAtHead hs hhead hexec, hs, rfl, rfl, rfl⟩,
    picture_regenerates _ _ _ s.pkt.mtu.isLt hne hgreedy _ hparams hwalk⟩

/-- An end of sequence is sent, and PKT leaves SYNC (R186). -/
theorem turn_endOfSequence (hs : s.pkt.state = .sync) (hbuf : s.pkt.buf = parseInfo 0x10#8 0#32 ppo ++ rest) :
    ∃ t l, TurnSends s t .unsync rest l ∧ Regenerates l 0x10#8 0#32 [] := by
  have hhead := unitAtHead_endOfSequence hbuf
  obtain ⟨hlen, -⟩ := unitAtHead_link hhead
  obtain ⟨_, _, _, _, hexec⟩ := Packetizer.endOfSequenceUnitEndsTheSequence.2 0#32 ppo s hlen
  have hdrop : s.pkt.buf.drop 13 = rest := by rw [hbuf]; rfl
  exact ⟨_, [⟨wirePrefix ⟨s.pkt.extSeq, 0x00#8⟩ 0x10#8 ++ [], false, s.pkt.pts, s.pkt.dts⟩],
    ⟨turn_of_unitAtHead hs hhead hexec, rfl, hdrop, rfl, rfl⟩, endOfSequence_regenerates _ _ _ _⟩

end

/-! ### The stream comes back (R218) -/

/-- A push of three units, the last an end of sequence with nothing behind it, makes five turns: one to
acquire, one for each unit, and one that waits. -/
theorem pushed_three_units {data : List Byte} {pts dts : Nat} {s t1 t2 t3 : State} {r1 r2 : List Byte}
    {f1 f2 f3 : List Fragment}
    (acquired : turn Config.encRejectPolicy (appendBuf data pts dts s) =
      .more (setSync .sync (consume 0 (appendBuf data pts dts s))))
    (sent1 : TurnSends (setSync .sync (consume 0 (appendBuf data pts dts s))) t1 .sync r1 f1)
    (sent2 : TurnSends t1 t2 .sync r2 f2) (sent3 : TurnSends t2 t3 .unsync [] f3) :
    (Packetizer.pushed data pts dts s).tx = s.tx ++ (f1 ++ (f2 ++ f3)) := by
  have hrest : turn Config.encRejectPolicy t3 = .wait (raisePkt .needMore t3) := by
    rw [Encoding.turn_of_unsync _ sent3.state, Packetizer.acquire_of_none (by rw [sent3.buf]; rfl)]
  have hloop := PushLoop.again _ _ _ acquired (.again _ _ _ sent1.turn (.again _ _ _ sent2.turn
    (.again _ _ _ sent3.turn (.stop _ _ hrest))))
  rw [pushed_of_pushLoop hloop, raisePkt_tx, sent3.tx, sent2.tx, sent1.tx]
  simp only [setSync_tx, consume_tx, appendBuf_tx, List.append_assoc]

/-- Three units in a row: each header looks back by the offset of the one before. -/
theorem deliver_three_units {f1 f2 f3 : List Fragment} {c1 c2 c3 : Byte} {n1 n2 n3 : Word}
    {x1 x2 x3 : List Byte} (h1 : Regenerates f1 c1 n1 x1) (h2 : Regenerates f2 c2 n2 x2)
    (h3 : Regenerates f3 c3 n3 x3) (s : State) :
    ∃ t, deliver (f1 ++ (f2 ++ f3)) s = some (t,
      [parseInfo c1 n1 s.dpk.lastOff ++ x1, parseInfo c2 n2 n1 ++ x2, parseInfo c3 n3 n2 ++ x3]) := by
  obtain ⟨t1, hd1, rfl⟩ := h1 s
  obtain ⟨t2, hd2, rfl⟩ := h2 t1
  obtain ⟨t3, hd3, -⟩ := h3 t2
  exact ⟨t3, deliver_append _ _ s t1 t3 _ _ hd1 (deliver_append _ _ t1 t2 t3 _ _ hd2 hd3)⟩

/-- Settles O47: one turn for each unit sends its fragments, and these come out as that unit, its header
regenerated from the unit before. -/
theorem streamRoundTrip : Obligations.StreamRoundTrip := by
  intro raw body pn info tp l pts dts s d hunsync hempty hcache htx hoff hrawlen hbodylen hraw htp hfit hx hy
    hparams hwalk hcount stream
  have hbuf : (appendBuf stream pts dts s).pkt.buf = parseInfo 0x00#8 (u32 (raw.length + 13)) 0#32 ++ (raw ++
      (parseInfo 0xE8#8 (u32 (body.length + 17)) (u32 (raw.length + 13)) ++ (put32 pn ++ (body ++
        (parseInfo 0x10#8 0#32 (u32 (body.length + 17)) ++ []))))) := by
    simp only [appendBuf_pkt, hempty, stream, List.nil_append, List.append_nil, List.append_assoc]
  have hhead := unitAtHead_of_next hbuf (by rw [u32_toNat_of_lt hrawlen, Nat.add_comm]) (by decide)
  have acquired := turn_acquires_head (s := appendBuf stream pts dts s) hunsync hhead
  obtain ⟨t1, f1, sent1, back1⟩ := turn_sequenceHeader
    (s := setSync .sync (consume 0 (appendBuf stream pts dts s))) rfl hrawlen rfl hbuf hraw hcache
  have hmtu : t1.pkt.mtu = s.pkt.mtu := sent1.mtu
  rw [← hmtu] at hparams hwalk
  obtain ⟨t2, f2, sent2, back2⟩ :=
    turn_picture sent1.state hbodylen rfl sent1.buf htp hfit hx hy hparams hwalk hcount
  obtain ⟨t3, f3, sent3, back3⟩ := turn_endOfSequence sent2.state sent2.buf
  obtain ⟨d', hdeliver⟩ := deliver_three_units back1 back2 back3 d
  have hsent : (Packetizer.pushed stream pts dts s).tx = f1 ++ (f2 ++ f3) := by
    rw [pushed_three_units acquired sent1 sent2 sent3, htx, List.nil_append]
  rw [← hsent] at hdeliver
  refine ⟨_, d', _, Packetizer.exec_pktPush stream pts dts s, hdeliver, ?_⟩
  simp only [hoff, stream, List.flatten_cons, List.flatten_nil, List.append_nil, List.append_assoc]

end Sys2Proof.Proofs.Depacketizer
end

section
/-! PROOFS. The family of 60_exceptions.md: what an instruction adds to the diagnostic output, and which event
register follows it (R230, R233). -/

namespace Sys2Proof.Proofs.Exceptions
open Sys2Proof Sys2Proof.Machine

/-! ### Events of an owner -/

/-- From `s` to `t` the owner `w` raises events: they are appended to the diagnostic output, and of the two
event registers only the one of `w`, if it has one, follows them (60_exceptions.md R233). -/
def Raises (w : Owner) (s t : State) : Prop :=
  ∃ e, t.diag = s.diag ++ e ∧
    t.pkt.event = (if w = .pkt then lastEvent s.pkt.event e else s.pkt.event) ∧
    t.dpk.event = (if w = .dpk then lastEvent s.dpk.event e else s.dpk.event)

/-- No event leaves what each register held. -/
theorem raises_of_quiet {w : Owner} {s t : State} (hdiag : t.diag = s.diag)
    (hpkt : t.pkt.event = s.pkt.event) (hdpk : t.dpk.event = s.dpk.event) : Raises w s t :=
  ⟨[], by rw [hdiag, List.append_nil], hpkt.trans (ite_self _).symm, hdpk.trans (ite_self _).symm⟩

theorem raises_of_pktRun {s t : State} (h : PktRun s t) : Raises .pkt s t := by
  obtain ⟨e, hdiag, hevent⟩ := h.diag
  exact ⟨e, hdiag, hevent, congrArg Dpk.event h.dpk⟩

theorem raises_of_dpkRun {s t : State} (h : DpkRun s t) : Raises .dpk s t := by
  obtain ⟨e, hdiag, hevent⟩ := h.diag
  exact ⟨e, hdiag, congrArg Pkt.event h.pkt, hevent⟩

/-- SHP, TPP and PUS have no event register (60_exceptions.md R233; log 13). -/
theorem noteOption_raises (e : Option Event) (a : Response) (s : State) :
    Raises .stateless s ((noteOption e s).reply a) := by
  cases e with
  | none => exact raises_of_quiet rfl rfl rfl
  | some e => exact ⟨[e], rfl, rfl, rfl⟩

/-! ### What each operation raises -/

/-- The loop starts behind the append, which raises nothing (44_packetizer.md R170). -/
theorem pushed_raises (data : List Byte) (pts dts : Nat) (a : Response) (s : State) :
    Raises .pkt s ((Packetizer.pushed data pts dts s).reply a) :=
  have loop := raises_of_pktRun (Packetizer.pushed_run data pts dts s)
  loop

/-- The six rows UNIT.* are one `StepUnit` (44_packetizer.md R172). -/
theorem unitRow_raises (code : Byte) (npo : Word) (s : State) :
    Raises .pkt s (turnState (stepDecoded Config.encRejectPolicy code npo s)) :=
  raises_of_pktRun (stepDecoded_run _ code npo s)

/-- The event comes after the registers are cleared, and `PKT_EVENT` is not one of them (44_packetizer.md
R190). -/
theorem pktReset_raises (s : State) :
    Raises .pkt s ((raisePkt (.discontinuity .resetOp) (clearPkt s)).reply .nothing) :=
  ⟨[.discontinuity .resetOp], rfl, rfl, rfl⟩

/-- The discontinuity before the dispatch (45_depacketizer.md R201). -/
theorem disc_run (disc : Bool) (s : State) :
    DpkRun s (if disc then discontinuity .transportFlag s else s) := by
  cases disc with
  | false => exact .refl s
  | true => exact discontinuity_run _ s

theorem dpkFrag_raises (payload : List Byte) (marker disc : Bool) (s : State) :
    Raises .dpk s (fragOp payload marker (if disc then discontinuity .transportFlag s else s)) :=
  raises_of_dpkRun ((disc_run disc s).trans (fragOp_run payload marker _))

theorem dpkReset_raises (s : State) : Raises .dpk s ((discontinuity .resetOp s).reply .nothing) :=
  raises_of_dpkRun ((discontinuity_run .resetOp s).trans (reply_dpkRun .nothing _))

/-! ### The instructions -/

/-- A run has one next state, so its events may be read off any equation of the instruction. -/
theorem raises_of_exec {i : Instr} {w : Owner} {s t u : State} (h : exec i s = .next t)
    (hexec : exec i s = .next u) (hu : Raises w s u) : Raises w s t := by
  obtain rfl := Host.Outcome.next.inj (hexec.symm.trans h)
  exact hu

theorem raises_of_answers {i : Instr} {s t : State} (h : exec i s = .next t) (ha : Registers.Answers i) :
    Raises .stateless s t := by
  obtain ⟨e, a, hexec⟩ := ha
  exact raises_of_exec h (hexec s) (noteOption_raises e a s)

/-- PKT.SETMTU raises nothing, whether or not it takes the value (44_packetizer.md R191). -/
theorem pktSetMtu_raises {m : Half} {s t : State} (h : exec (.pktSetMtu m) s = .next t) : Raises .pkt s t := by
  by_cases hm : Config.mtuMin ≤ m.toNat
  · exact raises_of_exec h (if_pos hm) (raises_of_quiet rfl rfl rfl)
  · exact raises_of_exec h (if_neg hm) (raises_of_quiet rfl rfl rfl)

/-- PU.EXTRACT runs only with `size` inside the buffer (43_parse_unit_scanner.md R140; log 17). -/
theorem size_le_of_puExtract {buf : List Byte} {size offset : Nat} {s t : State}
    (h : exec (.puExtract buf size offset) s = .next t) : size ≤ buf.length :=
  Nat.not_lt.mp fun hs => nomatch h.symm.trans (Scanner.exec_puExtract_of_oversize hs offset s)

/-- PU.FIND runs only with `size` inside the buffer (43_parse_unit_scanner.md R140; log 17). -/
theorem size_le_of_puFind {buf : List Byte} {size offset : Nat} {s t : State}
    (h : exec (.puFind buf size offset) s = .next t) : size ≤ buf.length :=
  Nat.not_lt.mp fun hs => nomatch h.symm.trans (Scanner.exec_puFind_of_oversize hs offset s)

/-- Each instruction is a meaning of its owner, and raises what that raises. -/
theorem exec_raises {i : Instr} {s t : State} (h : exec i s = .next t) : Raises (ownerOf i) s t := by
  cases i with
  | brInit | brReadBit | brReadBool | brReadUint | brLength | brOverrun | vlcBool | vlcUint =>
    exact raises_of_exec h rfl (raises_of_quiet rfl rfl rfl)
  | shParse data => exact raises_of_answers h (Registers.shParse_answers data)
  | shEqual a b => exact raises_of_exec h rfl (noteOption_raises none (.bool (shEqual a b)) s)
  | tpParse data => exact raises_of_answers h (Registers.tpParse_answers data)
  | puExtract buf size offset =>
    exact raises_of_answers h (Registers.puExtract_answers (size_le_of_puExtract h) offset)
  | puFind buf size offset =>
    exact raises_of_answers h (Registers.puFind_answers (size_le_of_puFind h) offset)
  | pktPush data pts dts =>
    exact raises_of_exec h (Packetizer.exec_pktPush data pts dts s) (pushed_raises data pts dts _ s)
  | pktReset => exact raises_of_exec h rfl (pktReset_raises s)
  | pktSetMtu m => exact pktSetMtu_raises h
  | unitSequenceHeader npo | unitEndOfSequence npo | unitAuxiliary npo | unitPadding npo | unitHqPicture npo =>
    exact raises_of_exec h rfl (unitRow_raises _ npo s)
  | unitUnknown code npo => exact raises_of_exec h rfl (unitRow_raises code npo s)
  | dpkFrag payload marker disc => exact raises_of_exec h rfl (dpkFrag_raises payload marker disc s)
  | dpkReset => exact raises_of_exec h rfl (dpkReset_raises s)
  | fragSequenceHeader _ p => exact raises_of_exec h rfl (raises_of_dpkRun (fragSequenceHeader_run p s))
  | fragEndOfSequence => exact raises_of_exec h rfl (raises_of_dpkRun (fragEndOfSequence_run s))
  | fragHqParams _ hq rest marker =>
    exact raises_of_exec h rfl (raises_of_dpkRun (fragHqParams_run hq rest marker s))
  | fragHqSlices _ hq _ rest marker =>
    exact raises_of_exec h rfl (raises_of_dpkRun (fragHqSlices_run hq rest marker s))
  | fragUnknown => exact raises_of_exec h rfl (raises_of_dpkRun (noUnit_run s))

/-- Settles O50: `exec_raises`, for `Raises` is what the statement says of the owner. -/
theorem eventRegistersHoldTheLastEvent : Obligations.EventRegistersHoldTheLastEvent :=
  fun _ _ _ h => exec_raises h

end Sys2Proof.Proofs.Exceptions
end
